-- ==== Sys2Proof/Word.lean ====
section
/-! DEFINITION. The words of the block: a byte of the bus or of a packet, a 16-bit word, and a 16-bit colour
(00_scope.md R7). Coordinates are mathematical integers (43_geometry_basic.md R220), so they have no word type. -/
namespace Sys2Proof

/-- A byte: what one transfer moves (20_memory.md R70) and what a packet is made of (30_encoding.md R100). -/
abbrev Byte := BitVec 8

/-- A 16-bit word: a window register, a count, a degrees field (30_encoding.md R101). -/
abbrev Word := BitVec 16

/-- A 16-bit RGB565 colour, an opaque value to every rule (00_scope.md R7). -/
abbrev Color := BitVec 16

end Sys2Proof
end

