-- ==== Sys2Proof/Config.lean ====
section
/-! DEFINITION. The names the parameters of 00_scope.md R8 speak of, the parameters themselves (`Config`), their
defaults, and the free values: constants with no body, of which no proof can know a value. -/
namespace Sys2Proof

/-- The command/data selector of a bus unit (30_encoding.md R90). -/
inductive Dc where
  | cmd | data
  deriving DecidableEq, Repr

/-- The nine commands of 30_encoding.md R91. -/
inductive Command where
  | swreset | slpout | dispoff | dispon | caset | raset | ramwr | madctl | colmod
  deriving DecidableEq, Repr

/-- The orientation index of 10_state.md R34: 0°, 90°, 180° and 270°. -/
inductive Orient where
  | o0 | o90 | o180 | o270
  deriving DecidableEq, Repr

/-- The electrical level of a pin (00_scope.md R8, `DC_CMD_LEVEL` and `RST_ACTIVE_LEVEL`). -/
inductive PinLevel where
  | low | high
  deriving DecidableEq, Repr

/-- The kinds of wait of 40_bus_transport.md R126. -/
inductive WaitKind where
  | pre | active | rst | slpout
  deriving DecidableEq, Repr

/-- `ORIENT_MAP[o]` for one orientation o ≠ 0 (20_memory.md R67), as plain data. The source says that an
orientation "swaps/mirrors axes"; the axes swap exactly when the frame is 160 × 128 (00_scope.md R9), so `flips`
needs only the two mirrors, of the physical column and of the physical row. `table` lists any other map, cell by
cell in row-major order of the logical frame, since R8 asks for no more than a bijection. -/
inductive OrientMap where
  | flips (mirrorX mirrorY : Bool)
  | table (cells : List (Nat × Nat))
  deriving DecidableEq, Repr

/-- The named parameters of 00_scope.md R8 that some rule reads. A machine has one `Config` for its life: State
holds it, no step writes it, and a claim about every state is a claim about every choice of the parameters. -/
structure Config where
  opcSwreset : Byte
  opcSlpout : Byte
  opcDispoff : Byte
  opcDispon : Byte
  opcCaset : Byte
  opcRaset : Byte
  opcRamwr : Byte
  opcMadctl : Byte
  opcColmod : Byte
  colmod16 : Byte
  orientCode0 : Byte
  orientCode90 : Byte
  orientCode180 : Byte
  orientCode270 : Byte
  orientMap90 : OrientMap
  orientMap180 : OrientMap
  orientMap270 : OrientMap
  dcCmdLevel : PinLevel
  rstActiveLevel : PinLevel
  deriving DecidableEq, Repr

/-- The defaults of 00_scope.md R8 and of 20_memory.md R67.
PRESUMED by the spec itself (general knowledge, 93_implementation_defined.md G1 to G3 and G6; the rotations are its
decision D6): log entries 1 and 2. -/
def Config.default : Config where
  opcSwreset := 0x01
  opcSlpout := 0x11
  opcDispoff := 0x28
  opcDispon := 0x29
  opcCaset := 0x2A
  opcRaset := 0x2B
  opcRamwr := 0x2C
  opcMadctl := 0x36
  opcColmod := 0x3A
  colmod16 := 0x05
  orientCode0 := 0x00
  orientCode90 := 0x60
  orientCode180 := 0xC0
  orientCode270 := 0xA0
  orientMap90 := .flips true false
  orientMap180 := .flips true true
  orientMap270 := .flips false true
  dcCmdLevel := .low
  rstActiveLevel := .low

/-- The byte received in the k-th transfer: a draw that no rule constrains (40_bus_transport.md R125).
A FREE VALUE (log entry 4). -/
opaque Config.rxDraw : Nat → Byte

/-- `T_RST_PRE` in microseconds. OPEN, and no rule depends on it (00_scope.md R8; log entry 3). -/
opaque Config.tRstPre : Nat

/-- `T_RST_ACTIVE` in microseconds, "~1ms" (70_reset_and_hazards.md R360). OPEN (log entry 3). -/
opaque Config.tRstActive : Nat

/-- `T_RST_SETTLE` in microseconds, "~150ms" (70_reset_and_hazards.md R360). OPEN (log entry 3). -/
opaque Config.tRstSettle : Nat

/-- `T_SLPOUT_SETTLE` in microseconds. OPEN (00_scope.md R8; log entry 3). -/
opaque Config.tSlpoutSettle : Nat

/-- `T_SWRESET_SETTLE` in microseconds. OPEN, and no operation waits for it (40_bus_transport.md R126). -/
opaque Config.tSwresetSettle : Nat

/-- `F_SCK` in hertz, the "fixed high clock rate". OPEN, and no rule depends on it (40_bus_transport.md R121). -/
opaque Config.fSck : Nat

/-- The duration of a wait (40_bus_transport.md R126). The model has no time: no rule reads it. -/
def Config.waitDuration : WaitKind → Nat
  | .pre => Config.tRstPre
  | .active => Config.tRstActive
  | .rst => Config.tRstSettle
  | .slpout => Config.tSlpoutSettle

/-- `PANEL_W` (00_scope.md R7). -/
def Config.panelW : Nat := 128

/-- `PANEL_H` (00_scope.md R7). -/
def Config.panelH : Nat := 160

/-- `ISQRT_TOP`, decided 0x80 (00_scope.md R8, D39; log entry 17). -/
def Config.isqrtTop : Byte := 0x80

/-- `WHITE` (00_scope.md R7). PRESUMED by the spec (G5): no rule reads it. -/
def Config.white : Color := 0xFFFF

/-- `BLACK`, the colour CLEAR writes (43_geometry_basic.md R229). PRESUMED by the spec (G5). -/
def Config.black : Color := 0x0000

end Sys2Proof
end

