-- ==== Sys2Proof/Syntax.lean ====
section
/-! DEFINITION. The instructions: one constructor per row of spec/opcode_table.json. The 21 engine operations come
first (30_encoding.md R102), then the nine bus commands and the data unit (R90, R91). -/
namespace Sys2Proof

/-- A bus unit: the selector and one byte (30_encoding.md R90). -/
structure BusUnit where
  dc : Dc
  byte : Byte
  deriving DecidableEq, Repr

/-- What stands for an instruction before it is decoded: an engine packet (30_encoding.md R100) or a bus unit
(R90), the two instruction levels of 00_scope.md R3. -/
inductive Encoded where
  | packet (bytes : List Byte)
  | unit (u : BusUnit)
  deriving DecidableEq, Repr

/-- The instructions. The operands stand in the order of the packet's fields (30_encoding.md R101). -/
inductive Instr where
  | busOpen
  | busClose
  | reset
  | init
  | setOrient (deg : Word)
  | setWindow (x0 y0 x1 y1 : Byte)
  | writePixels (c : Color) (n : Word)
  | isqrt (v : Word)
  | pixel (x y : Byte) (c : Color)
  | hline (x y len : Byte) (c : Color)
  | vline (x y len : Byte) (c : Color)
  | line (x0 y0 x1 y1 : Byte) (c : Color)
  | rect (x0 y0 x1 y1 : Byte) (c : Color)
  | fillRect (x0 y0 x1 y1 : Byte) (c : Color)
  | clear
  | circleQuad (cx cy r m : Byte) (c : Color)
  | circle (cx cy r : Byte) (c : Color)
  | roundRect (x0 y0 x1 y1 r : Byte) (c : Color)
  | filledCircle (cx cy r : Byte) (c : Color)
  | ellipse (cx cy w h : Byte) (c : Color)
  | filledEllipse (cx cy w h : Byte) (c : Color)
  | cSwreset
  | cSlpout
  | cDispoff
  | cDispon
  | cCaset
  | cRaset
  | cRamwr
  | cMadctl
  | cColmod
  | data (b : Byte)
  deriving DecidableEq, Repr

end Sys2Proof
end

