-- ==== Sys2Proof/WellFormed.lean ====
section
/-! DEFINITION. Which terms of the syntax are instructions of the block, and which parameters are legal. -/
namespace Sys2Proof

/-- Well-formed instructions: the mask of CIRCLE_QUAD has its reserved bits 7..4 clear (30_encoding.md R103, R104).
Every other field may hold any value of its width. -/
def Instr.wf : Instr → Bool
  | .circleQuad _ _ _ m _ => decide (m.toNat < 16)
  | .busOpen | .busClose | .reset | .init | .setOrient _ | .setWindow _ _ _ _ | .writePixels _ _ | .isqrt _
  | .pixel _ _ _ | .hline _ _ _ _ | .vline _ _ _ _ | .line _ _ _ _ _ | .rect _ _ _ _ _ | .fillRect _ _ _ _ _
  | .clear | .circle _ _ _ _ | .roundRect _ _ _ _ _ _ | .filledCircle _ _ _ _ | .ellipse _ _ _ _ _
  | .filledEllipse _ _ _ _ _ | .cSwreset | .cSlpout | .cDispoff | .cDispon | .cCaset | .cRaset | .cRamwr
  | .cMadctl | .cColmod | .data _ => true

/-- The constraint of 00_scope.md R8 on the command bytes: pairwise distinct. -/
def Config.opcsDistinct (cfg : Config) : Bool :=
  decide [cfg.opcSwreset, cfg.opcSlpout, cfg.opcDispoff, cfg.opcDispon, cfg.opcCaset, cfg.opcRaset, cfg.opcRamwr,
    cfg.opcMadctl, cfg.opcColmod].Nodup

/-- The constraint of 00_scope.md R8 on the orientation codes: pairwise distinct. -/
def Config.orientCodesDistinct (cfg : Config) : Bool :=
  decide [cfg.orientCode0, cfg.orientCode90, cfg.orientCode180, cfg.orientCode270].Nodup

/-- The code parameters are legal (00_scope.md R8). The constraint on `ORIENT_MAP` is `Config.MapsWf` of
Safety.lean. -/
def Config.wf (cfg : Config) : Bool := cfg.opcsDistinct && cfg.orientCodesDistinct

end Sys2Proof
end

