-- ==== Sys2Proof/Decode.lean ====
section
/-! DEFINITION. Decoding of packets and bus units, total and rejecting by name, and the encoder written from the same
tables (30_encoding.md). The byte-order helpers stand here too (20_memory.md R64, 00_scope.md R10). -/
namespace Sys2Proof

/-- `c[15:8]` (00_scope.md R10). -/
def hi8 (c : BitVec 16) : Byte := c.extractLsb' 8 8

/-- `c[7:0]` (00_scope.md R10). -/
def lo8 (c : BitVec 16) : Byte := c.extractLsb' 0 8

/-- `h ‖ l`: a 16-bit value from its two bytes, high byte first (20_memory.md R64). -/
def be16 (h l : Byte) : BitVec 16 := h ++ l

/-- Why an encoding is rejected (30_encoding.md R92, R104). -/
inductive DecodeError where
  /-- a packet with no opcode byte: shorter than any format (R104 item 2; log entry 13) -/
  | emptyPacket
  /-- an opcode byte not in the map (R104 item 1) -/
  | unknownOpcode (op : Byte)
  /-- fewer bytes than the opcode's format (R104 item 2) -/
  | shortPacket (op : Byte)
  /-- a CIRCLE_QUAD mask with bits 7..4 set (R104 item 3) -/
  | reservedMask (m : Byte)
  /-- a command byte that is none of the nine (R92) -/
  | unknownCommand (b : Byte)
  deriving DecidableEq, Repr

/-- The engine operations, by the names of 30_encoding.md R102. -/
inductive Op where
  | busOpen | busClose | reset | init | setOrient | setWindow | writePixels | isqrt
  | pixel | hline | vline | line | rect | fillRect | clear
  | circleQuad | circle | roundRect | filledCircle | ellipse | filledEllipse
  deriving DecidableEq, Repr

/-- The opcode map (30_encoding.md R102). -/
def Op.code : Op → Byte
  | .busOpen => 0x01
  | .busClose => 0x02
  | .reset => 0x03
  | .init => 0x04
  | .setOrient => 0x05
  | .setWindow => 0x06
  | .writePixels => 0x07
  | .isqrt => 0x08
  | .pixel => 0x10
  | .hline => 0x11
  | .vline => 0x12
  | .line => 0x13
  | .rect => 0x14
  | .fillRect => 0x15
  | .clear => 0x16
  | .circleQuad => 0x20
  | .circle => 0x21
  | .roundRect => 0x22
  | .filledCircle => 0x23
  | .ellipse => 0x24
  | .filledEllipse => 0x25

/-- Every engine operation, in the order of the map. -/
def Op.all : List Op :=
  [.busOpen, .busClose, .reset, .init, .setOrient, .setWindow, .writePixels, .isqrt, .pixel, .hline, .vline, .line,
    .rect, .fillRect, .clear, .circleQuad, .circle, .roundRect, .filledCircle, .ellipse, .filledEllipse]

/-- The operation an opcode byte selects (30_encoding.md R102). -/
def opOf (b : Byte) : Option Op := Op.all.find? fun k => decide (k.code = b)

/-- The length in bytes of an operation's packet, the opcode included (30_encoding.md R101, R105). -/
def Op.length : Op → Nat
  | .busOpen | .busClose | .reset | .init | .clear => 1
  | .setOrient | .isqrt => 3
  | .setWindow | .writePixels | .pixel => 5
  | .hline | .vline | .circle | .filledCircle => 6
  | .line | .rect | .fillRect | .circleQuad | .ellipse | .filledEllipse => 7
  | .roundRect => 8

/-- The fields of a packet after its opcode byte, by format (30_encoding.md R101, R103); what is left over comes back
beside the instruction. -/
def decodeFields (k : Op) (fields : List Byte) : Except DecodeError (Instr × List Byte) :=
  match k, fields with
  | .busOpen, r => .ok (.busOpen, r)
  | .busClose, r => .ok (.busClose, r)
  | .reset, r => .ok (.reset, r)
  | .init, r => .ok (.init, r)
  | .clear, r => .ok (.clear, r)
  | .setOrient, h :: l :: r => .ok (.setOrient (be16 h l), r)
  | .isqrt, h :: l :: r => .ok (.isqrt (be16 h l), r)
  | .setWindow, x0 :: y0 :: x1 :: y1 :: r => .ok (.setWindow x0 y0 x1 y1, r)
  | .writePixels, ch :: cl :: nh :: nl :: r => .ok (.writePixels (be16 ch cl) (be16 nh nl), r)
  | .pixel, x :: y :: h :: l :: r => .ok (.pixel x y (be16 h l), r)
  | .hline, x :: y :: n :: h :: l :: r => .ok (.hline x y n (be16 h l), r)
  | .vline, x :: y :: n :: h :: l :: r => .ok (.vline x y n (be16 h l), r)
  | .line, x0 :: y0 :: x1 :: y1 :: h :: l :: r => .ok (.line x0 y0 x1 y1 (be16 h l), r)
  | .rect, x0 :: y0 :: x1 :: y1 :: h :: l :: r => .ok (.rect x0 y0 x1 y1 (be16 h l), r)
  | .fillRect, x0 :: y0 :: x1 :: y1 :: h :: l :: r => .ok (.fillRect x0 y0 x1 y1 (be16 h l), r)
  | .circleQuad, cx :: cy :: rad :: m :: h :: l :: r =>
    if m.toNat < 16 then .ok (.circleQuad cx cy rad m (be16 h l), r) else .error (.reservedMask m)
  | .circle, cx :: cy :: rad :: h :: l :: r => .ok (.circle cx cy rad (be16 h l), r)
  | .roundRect, x0 :: y0 :: x1 :: y1 :: rad :: h :: l :: r => .ok (.roundRect x0 y0 x1 y1 rad (be16 h l), r)
  | .filledCircle, cx :: cy :: rad :: h :: l :: r => .ok (.filledCircle cx cy rad (be16 h l), r)
  | .ellipse, cx :: cy :: w :: h :: ch :: cl :: r => .ok (.ellipse cx cy w h (be16 ch cl), r)
  | .filledEllipse, cx :: cy :: w :: h :: ch :: cl :: r => .ok (.filledEllipse cx cy w h (be16 ch cl), r)
  | k, _ => .error (.shortPacket k.code)

/-- The Engine's decoder: byte 0 selects the format, then that format's remaining bytes are read
(30_encoding.md R100). -/
def decodePacket : List Byte → Except DecodeError (Instr × List Byte)
  | [] => .error .emptyPacket
  | op :: fields =>
    match opOf op with
    | none => .error (.unknownOpcode op)
    | some k => decodeFields k fields

/-- The byte of a command: the parameter `OPC_x` (30_encoding.md R91). -/
def opcOf (cfg : Config) : Command → Byte
  | .swreset => cfg.opcSwreset
  | .slpout => cfg.opcSlpout
  | .dispoff => cfg.opcDispoff
  | .dispon => cfg.opcDispon
  | .caset => cfg.opcCaset
  | .raset => cfg.opcRaset
  | .ramwr => cfg.opcRamwr
  | .madctl => cfg.opcMadctl
  | .colmod => cfg.opcColmod

/-- The nine commands, in the order of 30_encoding.md R91. -/
def Command.all : List Command :=
  [.swreset, .slpout, .dispoff, .dispon, .caset, .raset, .ramwr, .madctl, .colmod]

/-- The command a command byte stands for, if any (30_encoding.md R91, R92). -/
def commandOf (cfg : Config) (b : Byte) : Option Command := Command.all.find? fun k => decide (opcOf cfg k = b)

/-- The instruction of a command. -/
def Command.instr : Command → Instr
  | .swreset => .cSwreset
  | .slpout => .cSlpout
  | .dispoff => .cDispoff
  | .dispon => .cDispon
  | .caset => .cCaset
  | .raset => .cRaset
  | .ramwr => .cRamwr
  | .madctl => .cMadctl
  | .colmod => .cColmod

/-- The decoder of bus units: the selector alone tells a command from data (30_encoding.md R90). -/
def decodeUnit (cfg : Config) (u : BusUnit) : Except DecodeError Instr :=
  match u.dc with
  | .data => .ok (.data u.byte)
  | .cmd =>
    match commandOf cfg u.byte with
    | some k => .ok k.instr
    | none => .error (.unknownCommand u.byte)

/-- The decoder of both levels. Bytes after a packet's format are not read (log entry 13). -/
def decode (cfg : Config) : Encoded → Except DecodeError Instr
  | .packet bytes =>
    match decodePacket bytes with
    | .ok (i, _) => .ok i
    | .error e => .error e
  | .unit u => decodeUnit cfg u

/-- The encoder, from the tables of 30_encoding.md R91, R101 and R102. -/
def encode (cfg : Config) : Instr → Encoded
  | .busOpen => .packet [0x01]
  | .busClose => .packet [0x02]
  | .reset => .packet [0x03]
  | .init => .packet [0x04]
  | .setOrient deg => .packet [0x05, hi8 deg, lo8 deg]
  | .setWindow x0 y0 x1 y1 => .packet [0x06, x0, y0, x1, y1]
  | .writePixels c n => .packet [0x07, hi8 c, lo8 c, hi8 n, lo8 n]
  | .isqrt v => .packet [0x08, hi8 v, lo8 v]
  | .pixel x y c => .packet [0x10, x, y, hi8 c, lo8 c]
  | .hline x y len c => .packet [0x11, x, y, len, hi8 c, lo8 c]
  | .vline x y len c => .packet [0x12, x, y, len, hi8 c, lo8 c]
  | .line x0 y0 x1 y1 c => .packet [0x13, x0, y0, x1, y1, hi8 c, lo8 c]
  | .rect x0 y0 x1 y1 c => .packet [0x14, x0, y0, x1, y1, hi8 c, lo8 c]
  | .fillRect x0 y0 x1 y1 c => .packet [0x15, x0, y0, x1, y1, hi8 c, lo8 c]
  | .clear => .packet [0x16]
  | .circleQuad cx cy r m c => .packet [0x20, cx, cy, r, m, hi8 c, lo8 c]
  | .circle cx cy r c => .packet [0x21, cx, cy, r, hi8 c, lo8 c]
  | .roundRect x0 y0 x1 y1 r c => .packet [0x22, x0, y0, x1, y1, r, hi8 c, lo8 c]
  | .filledCircle cx cy r c => .packet [0x23, cx, cy, r, hi8 c, lo8 c]
  | .ellipse cx cy w h c => .packet [0x24, cx, cy, w, h, hi8 c, lo8 c]
  | .filledEllipse cx cy w h c => .packet [0x25, cx, cy, w, h, hi8 c, lo8 c]
  | .cSwreset => .unit ⟨.cmd, cfg.opcSwreset⟩
  | .cSlpout => .unit ⟨.cmd, cfg.opcSlpout⟩
  | .cDispoff => .unit ⟨.cmd, cfg.opcDispoff⟩
  | .cDispon => .unit ⟨.cmd, cfg.opcDispon⟩
  | .cCaset => .unit ⟨.cmd, cfg.opcCaset⟩
  | .cRaset => .unit ⟨.cmd, cfg.opcRaset⟩
  | .cRamwr => .unit ⟨.cmd, cfg.opcRamwr⟩
  | .cMadctl => .unit ⟨.cmd, cfg.opcMadctl⟩
  | .cColmod => .unit ⟨.cmd, cfg.opcColmod⟩
  | .data b => .unit ⟨.data, b⟩

/-- The orientation code `ORIENT_CODE[o]` (00_scope.md R8). -/
def orientCodeOf (cfg : Config) : Orient → Byte
  | .o0 => cfg.orientCode0
  | .o90 => cfg.orientCode90
  | .o180 => cfg.orientCode180
  | .o270 => cfg.orientCode270

/-- The orientation a MADCTL parameter selects, if it is one of the four codes
(41_controller_commands.md R158). -/
def orientOf (cfg : Config) (p : Byte) : Option Orient :=
  [Orient.o0, .o90, .o180, .o270].find? fun o => decide (orientCodeOf cfg o = p)

/-- The `i`-th byte of a number, the least significant first: how spec/opcode_table.json numbers a row's bits. -/
def byteAt (w i : Nat) : Byte := BitVec.ofNat 8 (w >>> (8 * i))

/-- A word of spec/opcode_table.json as the hardware's own encoding. The bus-unit rows have 9 bits
(`dc_bit ‖ b`, 30_encoding.md R90), in whole bytes 16; no packet is 2 bytes long (R101), so that size tells the two
levels apart (log entry 21). A packet's bytes are those of its opcode's format, the bits above `nbits` zero. -/
def tableEncoded (nbits w : Nat) : Encoded :=
  if 8 < nbits && nbits ≤ 16 then
    .unit ⟨if w.testBit 8 then .data else .cmd, byteAt w 0⟩
  else
    let len := match opOf (byteAt w 0) with
      | some k => k.length
      | none => 1
    .packet ((List.range len).map (byteAt w))

/-- The instruction the decoder reads from a word of spec/opcode_table.json, with the default parameters of
00_scope.md R8, which that table uses. -/
def decodeTableWord (nbits w : Nat) : Option Instr :=
  match decode Config.default (tableEncoded nbits w) with
  | .ok i => some i
  | .error _ => none

end Sys2Proof
end

