-- ==== Sys2Proof/Machine/State.lean ====
section
/-! DEFINITION. The state of the block, as plain data: the Engine's registers (10_state.md R24 to R30, R39), the
Controller's (R31 to R38), the trace (R41), the Host's side (R20, R21), and the parameters (00_scope.md R8).
`none` in a register field is the spec's own value ⊥, "unset" (00_scope.md R10; log entry 6). -/
namespace Sys2Proof.Machine

/-- The Controller's phase (10_state.md R31). -/
inductive Phase where
  | uninitialized | resetting | sleepOut | colorModeSet | on
  deriving DecidableEq, Repr

/-- The settle kinds of 10_state.md R32. -/
inductive Settle where
  | rst | swreset | slpout
  deriving DecidableEq, Repr

/-- The logical level of the reset line (10_state.md R26). -/
inductive Level where
  | inactive | active
  deriving DecidableEq, Repr

/-- What a `ParamError` records (60_exceptions.md R301 code 7), one constructor for each `raise` of
41_controller_commands.md R145 to R147, R152 and R158. -/
inductive ParamFault where
  | stray (b : Byte)
  | incomplete (k : Command)
  | oddPixelByte
  | extra (k : Command) (b : Byte)
  | colmod (p : Byte)
  | madctl (p : Byte)
  deriving DecidableEq, Repr

/-- What a `WindowOverrun` records (60_exceptions.md R301 code 11): the count n, or the pixel's colour. -/
inductive Overrun where
  | count (n : Int)
  | pixel (c : Color)
  deriving DecidableEq, Repr

/-- The register an `UnsetRead` names (60_exceptions.md R301 code 14). The Host can read `sqrt` alone; the other two
are read unset only in states no run reaches (log entry 14). -/
inductive Reg where
  | sqrt | pointer | window
  deriving DecidableEq, Repr

/-- The faults of 60_exceptions.md R301, each with its info. -/
inductive FaultInfo where
  | illegalOp (bytes : List Byte)
  | notOn (opcode : Byte)
  | orderViolation (k : Command) (phase : Phase)
  | settleViolation (k : Settle) (dc : Dc) (b : Byte)
  | resetActive (dc : Dc) (b : Byte)
  | unknownCommand (b : Byte)
  | paramError (p : ParamFault)
  | windowUnset
  | malformedWindow (x0 y0 x1 y1 : Int)
  | outOfBounds (x0 y0 x1 y1 : Int)
  | windowOverrun (o : Overrun)
  | busClosed (dc : Dc) (b : Byte)
  | degenerateEllipse (w h : Byte)
  | unsetRead (r : Reg)
  deriving DecidableEq, Repr

/-- The record `(code, opIndex, info)` of `E.fault` (60_exceptions.md R300); the code is `FaultInfo.code` of the
info's constructor. -/
structure FaultRecord where
  info : FaultInfo
  opIndex : Nat
  deriving DecidableEq, Repr

/-- The display memory (10_state.md R38): (key, colour) pairs, the key of cell (px, py) being 128·py + px. A cell
that is not listed reads as ⊥. The smallest unit is the 16-bit cell, which is never seen half-written
(20_memory.md R60, R70; log entry 7). -/
abbrev Memory := List (Nat × Color)

/-- The number of cells (20_memory.md R60, R72). -/
def Memory.cells : Nat := 20480

/-- The canonical form: keys strictly rising, each the key of a cell of the array. No entry can equal what an
unlisted cell reads as, since that is ⊥ and an entry holds a colour. -/
abbrev Memory.wf (m : Memory) : Prop :=
  m.Pairwise (fun a b => a.1 < b.1) ∧ ∀ e ∈ m, e.1 < Memory.cells

/-- The Controller's state (10_state.md R31 to R38). -/
structure Controller where
  phase : Phase
  settle : Option Settle
  colmod : Option Byte
  orient : Orient
  xs : Option Word
  xe : Option Word
  ys : Option Word
  ye : Option Word
  cmd : Option Command
  pbuf : List Byte
  wpX : Option Word
  wpY : Option Word
  wpDone : Bool
  hi : Option Byte
  gram : Memory
  deriving DecidableEq, Repr

/-- What the Host does next (10_state.md R21): submit the next operation of its stream, or read `E.sqrt` or
`E.fault`. Its fourth action, reading the end state for a claim, takes no step. The Host has no other action, and
none that puts a bus unit on the bus. -/
inductive HostAction where
  | submit
  | readSqrt
  | readFault
  deriving DecidableEq, Repr

/-- What a Host read gave (10_state.md R21 items 2 and 3). -/
inductive ReadResult where
  | sqrt (v : Byte)
  | fault (f : Option FaultRecord)
  deriving DecidableEq, Repr

/-- The host-level faults of a step: none. Every fault of this block is a record written to `E.fault`, so an
instruction that raises one answers a NEXT state (60_exceptions.md R300, R304), and a bus stall is a stuck state, not
a fault (R306). Nobody raises a fault of this type, which is safe. -/
inductive Fault where
  deriving DecidableEq, Repr

/-- The refusals of a step. -/
inductive Refusal where
  /-- Raised by an arm of `exec` whose instruction has no meaning yet, by its mnemonic. Safe. No arm of this model
  answers it. -/
  | notModelled (mnemonic : String)
  deriving DecidableEq, Repr

/-- The state of the block. -/
structure State where
  /-- the parameters of 00_scope.md R8; nothing writes them -/
  cfg : Config
  /-- OPS, the Host's operation stream (10_state.md R20); nothing the block does writes it (20_memory.md R75) -/
  ops : List (List Byte)
  /-- the Host's next actions, the first one next; when there are none it goes on submitting (log entry 8) -/
  host : List HostAction
  /-- what the Host has read, the oldest first (log entry 8) -/
  reads : List ReadResult
  /-- the bench: the bus units it still drives onto the bus, the first one next. It is no agent of the block and not
  the Host; it stands for the bench of the vectors V41.*, and is empty in a block that has only its Host (log
  entry 9) -/
  bench : List BusUnit
  /-- `E.pc`: the index of the next operation (R24) -/
  pc : Nat
  /-- `E.busOpen` (R25) -/
  busOpen : Bool
  /-- `E.rst` (R26) -/
  rst : Level
  /-- `E.dc` (R27) -/
  dc : Option Dc
  /-- `E.busy` (R28) -/
  busy : Bool
  /-- `E.rx` (R29) -/
  rx : Option Byte
  /-- the model's own counter of draws (40_bus_transport.md R125; log entry 4) -/
  draws : Nat
  /-- the Bus: how many transfers it still completes before one that it never completes, or `none` when it
  completes every one (40_bus_transport.md R128, 60_exceptions.md R306; log entry 5) -/
  stall : Option Nat
  /-- `E.sqrt` (R30) -/
  sqrt : Option Byte
  /-- `E.fault` (R39) -/
  fault : Option FaultRecord
  /-- the Controller -/
  ctl : Controller
  /-- T: every bus unit, in the order XFER sent it (R41) -/
  trace : List BusUnit
  deriving DecidableEq, Repr

/-- The Controller at power-on: the values of `ControllerReset()`, but phase Uninitialized and no settle
(70_reset_and_hazards.md R344). -/
def Controller.powerOn : Controller where
  phase := .uninitialized
  settle := none
  colmod := none
  orient := .o0
  xs := none
  xe := none
  ys := none
  ye := none
  cmd := none
  pbuf := []
  wpX := none
  wpY := none
  wpDone := false
  hi := none
  gram := []

/-- Power-on (70_reset_and_hazards.md R344). The Host's side is empty, the Bus completes every transfer, and the
parameters are the defaults of 00_scope.md R8: log entries 1, 2, 4, 5 and 8. There is no bench (log entry 9). -/
def State.reset : State where
  cfg := Config.default
  ops := []
  host := []
  reads := []
  bench := []
  pc := 0
  busOpen := false
  rst := .inactive
  dc := none
  busy := false
  rx := none
  draws := 0
  stall := none
  sqrt := none
  fault := none
  ctl := Controller.powerOn
  trace := []

end Sys2Proof.Machine
end

