-- ==== Sys2Proof/Machine/Ops.lean ====
section
/-! DEFINITION. The named operations over memory and registers: the display memory, the logical frame and
`ORIENT_MAP`, raising a fault (the block's only trap), the controller reset, the reset line and the waits, and how an
operation runs its parts in order. -/
namespace Sys2Proof.Machine

/-! ### The display memory -/

/-- What a cell that is not listed reads as: ⊥, never written since the last reset (10_state.md R38). -/
def Memory.unlisted : Option Color := none

/-- The key of the physical cell (px, py), px ∈ 0..127 and py ∈ 0..159 (20_memory.md R60). -/
def Memory.key (px py : Nat) : Nat := 128 * py + px

/-- Read one cell by its key. No bus unit reads GRAM (00_scope.md R6 item 6): claims do (10_state.md R41). -/
def Memory.read (m : Memory) (a : Nat) : Option Color :=
  match m with
  | [] => Memory.unlisted
  | e :: m => if e.1 = a then some e.2 else Memory.read m a

/-- Write one cell by its key, keeping the keys rising. -/
def Memory.write (m : Memory) (a : Nat) (c : Color) : Memory :=
  match m with
  | [] => [(a, c)]
  | e :: m =>
    if a < e.1 then (a, c) :: e :: m
    else if a = e.1 then (a, c) :: m
    else e :: Memory.write m a c

/-- The cell (px, py) of the display memory, or ⊥. -/
def Memory.cell (m : Memory) (px py : Nat) : Option Color := m.read (Memory.key px py)

/-! ### The logical frame and its map to the array -/

/-- `W(o)` (00_scope.md R9). -/
def frameW : Orient → Nat
  | .o0 | .o180 => Config.panelW
  | .o90 | .o270 => Config.panelH

/-- `H(o)` (00_scope.md R9). -/
def frameH : Orient → Nat
  | .o0 | .o180 => Config.panelH
  | .o90 | .o270 => Config.panelW

/-- One orientation's map applied to (x, y) (20_memory.md R67): the axes swap exactly when the frame is 160 × 128, and
each physical axis may be mirrored; or the table gives the cell. -/
def applyMap (m : OrientMap) (o : Orient) (x y : Nat) : Nat × Nat :=
  match m with
  | .flips mirrorX mirrorY =>
    let (u, v) := if frameW o = Config.panelW then (x, y) else (y, x)
    (if mirrorX then 127 - u else u, if mirrorY then 159 - v else v)
  | .table cells => cells.getD (frameW o * y + x) (0, 0)

/-- `ORIENT_MAP[o]` (20_memory.md R67). At o = 0 it is the identity, by definition of the physical frame. -/
def orientMap (cfg : Config) (o : Orient) (x y : Nat) : Nat × Nat :=
  match o with
  | .o0 => (x, y)
  | .o90 => applyMap cfg.orientMap90 .o90 x y
  | .o180 => applyMap cfg.orientMap180 .o180 x y
  | .o270 => applyMap cfg.orientMap270 .o270 x y

/-- The key of the cell that the logical position (x, y) names at orientation o (20_memory.md R63). -/
def cellKey (cfg : Config) (o : Orient) (x y : Nat) : Nat :=
  let p := orientMap cfg o x y
  Memory.key p.1 p.2

/-! ### Faults: taking one is the block's only trap -/

/-- The numeric code of a fault (60_exceptions.md R301). -/
def FaultInfo.code : FaultInfo → Nat
  | .illegalOp _ => 1
  | .notOn _ => 2
  | .orderViolation _ _ => 3
  | .settleViolation _ _ _ => 4
  | .resetActive _ _ => 5
  | .unknownCommand _ => 6
  | .paramError _ => 7
  | .windowUnset => 8
  | .malformedWindow _ _ _ _ => 9
  | .outOfBounds _ _ _ _ => 10
  | .windowOverrun _ => 11
  | .busClosed _ _ => 12
  | .degenerateEllipse _ _ => 13
  | .unsetRead _ => 14

/-- `raise X(info)` (60_exceptions.md R300): `E.fault <- (X, E.pc, info)`, and nothing else: no vector, saved status or
mode change (R304). A record that is already there is never overwritten (10_state.md R39). There is no return from a
fault (R305), so no operation stands beside this one. -/
def State.raise (s : State) (f : FaultInfo) : State :=
  match s.fault with
  | some _ => s
  | none => { s with fault := some ⟨f, s.pc⟩ }

/-- How a run of micro-steps ends: `ok`, it went through; `stop`, no further micro-step of the operation runs, because
a fault was raised (60_exceptions.md R300) or the Bus never completes a transfer (R306). Either way every effect so
far stands (00_scope.md R12). -/
inductive Run where
  | ok (s : State)
  | stop (s : State)
  deriving DecidableEq, Repr

/-- The state a run leaves, however it ends. -/
def Run.state : Run → State
  | .ok s => s
  | .stop s => s

/-- One part after another: the second runs only when the first went through (00_scope.md R12). -/
def Run.andThen (r : Run) (f : State → Run) : Run :=
  match r with
  | .ok s => f s
  | .stop s => .stop s

/-- The same part for each element of a list, in order. -/
def runAll {α : Type} (f : α → State → Run) : List α → State → Run
  | [], s => .ok s
  | a :: l, s => (f a s).andThen (runAll f l)

/-- A part repeated n times. -/
def repeatRun (f : State → Run) : Nat → State → Run
  | 0, s => .ok s
  | n + 1, s => (f s).andThen (repeatRun f n)

/-- Raise a fault and stop the operation (60_exceptions.md R300). -/
def raiseStop (s : State) (f : FaultInfo) : Run := .stop (s.raise f)

/-! ### Register writes of the Engine -/

/-- `E.pc <- E.pc + 1` (10_state.md R24). -/
def State.advancePc (s : State) : State := { s with pc := s.pc + 1 }

/-- `E.busOpen <- v` (10_state.md R25). -/
def State.setBusOpen (s : State) (v : Bool) : State := { s with busOpen := v }

/-- `E.rst <- l` (10_state.md R26). -/
def State.setRst (s : State) (l : Level) : State := { s with rst := l }

/-- `E.sqrt <- v` (10_state.md R30). -/
def State.setSqrt (s : State) (v : Byte) : State := { s with sqrt := some v }

/-- The Controller's new state. -/
def State.setCtl (s : State) (c : Controller) : State := { s with ctl := c }

/-- The Host's remaining actions. -/
def State.setHost (s : State) (l : List HostAction) : State := { s with host := l }

/-- The bench's remaining units (log entry 9). -/
def State.setBench (s : State) (l : List BusUnit) : State := { s with bench := l }

/-- A value the Host has read (10_state.md R21). -/
def State.logRead (s : State) (r : ReadResult) : State := { s with reads := s.reads ++ [r] }

/-- A whole engine operation: it advances the pc when it goes through (10_state.md R24), and leaves it at its own
index when it stops. Both are next states (60_exceptions.md R300, R306). -/
def complete (r : Run) : Host.Outcome State Fault Refusal :=
  match r with
  | .ok s => .next s.advancePc
  | .stop s => .next s

/-- A bus unit run by itself: no engine operation, so the pc stays (10_state.md R24, 70_reset_and_hazards.md R345). -/
def unitDone (r : Run) : Host.Outcome State Fault Refusal := .next r.state

/-! ### The controller reset, the reset line and the waits -/

/-- `ControllerReset()` (70_reset_and_hazards.md R340): every Controller register but `C.settle`, which its caller
sets. -/
def controllerReset (c : Controller) : Controller :=
  { Controller.powerOn with phase := .resetting, settle := c.settle }

/-- `DRIVE_RST(level)` (40_bus_transport.md R127, 70_reset_and_hazards.md R341, R342). -/
def driveRst (level : Level) (s : State) : State :=
  match s.rst, level with
  | .inactive, .active =>
    (s.setRst .active).setCtl { controllerReset s.ctl with settle := none }
  | .active, .inactive =>
    (s.setRst .inactive).setCtl { controllerReset s.ctl with settle := some .rst }
  | .inactive, .inactive | .active, .active => s

/-- `WAIT(k)` (40_bus_transport.md R126): the Engine idles, and the waits RST and SLPOUT lift the settle hold. The model
has no time (R360; log entry 3). -/
def wait (k : WaitKind) (s : State) : State :=
  match k with
  | .rst | .slpout => s.setCtl { s.ctl with settle := none }
  | .pre | .active => s

/-! ### The pins -/

/-- The level of a pin that means the opposite. -/
def PinLevel.opposite : PinLevel → PinLevel
  | .low => .high
  | .high => .low

/-- The level on the command/data pin (10_state.md R27, `DC_CMD_LEVEL`). -/
def State.dcPin (s : State) : Option PinLevel :=
  s.dc.map fun
    | .cmd => s.cfg.dcCmdLevel
    | .data => PinLevel.opposite s.cfg.dcCmdLevel

/-- The level on the reset pin (10_state.md R26, `RST_ACTIVE_LEVEL`). -/
def State.rstPin (s : State) : PinLevel :=
  match s.rst with
  | .active => s.cfg.rstActiveLevel
  | .inactive => PinLevel.opposite s.cfg.rstActiveLevel

end Sys2Proof.Machine
end

