-- ==== Sys2Proof/Machine/Controller.lean ====
section
/-! DEFINITION. The Controller's side of the bus: receiving a unit, the phase machine, and the start and the latch of
each command (41_controller_commands.md R140 to R162). The Controller is an agent of its own: these functions see
its state, the parameters and the level of the reset line, and nothing of the Engine (R142). -/
namespace Sys2Proof.Machine

/-- What a rule of the Controller answers: its new state, or its state when a fault was raised. The effects before the
raise stand (00_scope.md R12). -/
inductive CtlResult where
  | ok (c : Controller)
  | raised (c : Controller) (f : FaultInfo)
  deriving DecidableEq, Repr

/-- The Controller's state after a rule, however it ends. -/
def CtlResult.ctl : CtlResult → Controller
  | .ok c => c
  | .raised c _ => c

/-- The number of parameter bytes of a command (41_controller_commands.md R147); the others take none. -/
def paramCount : Command → Nat
  | .caset | .raset => 4
  | .colmod | .madctl => 1
  | .swreset | .slpout | .dispoff | .dispon | .ramwr => 0

/-- The phases that admit a command (41_controller_commands.md R149). -/
def admits : Command → Phase → Bool
  | .swreset, _ => true
  | .slpout, p => p = .resetting
  | .colmod, p => p = .sleepOut
  | .dispon, p => p = .colorModeSet
  | .dispoff, p => p = .on
  | .caset, p => p = .on
  | .raset, p => p = .on
  | .ramwr, p => p = .on
  | .madctl, p => p = .on

/-- The decoder with no command in progress: the last line of `closeCommand()` (41_controller_commands.md R146). -/
def Controller.closed (c : Controller) : Controller := { c with cmd := none, pbuf := [], hi := none }

/-- `closeCommand()` (41_controller_commands.md R146). -/
def closeCommand (c : Controller) : CtlResult :=
  match c.cmd with
  | none => .ok c.closed
  | some k =>
    if c.pbuf.length < paramCount k then .raised c (.paramError (.incomplete k))
    else if k = .ramwr ∧ c.hi ≠ none then .raised c (.paramError .oddPixelByte)
    else .ok c.closed

/-! ### The start of each command -/

/-- SWRESET (41_controller_commands.md R150, 70_reset_and_hazards.md R343). -/
def startSwreset (c : Controller) : CtlResult :=
  .ok { controllerReset c with settle := some .swreset, cmd := none }

/-- SLPOUT (41_controller_commands.md R151). -/
def startSlpout (c : Controller) : CtlResult :=
  .ok { c with phase := .sleepOut, settle := some .slpout, cmd := none }

/-- COLMOD (41_controller_commands.md R152). -/
def startColmod (c : Controller) : CtlResult := .ok { c with cmd := some .colmod, pbuf := [] }

/-- DISPON (41_controller_commands.md R153). -/
def startDispon (c : Controller) : CtlResult := .ok { c with phase := .on, cmd := none }

/-- DISPOFF (41_controller_commands.md R154). -/
def startDispoff (c : Controller) : CtlResult := .ok { c with phase := .colorModeSet, cmd := none }

/-- CASET (41_controller_commands.md R157). -/
def startCaset (c : Controller) : CtlResult := .ok { c with cmd := some .caset, pbuf := [] }

/-- RASET (41_controller_commands.md R162). -/
def startRaset (c : Controller) : CtlResult := .ok { c with cmd := some .raset, pbuf := [] }

/-- MADCTL (41_controller_commands.md R158). -/
def startMadctl (c : Controller) : CtlResult := .ok { c with cmd := some .madctl, pbuf := [] }

/-- RAMWR (41_controller_commands.md R159): the window is checked here, then the pointer goes to its start. -/
def startRamwr (c : Controller) : CtlResult :=
  match c.xs, c.xe, c.ys, c.ye with
  | some xs, some xe, some ys, some ye =>
    let raised := CtlResult.raised c
    let x0 := Int.ofNat xs.toNat
    let x1 := Int.ofNat xe.toNat
    let y0 := Int.ofNat ys.toNat
    let y1 := Int.ofNat ye.toNat
    if x1 < x0 ∨ y1 < y0 then raised (.malformedWindow x0 y0 x1 y1)
    else if Int.ofNat (frameW c.orient) ≤ x1 ∨ Int.ofNat (frameH c.orient) ≤ y1 then
      raised (.outOfBounds x0 y0 x1 y1)
    else .ok { c with cmd := some .ramwr, wpX := some xs, wpY := some ys, wpDone := false, hi := none }
  | _, _, _, _ => .raised c .windowUnset

/-- `start(cmd)` (41_controller_commands.md R150 to R162). -/
def startCommand (k : Command) (c : Controller) : CtlResult :=
  match k with
  | .swreset => startSwreset c
  | .slpout => startSlpout c
  | .colmod => startColmod c
  | .dispon => startDispon c
  | .dispoff => startDispoff c
  | .caset => startCaset c
  | .raset => startRaset c
  | .madctl => startMadctl c
  | .ramwr => startRamwr c

/-- `commandByte(b)` (41_controller_commands.md R144, R148, R149). -/
def commandByte (cfg : Config) (b : Byte) (c : Controller) : CtlResult :=
  match closeCommand c with
  | .raised c f => .raised c f
  | .ok c =>
    match commandOf cfg b with
    | none => .raised c (.unknownCommand b)
    | some k => if admits k c.phase then startCommand k c else .raised c (.orderViolation k c.phase)

/-! ### Parameters -/

/-- The latch of COLMOD (41_controller_commands.md R152). -/
def latchColmod (cfg : Config) (p : Byte) (c : Controller) : CtlResult :=
  if p = cfg.colmod16 then .ok { c with colmod := some p, phase := .colorModeSet }
  else .raised c (.paramError (.colmod p))

/-- The latch of MADCTL (41_controller_commands.md R158). -/
def latchMadctl (cfg : Config) (p : Byte) (c : Controller) : CtlResult :=
  match orientOf cfg p with
  | some o => .ok { c with orient := o }
  | none => .raised c (.paramError (.madctl p))

/-- The latch of CASET: `XS <- p0 ‖ p1`, `XE <- p2 ‖ p3` (41_controller_commands.md R157). -/
def latchCaset (p0 p1 p2 p3 : Byte) (c : Controller) : CtlResult :=
  .ok { c with xs := some (be16 p0 p1), xe := some (be16 p2 p3) }

/-- The latch of RASET: `YS <- p0 ‖ p1`, `YE <- p2 ‖ p3` (41_controller_commands.md R162). -/
def latchRaset (p0 p1 p2 p3 : Byte) (c : Controller) : CtlResult :=
  .ok { c with ys := some (be16 p0 p1), ye := some (be16 p2 p3) }

/-- `latch(cmd, pbuf)` for a command and as many bytes as it takes. -/
def latch (cfg : Config) (k : Command) (c : Controller) : CtlResult :=
  match k, c.pbuf with
  | .colmod, [p] => latchColmod cfg p c
  | .madctl, [p] => latchMadctl cfg p c
  | .caset, [p0, p1, p2, p3] => latchCaset p0 p1 p2 p3 c
  | .raset, [p0, p1, p2, p3] => latchRaset p0 p1 p2 p3 c
  | _, _ => .ok c

/-- `param(b)` (41_controller_commands.md R147). The byte joins `pbuf` before the latch may raise (log entry 12). -/
def paramByte (cfg : Config) (k : Command) (b : Byte) (c : Controller) : CtlResult :=
  if c.pbuf.length = paramCount k then .raised c (.paramError (.extra k b))
  else
    let c := { c with pbuf := c.pbuf ++ [b] }
    if c.pbuf.length = paramCount k then latch cfg k c else .ok c

/-! ### The pixel stream -/

/-- `MemWrite((x, y), 2, c)` (20_memory.md R63). The position is in bounds whenever a run gets here; a position outside
the frame, or a cell outside the array, has no meaning (R72) and faults (log entry 14). -/
def memWrite (cfg : Config) (x y : Nat) (col : Color) (c : Controller) : CtlResult :=
  let p := orientMap cfg c.orient x y
  if x < frameW c.orient ∧ y < frameH c.orient ∧ p.1 < Config.panelW ∧ p.2 < Config.panelH then
    .ok { c with gram := c.gram.write (Memory.key p.1 p.2) col }
  else .raised c (.outOfBounds x y x y)

/-- `advance()` (20_memory.md R62): the pointer moves row-major, and the area is exhausted after (XE, YE). -/
def advancePointer (c : Controller) : CtlResult :=
  match c.wpX, c.wpY, c.xs, c.xe, c.ye with
  | some x, some y, some xs, some xe, some ye =>
    if x.toNat < xe.toNat then .ok { c with wpX := some (x + 1) }
    else if y.toNat < ye.toNat then .ok { c with wpX := some xs, wpY := some (y + 1) }
    else .ok { c with wpX := some xs, wpDone := true }
  | _, _, _, _, _ => .raised c (.unsetRead .window)

/-- `pixelByte(b)` (41_controller_commands.md R160): a high byte waits, a low byte completes a pixel. `C.hi` is cleared
before the fault of an exhausted window (log entry 12). -/
def pixelByte (cfg : Config) (b : Byte) (c : Controller) : CtlResult :=
  match c.hi with
  | none => .ok { c with hi := some b }
  | some h =>
    let c := { c with hi := none }
    if c.wpDone then .raised c (.windowOverrun (.pixel (be16 h b)))
    else
      match c.wpX, c.wpY with
      | some x, some y =>
        match memWrite cfg x.toNat y.toNat (be16 h b) c with
        | .ok c => advancePointer c
        | .raised c f => .raised c f
      | _, _ => .raised c (.unsetRead .pointer)

/-! ### Receiving a unit -/

/-- `dataByte(b)` (41_controller_commands.md R145). The commands that take no data leave `C.cmd = none`, so the last
case is in no run; the rule gives it no effect. -/
def dataByte (cfg : Config) (b : Byte) (c : Controller) : CtlResult :=
  match c.cmd with
  | none => .raised c (.paramError (.stray b))
  | some .caset => paramByte cfg .caset b c
  | some .raset => paramByte cfg .raset b c
  | some .colmod => paramByte cfg .colmod b c
  | some .madctl => paramByte cfg .madctl b c
  | some .ramwr => pixelByte cfg b c
  | some .swreset | some .slpout | some .dispoff | some .dispon => .ok c

/-- `Controller.receive(dc, b)` (41_controller_commands.md R140): the reset line first, then the settle hold, then the
unit (60_exceptions.md R302). -/
def receive (cfg : Config) (rst : Level) (u : BusUnit) (c : Controller) : CtlResult :=
  match rst with
  | .active => .raised c (.resetActive u.dc u.byte)
  | .inactive =>
    match c.settle with
    | some k => .raised c (.settleViolation k u.dc u.byte)
    | none =>
      match u.dc with
      | .cmd => commandByte cfg u.byte c
      | .data => dataByte cfg u.byte c

end Sys2Proof.Machine
end

