-- ==== Sys2Proof/Machine/Flags.lean ====
section
/-! DEFINITION. The block's only status flag, `E.busy` (10_state.md R28), and what a transfer does around it: the
start, the received byte and the completion step (40_bus_transport.md R124, R125, R128). -/
namespace Sys2Proof.Machine

/-- The start of a transfer (40_bus_transport.md R124): the selector, the flag and the trace. -/
def State.startTransfer (s : State) (u : BusUnit) : State :=
  { s with dc := some u.dc, busy := true, trace := s.trace ++ [u] }

/-- `E.rx <- draw()` (40_bus_transport.md R125): a free value, a fresh one for each transfer. -/
def State.receiveByte (s : State) : State :=
  { s with rx := some (Config.rxDraw s.draws), draws := s.draws + 1 }

/-- The completion step of the Bus (40_bus_transport.md R128): the flag falls and the Engine goes on; or the step
never comes, and the Engine stays in the transfer with the flag set (60_exceptions.md R306). -/
def completeTransfer (s : State) : Run :=
  match s.stall with
  | none => .ok { s with busy := false }
  | some 0 => .stop s
  | some (n + 1) => .ok { s with busy := false, stall := some n }

/-- A hang (60_exceptions.md R306): the Engine is in a transfer that never completes. With no fault recorded, the flag
is set between steps only then (10_state.md R28). -/
def State.hung (s : State) : Bool := s.busy && s.fault.isNone

end Sys2Proof.Machine
end

