-- ==== Sys2Proof/Machine/Transport.lean ====
section
/-! DEFINITION. The bus transport: the micro-step XFER (40_bus_transport.md R124), and the meanings of BUS_OPEN and
BUS_CLOSE (R120, R122). -/
namespace Sys2Proof.Machine

/-- `XFER(dc, b)` (40_bus_transport.md R124). A fault of the Controller stops the transfer there: the unit is in T, and
neither the received byte nor the fall of the flag follows (log entry 11). -/
def xfer (u : BusUnit) (s : State) : Run :=
  if s.busOpen then
    let s := s.startTransfer u
    match receive s.cfg s.rst u s.ctl with
    | .ok c => completeTransfer (s.setCtl c).receiveByte
    | .raised c f => raiseStop (s.setCtl c) f
  else raiseStop s (.busClosed u.dc u.byte)

/-- A sequence of units, one XFER each (40_bus_transport.md R129). -/
def sendAll (units : List BusUnit) (s : State) : Run := runAll xfer units s

/-- The command unit of a command. -/
def cmdUnit (cfg : Config) (k : Command) : BusUnit := ⟨.cmd, opcOf cfg k⟩

/-- A data unit. -/
def dataUnit (b : Byte) : BusUnit := ⟨.data, b⟩

/-- A 16-bit value as its two data units, high byte first (20_memory.md R64). -/
def wordUnits (w : BitVec 16) : List BusUnit := [dataUnit (hi8 w), dataUnit (lo8 w)]

/-- BUS_OPEN (40_bus_transport.md R120). -/
def execBusOpen (s : State) : Host.Outcome State Fault Refusal := complete (.ok (s.setBusOpen true))

/-- BUS_CLOSE (40_bus_transport.md R122). -/
def execBusClose (s : State) : Host.Outcome State Fault Refusal := complete (.ok (s.setBusOpen false))

end Sys2Proof.Machine
end

