-- ==== Sys2Proof/Machine/BusUnits.lean ====
section
/-! DEFINITION. The meanings of the bus-unit rows of the opcode table: the XFER of that unit (40_bus_transport.md
R124), whose effect on the Controller is the command's rule in 41_controller_commands.md. They are no engine
operations, so the pc stays (10_state.md R24, 70_reset_and_hazards.md R345; log entry 9). -/
namespace Sys2Proof.Machine

/-- C:SWRESET (41_controller_commands.md R150). -/
def execCSwreset (s : State) : Host.Outcome State Fault Refusal := unitDone (xfer (cmdUnit s.cfg .swreset) s)

/-- C:SLPOUT (41_controller_commands.md R151). -/
def execCSlpout (s : State) : Host.Outcome State Fault Refusal := unitDone (xfer (cmdUnit s.cfg .slpout) s)

/-- C:DISPOFF (41_controller_commands.md R154). -/
def execCDispoff (s : State) : Host.Outcome State Fault Refusal := unitDone (xfer (cmdUnit s.cfg .dispoff) s)

/-- C:DISPON (41_controller_commands.md R153). -/
def execCDispon (s : State) : Host.Outcome State Fault Refusal := unitDone (xfer (cmdUnit s.cfg .dispon) s)

/-- C:CASET (41_controller_commands.md R157). -/
def execCCaset (s : State) : Host.Outcome State Fault Refusal := unitDone (xfer (cmdUnit s.cfg .caset) s)

/-- C:RASET (41_controller_commands.md R162). -/
def execCRaset (s : State) : Host.Outcome State Fault Refusal := unitDone (xfer (cmdUnit s.cfg .raset) s)

/-- C:RAMWR (41_controller_commands.md R159). -/
def execCRamwr (s : State) : Host.Outcome State Fault Refusal := unitDone (xfer (cmdUnit s.cfg .ramwr) s)

/-- C:MADCTL (41_controller_commands.md R158). -/
def execCMadctl (s : State) : Host.Outcome State Fault Refusal := unitDone (xfer (cmdUnit s.cfg .madctl) s)

/-- C:COLMOD (41_controller_commands.md R152). -/
def execCColmod (s : State) : Host.Outcome State Fault Refusal := unitDone (xfer (cmdUnit s.cfg .colmod) s)

/-- DATA (41_controller_commands.md R145). -/
def execData (b : Byte) (s : State) : Host.Outcome State Fault Refusal := unitDone (xfer (dataUnit b) s)

end Sys2Proof.Machine
end

