-- ==== Sys2Proof/Machine/Operands.lean ====
section
/-! DEFINITION. The operand forms: bytes and 16-bit fields as integers (30_encoding.md R103, 43_geometry_basic.md
R220), integers as the words a unit carries, the degrees of SET_ORIENT, the mask of CIRCLE_QUAD, and the fields of a
colour. -/
namespace Sys2Proof.Machine

/-- A byte operand, zero-extended to ℤ (30_encoding.md R103). -/
def int8 (b : Byte) : Int := Int.ofNat b.toNat

/-- A 16-bit operand, zero-extended to ℤ (30_encoding.md R103). -/
def int16 (w : Word) : Int := Int.ofNat w.toNat

/-- The 16-bit word that carries an integer on the bus (20_memory.md R64). -/
def word (n : Int) : Word := BitVec.ofInt 16 n

/-- `idx(deg)` (42_controller_protocol.md R195): any value but 90, 180 and 270 gives orientation 0. -/
def orientOfDegrees (deg : Word) : Orient :=
  if deg.toNat = 90 then .o90
  else if deg.toNat = 180 then .o180
  else if deg.toNat = 270 then .o270
  else .o0

/-- Bit q of a quadrant mask; only m[3:0] count (30_encoding.md R103). -/
def maskBit (m : Byte) (q : Nat) : Bool := decide (q < 4) && m.getLsbD q

/-- The quadrant table Q (44_geometry_curves.md R250): the signs of mask bit q. -/
def quadrant : Nat → Int × Int
  | 0 => (1, 1)
  | 1 => (1, -1)
  | 2 => (-1, 1)
  | _ => (-1, -1)

/-- A semi-axis: `w div 2` (44_geometry_curves.md R257, R259). -/
def semiAxis (w : Byte) : Nat := w.toNat / 2

/-- The red field of a colour. PRESUMED by the spec (G4): no rule reads it (00_scope.md R7; log entry 18). -/
def red (c : Color) : BitVec 5 := c.extractLsb' 11 5

/-- The green field of a colour. PRESUMED by the spec (G4; log entry 18). -/
def green (c : Color) : BitVec 6 := c.extractLsb' 5 6

/-- The blue field of a colour. PRESUMED by the spec (G4; log entry 18). -/
def blue (c : Color) : BitVec 5 := c.extractLsb' 0 5

end Sys2Proof.Machine
end

