-- ==== Sys2Proof/Machine/Protocol.lean ====
section
/-! DEFINITION. The controller protocol: RESET, INIT, SET_ORIENT, SET_WINDOW and WRITE_PIXELS
(42_controller_protocol.md), each as a sub-operation (`op…`, with no pc step, 00_scope.md R11) and as the meaning of
its instruction. -/
namespace Sys2Proof.Machine

/-- The drawing gate (42_controller_protocol.md R207), with the opcode its fault records (60_exceptions.md R301). -/
def gate (k : Op) (s : State) : Run :=
  if s.ctl.phase = .on then .ok s else raiseStop s (.notOn k.code)

/-! ### Reset and initialisation -/

/-- RESET as a sub-operation (42_controller_protocol.md R190). It sends no unit and cannot fault. -/
def opReset (s : State) : State :=
  wait .rst (driveRst .inactive (wait .active (driveRst .active (wait .pre (driveRst .inactive s)))))

/-- INIT as a sub-operation (42_controller_protocol.md R191). -/
def opInit (s : State) : Run :=
  let s := opReset s
  (xfer (cmdUnit s.cfg .slpout) s).andThen fun s =>
    let s := wait .slpout s
    sendAll [cmdUnit s.cfg .colmod, dataUnit s.cfg.colmod16, cmdUnit s.cfg .dispon] s

/-- RESET (42_controller_protocol.md R190). -/
def execReset (s : State) : Host.Outcome State Fault Refusal := complete (.ok (opReset s))

/-- INIT (42_controller_protocol.md R191). -/
def execInit (s : State) : Host.Outcome State Fault Refusal := complete (opInit s)

/-! ### Orientation -/

/-- SET_ORIENT as a sub-operation (42_controller_protocol.md R194). -/
def opSetOrient (deg : Word) (s : State) : Run :=
  (gate .setOrient s).andThen fun s =>
    sendAll [cmdUnit s.cfg .madctl, dataUnit (orientCodeOf s.cfg (orientOfDegrees deg))] s

/-- SET_ORIENT deg (42_controller_protocol.md R194). -/
def execSetOrient (deg : Word) (s : State) : Host.Outcome State Fault Refusal := complete (opSetOrient deg s)

/-! ### The addressing window -/

/-- The ten units of SET_WINDOW (42_controller_protocol.md R200). -/
def windowUnits (cfg : Config) (x0 y0 x1 y1 : Int) : List BusUnit :=
  cmdUnit cfg .caset :: wordUnits (word x0) ++ wordUnits (word x1)
    ++ cmdUnit cfg .raset :: wordUnits (word y0) ++ wordUnits (word y1)

/-- SET_WINDOW as a sub-operation, over integers (42_controller_protocol.md R200): both checks come before any unit
is sent (R201). -/
def opSetWindow (x0 y0 x1 y1 : Int) (s : State) : Run :=
  (gate .setWindow s).andThen fun s =>
    if x1 < x0 ∨ y1 < y0 then raiseStop s (.malformedWindow x0 y0 x1 y1)
    else if x0 < 0 ∨ y0 < 0 ∨ Int.ofNat (frameW s.ctl.orient) ≤ x1 ∨ Int.ofNat (frameH s.ctl.orient) ≤ y1 then
      raiseStop s (.outOfBounds x0 y0 x1 y1)
    else sendAll (windowUnits s.cfg x0 y0 x1 y1) s

/-- SET_WINDOW x0, y0, x1, y1 (42_controller_protocol.md R200). -/
def execSetWindow (x0 y0 x1 y1 : Byte) (s : State) : Host.Outcome State Fault Refusal :=
  complete (opSetWindow (int8 x0) (int8 y0) (int8 x1) (int8 y1) s)

/-! ### The pixel stream -/

/-- The area of a window, `(XE − XS + 1) · (YE − YS + 1)` (20_memory.md R61). -/
def windowArea (xs xe ys ye : Word) : Int := (int16 xe - int16 xs + 1) * (int16 ye - int16 ys + 1)

/-- WRITE_PIXELS as a sub-operation, over an integer count (42_controller_protocol.md R204). -/
def opWritePixels (c : Color) (n : Int) (s : State) : Run :=
  (gate .writePixels s).andThen fun s =>
    match s.ctl.xs, s.ctl.xe, s.ctl.ys, s.ctl.ye with
    | some xs, some xe, some ys, some ye =>
      if windowArea xs xe ys ye < n then raiseStop s (.windowOverrun (.count n))
      else
        (xfer (cmdUnit s.cfg .ramwr) s).andThen
          (repeatRun (fun s => (xfer (dataUnit (hi8 c)) s).andThen (xfer (dataUnit (lo8 c)))) n.toNat)
    | _, _, _, _ => raiseStop s .windowUnset

/-- WRITE_PIXELS c, n (42_controller_protocol.md R204). -/
def execWritePixels (c : Color) (n : Word) (s : State) : Host.Outcome State Fault Refusal :=
  complete (opWritePixels c (int16 n) s)

/-- The window write `WW(x0, y0, x1, y1, c, n)` (42_controller_protocol.md R205). -/
def windowWrite (x0 y0 x1 y1 : Int) (c : Color) (n : Int) (s : State) : Run :=
  (opSetWindow x0 y0 x1 y1 s).andThen (opWritePixels c n)

end Sys2Proof.Machine
end

