-- ==== Sys2Proof/Machine/Geometry.lean ====
section
/-! DEFINITION. The basic geometry: PIXEL, HLINE, VLINE, LINE, RECT, FILL_RECT and CLEAR (43_geometry_basic.md). Each
is a sub-operation over integers (`op…`, 00_scope.md R11), and the meaning of its instruction. -/
namespace Sys2Proof.Machine

/-- PIXEL as a sub-operation (43_geometry_basic.md R222); "plot" of R221. -/
def opPixel (x y : Int) (c : Color) (s : State) : Run :=
  (gate .pixel s).andThen (windowWrite x y x y c 1)

/-- PIXEL x, y, c (43_geometry_basic.md R222). -/
def execPixel (x y : Byte) (c : Color) (s : State) : Host.Outcome State Fault Refusal :=
  complete (opPixel (int8 x) (int8 y) c s)

/-- Plot each point of a list, in order (43_geometry_basic.md R221). -/
def plotAll (c : Color) (points : List (Int × Int)) (s : State) : Run :=
  runAll (fun p => opPixel p.1 p.2 c) points s

/-- HLINE as a sub-operation (43_geometry_basic.md R223). -/
def opHline (x y len : Int) (c : Color) (s : State) : Run :=
  (gate .hline s).andThen (windowWrite x y (x + len - 1) y c len)

/-- HLINE x, y, len, c (43_geometry_basic.md R223). -/
def execHline (x y len : Byte) (c : Color) (s : State) : Host.Outcome State Fault Refusal :=
  complete (opHline (int8 x) (int8 y) (int8 len) c s)

/-- VLINE as a sub-operation (43_geometry_basic.md R224). -/
def opVline (x y len : Int) (c : Color) (s : State) : Run :=
  (gate .vline s).andThen (windowWrite x y x (y + len - 1) c len)

/-- VLINE x, y, len, c (43_geometry_basic.md R224). -/
def execVline (x y len : Byte) (c : Color) (s : State) : Host.Outcome State Fault Refusal :=
  complete (opVline (int8 x) (int8 y) (int8 len) c s)

/-! ### Lines -/

/-- The loop of `linePoints` (43_geometry_basic.md R225), from the point (x, y) with the error term err. The first
argument bounds the iterations (log entry 16). -/
def lineLoop (dx dy sx sy x1 y1 : Int) : Nat → Int → Int → Int → List (Int × Int)
  | 0, _, _, _ => []
  | n + 1, err, x, y =>
    (x, y) ::
      if x = x1 ∧ y = y1 then []
      else
        let stepX : Bool := decide (-dx < err)
        let stepY : Bool := decide (err < dy)
        lineLoop dx dy sx sy x1 y1 n
          ((if stepX then err - dy else err) + (if stepY then dx else 0))
          (if stepX then x + sx else x)
          (if stepY then y + sy else y)

/-- `linePoints(x0, y0, x1, y1)` (43_geometry_basic.md R225). `cdiv` truncates toward zero (00_scope.md R10). The line
has max(dx, dy) + 1 points (R230), which bounds the loop. -/
def linePoints (x0 y0 x1 y1 : Int) : List (Int × Int) :=
  let dx : Int := (x1 - x0).natAbs
  let dy : Int := (y1 - y0).natAbs
  let sx : Int := if x0 < x1 then 1 else -1
  let sy : Int := if y0 < y1 then 1 else -1
  let err : Int := Int.tdiv (if dy < dx then dx else -dy) 2
  lineLoop dx dy sx sy x1 y1 (max (x1 - x0).natAbs (y1 - y0).natAbs + 1) err x0 y0

/-- LINE as a sub-operation (43_geometry_basic.md R226). -/
def opLine (x0 y0 x1 y1 : Int) (c : Color) (s : State) : Run :=
  (gate .line s).andThen (plotAll c (linePoints x0 y0 x1 y1))

/-- LINE x0, y0, x1, y1, c (43_geometry_basic.md R226). -/
def execLine (x0 y0 x1 y1 : Byte) (c : Color) (s : State) : Host.Outcome State Fault Refusal :=
  complete (opLine (int8 x0) (int8 y0) (int8 x1) (int8 y1) c s)

/-! ### Rectangles -/

/-- RECT as a sub-operation: the edges top, bottom, left, right (43_geometry_basic.md R227). -/
def opRect (x0 y0 x1 y1 : Int) (c : Color) (s : State) : Run :=
  (gate .rect s).andThen fun s =>
    (opLine x0 y0 x1 y0 c s).andThen fun s =>
      (opLine x0 y1 x1 y1 c s).andThen fun s =>
        (opLine x0 y0 x0 y1 c s).andThen (opLine x1 y0 x1 y1 c)

/-- RECT x0, y0, x1, y1, c (43_geometry_basic.md R227). -/
def execRect (x0 y0 x1 y1 : Byte) (c : Color) (s : State) : Host.Outcome State Fault Refusal :=
  complete (opRect (int8 x0) (int8 y0) (int8 x1) (int8 y1) c s)

/-- FILL_RECT as a sub-operation (43_geometry_basic.md R228). The count is used only after SET_WINDOW has passed its
checks, so it is never negative there. -/
def opFillRect (x0 y0 x1 y1 : Int) (c : Color) (s : State) : Run :=
  (gate .fillRect s).andThen (windowWrite x0 y0 x1 y1 c ((x1 - x0 + 1) * (y1 - y0 + 1)))

/-- FILL_RECT x0, y0, x1, y1, c (43_geometry_basic.md R228). -/
def execFillRect (x0 y0 x1 y1 : Byte) (c : Color) (s : State) : Host.Outcome State Fault Refusal :=
  complete (opFillRect (int8 x0) (int8 y0) (int8 x1) (int8 y1) c s)

/-- CLEAR as a sub-operation (43_geometry_basic.md R229): the whole logical frame in BLACK. -/
def opClear (s : State) : Run :=
  (gate .clear s).andThen fun s =>
    opFillRect 0 0 (Int.ofNat (frameW s.ctl.orient) - 1) (Int.ofNat (frameH s.ctl.orient) - 1) Config.black s

/-- CLEAR (43_geometry_basic.md R229). -/
def execClear (s : State) : Host.Outcome State Fault Refusal := complete (opClear s)

end Sys2Proof.Machine
end

