-- ==== Sys2Proof/Machine/Isqrt.lean ====
section
/-! DEFINITION. The integer square root: the function `isqrt` (45_isqrt.md R290) and the meaning of ISQRT (R291). -/
namespace Sys2Proof.Machine

/-- The loop of `isqrt` (45_isqrt.md R290): the candidate bit is tried, and cleared again when the square is too large;
then the mask is halved, until it is zero. An 8-bit mask is zero after at most 8 halvings (log entry 16). -/
def isqrtLoop (v : Nat) : Nat → Byte → Byte → Byte
  | 0, r, _ => r
  | n + 1, r, bit =>
    if bit = 0 then r
    else
      let r := r ||| bit
      let r := if v < r.toNat * r.toNat then r &&& ~~~bit else r
      isqrtLoop v n r (bit >>> 1)

/-- `isqrt(v)` (45_isqrt.md R290). -/
def isqrt (v : Nat) : Byte := isqrtLoop v 8 0 Config.isqrtTop

/-- ISQRT v (45_isqrt.md R291). -/
def execIsqrt (v : Word) (s : State) : Host.Outcome State Fault Refusal := complete (.ok (s.setSqrt (isqrt v.toNat)))

end Sys2Proof.Machine
end

