-- ==== Sys2Proof/Machine/Curves.lean ====
section
/-! DEFINITION. The curves: CIRCLE_QUAD, CIRCLE, ROUND_RECT, FILLED_CIRCLE, ELLIPSE and FILLED_ELLIPSE
(44_geometry_curves.md). The points and spans a curve draws are lists of integers, in drawing order; drawing them is
"plot", HLINE and VLINE as sub-operations. -/
namespace Sys2Proof.Machine

/-- Draw each horizontal span (x, y, len) of a list, in order (43_geometry_basic.md R223). -/
def hlineAll (c : Color) (spans : List (Int × Int × Int)) (s : State) : Run :=
  runAll (fun p => opHline p.1 p.2.1 p.2.2 c) spans s

/-- Draw each vertical span (x, y, len) of a list, in order (43_geometry_basic.md R224). -/
def vlineAll (c : Color) (spans : List (Int × Int × Int)) (s : State) : Run :=
  runAll (fun p => opVline p.1 p.2.1 p.2.2 c) spans s

/-! ### Circles -/

/-- The loop bound `xm(r)` (44_geometry_curves.md R251). -/
def circleBound (r : Nat) : Nat := min r (707 * r / 1000 + 1)

/-- The height of the circle of radius r at x: `isqrt(r·r − x·x)` (44_geometry_curves.md R252, R255). -/
def circleHeight (r x : Nat) : Nat := (isqrt (r * r - x * x)).toNat

/-- The two points of one quadrant at one step (44_geometry_curves.md R252): (x, y) and its diagonal mirror. -/
def quadrantPoints (cx cy : Int) (x y : Int) (q : Nat) : List (Int × Int) :=
  let (sx, sy) := quadrant q
  [(cx + sx * x, cy + sy * y), (cx + sx * y, cy + sy * x)]

/-- The points of CIRCLE_QUAD, in order (44_geometry_curves.md R252): per x, per set mask bit. -/
def circleQuadPoints (cx cy : Int) (r : Nat) (m : Byte) : List (Int × Int) :=
  (List.range (circleBound r + 1)).flatMap fun (x : Nat) =>
    ((List.range 4).filter (maskBit m)).flatMap fun q => quadrantPoints cx cy x (circleHeight r x) q

/-- CIRCLE_QUAD as a sub-operation (44_geometry_curves.md R252). -/
def opCircleQuad (cx cy : Int) (r : Nat) (m : Byte) (c : Color) (s : State) : Run :=
  (gate .circleQuad s).andThen (plotAll c (circleQuadPoints cx cy r m))

/-- CIRCLE_QUAD cx, cy, r, m, c (44_geometry_curves.md R252). -/
def execCircleQuad (cx cy r m : Byte) (c : Color) (s : State) : Host.Outcome State Fault Refusal :=
  complete (opCircleQuad (int8 cx) (int8 cy) r.toNat m c s)

/-- CIRCLE as a sub-operation: all four mask bits (44_geometry_curves.md R253). -/
def opCircle (cx cy : Int) (r : Nat) (c : Color) (s : State) : Run :=
  (gate .circle s).andThen (opCircleQuad cx cy r 0x0F c)

/-- CIRCLE cx, cy, r, c (44_geometry_curves.md R253). -/
def execCircle (cx cy r : Byte) (c : Color) (s : State) : Host.Outcome State Fault Refusal :=
  complete (opCircle (int8 cx) (int8 cy) r.toNat c s)

/-- ROUND_RECT as a sub-operation (44_geometry_curves.md R254): the four edges, then the four corners. -/
def opRoundRect (x0 y0 x1 y1 : Int) (r : Nat) (c : Color) (s : State) : Run :=
  let w := x1 - x0 + 1
  let h := y1 - y0 + 1
  (gate .roundRect s).andThen fun s =>
    (opHline (x0 + r) y0 (w - 2 * r) c s).andThen fun s =>
      (opHline (x0 + r) y1 (w - 2 * r) c s).andThen fun s =>
        (opVline x0 (y0 + r) (h - 2 * r) c s).andThen fun s =>
          (opVline x1 (y0 + r) (h - 2 * r) c s).andThen fun s =>
            (opCircleQuad (x0 + r) (y0 + r) r 0x08 c s).andThen fun s =>
              (opCircleQuad (x1 - r) (y0 + r) r 0x02 c s).andThen fun s =>
                (opCircleQuad (x0 + r) (y1 - r) r 0x04 c s).andThen
                  (opCircleQuad (x1 - r) (y1 - r) r 0x01 c)

/-- ROUND_RECT x0, y0, x1, y1, r, c (44_geometry_curves.md R254). -/
def execRoundRect (x0 y0 x1 y1 r : Byte) (c : Color) (s : State) : Host.Outcome State Fault Refusal :=
  complete (opRoundRect (int8 x0) (int8 y0) (int8 x1) (int8 y1) r.toNat c s)

/-- The vertical spans of FILLED_CIRCLE, in order (44_geometry_curves.md R255). -/
def filledCircleSpans (cx cy : Int) (r : Nat) : List (Int × Int × Int) :=
  (List.range (r + 1)).flatMap fun (x : Nat) =>
    let y : Int := circleHeight r x
    [(cx + x, cy - y, 2 * y + 1), (cx - x, cy - y, 2 * y + 1)]

/-- FILLED_CIRCLE as a sub-operation (44_geometry_curves.md R255). -/
def opFilledCircle (cx cy : Int) (r : Nat) (c : Color) (s : State) : Run :=
  (gate .filledCircle s).andThen (vlineAll c (filledCircleSpans cx cy r))

/-- FILLED_CIRCLE cx, cy, r, c (44_geometry_curves.md R255). -/
def execFilledCircle (cx cy r : Byte) (c : Color) (s : State) : Host.Outcome State Fault Refusal :=
  complete (opFilledCircle (int8 cx) (int8 cy) r.toNat c s)

/-! ### Ellipses -/

/-- Region 1 of `ellipsePoints` (44_geometry_curves.md R256): X steps on every iteration, Y conditionally. The first
argument bounds the iterations (log entry 16). -/
def ellipseRegion1 (ta tb : Int) : Nat → (x y xc yc e sx sy : Int) → List (Int × Int)
  | 0, _, _, _, _, _, _, _ => []
  | n + 1, x, y, xc, yc, e, sx, sy =>
    if sx ≤ sy then
      let e' := e + xc
      let xc' := xc + tb
      (x, y) ::
        if 0 < 2 * e' + yc then
          ellipseRegion1 ta tb n (x + 1) (y - 1) xc' (yc + ta) (e' + yc) (sx + tb) (sy - ta)
        else ellipseRegion1 ta tb n (x + 1) y xc' yc e' (sx + tb) sy
    else []

/-- Region 2 of `ellipsePoints` (44_geometry_curves.md R256): Y steps on every iteration, X conditionally. -/
def ellipseRegion2 (ta tb : Int) : Nat → (x y xc yc e sx sy : Int) → List (Int × Int)
  | 0, _, _, _, _, _, _, _ => []
  | n + 1, x, y, xc, yc, e, sx, sy =>
    if sy ≤ sx then
      let e' := e + yc
      let yc' := yc + ta
      (x, y) ::
        if 0 < 2 * e' + xc then
          ellipseRegion2 ta tb n (x - 1) (y + 1) (xc + tb) yc' (e' + xc) (sx - tb) (sy + ta)
        else ellipseRegion2 ta tb n x (y + 1) xc yc' e' sx (sy + ta)
    else []

/-- `ellipsePoints(a, b)` (44_geometry_curves.md R256), for semi-axes not both 0. Region 1 runs at most a² + 1 times
and region 2 at most b² + 1 times (60_exceptions.md R307), which bounds the loops. -/
def ellipsePoints (a b : Nat) : List (Int × Int) :=
  let ai : Int := a
  let bi : Int := b
  let ta := 2 * ai * ai
  let tb := 2 * bi * bi
  ellipseRegion1 ta tb (a * a + 2) 0 bi (bi * bi) (ai * ai * (1 - 2 * bi)) 0 0 (ta * bi)
    ++ ellipseRegion2 ta tb (b * b + 2) ai 0 (bi * bi * (1 - 2 * ai)) (ai * ai) 0 (tb * ai) 0

/-- The four mirrored points of one boundary point, in order (44_geometry_curves.md R257). -/
def mirrorPoints (cx cy : Int) (p : Int × Int) : List (Int × Int) :=
  [(cx + p.1, cy + p.2), (cx - p.1, cy + p.2), (cx - p.1, cy - p.2), (cx + p.1, cy - p.2)]

/-- ELLIPSE as a sub-operation (44_geometry_curves.md R257). -/
def opEllipse (cx cy : Int) (w h : Byte) (c : Color) (s : State) : Run :=
  (gate .ellipse s).andThen fun s =>
    if semiAxis w = 0 ∧ semiAxis h = 0 then raiseStop s (.degenerateEllipse w h)
    else plotAll c ((ellipsePoints (semiAxis w) (semiAxis h)).flatMap (mirrorPoints cx cy)) s

/-- ELLIPSE cx, cy, w, h, c (44_geometry_curves.md R257). -/
def execEllipse (cx cy w h : Byte) (c : Color) (s : State) : Host.Outcome State Fault Refusal :=
  complete (opEllipse (int8 cx) (int8 cy) w h c s)

/-- `span(a, b, y, x_prev)` (44_geometry_curves.md R258): the search goes down from x_prev, and stops at 0 at the
latest, where the test holds for every y ≤ b. -/
def ellipseSpan (a b y : Nat) : Nat → Nat
  | 0 => 0
  | x + 1 =>
    if a * a * (b * b) < b * b * ((x + 1) * (x + 1)) + a * a * (y * y) then ellipseSpan a b y x else x + 1

/-- The spans of the rows y, y + 1, … of FILLED_ELLIPSE, n rows, with the bound x of the row before
(44_geometry_curves.md R259). -/
def filledEllipseRows (cx cy : Int) (a b : Nat) : Nat → (y x : Nat) → List (Int × Int × Int)
  | 0, _, _ => []
  | n + 1, y, x =>
    let x := ellipseSpan a b y x
    (cx - x, cy - y, 2 * x + 1) :: (cx - x, cy + y, 2 * x + 1) :: filledEllipseRows cx cy a b n (y + 1) x

/-- The horizontal spans of FILLED_ELLIPSE, in order (44_geometry_curves.md R259): the centreline, then the rows
1 to b. -/
def filledEllipseSpans (cx cy : Int) (a b : Nat) : List (Int × Int × Int) :=
  (cx - a, cy, 2 * a + 1) :: filledEllipseRows cx cy a b b 1 a

/-- FILLED_ELLIPSE as a sub-operation (44_geometry_curves.md R259). -/
def opFilledEllipse (cx cy : Int) (w h : Byte) (c : Color) (s : State) : Run :=
  (gate .filledEllipse s).andThen (hlineAll c (filledEllipseSpans cx cy (semiAxis w) (semiAxis h)))

/-- FILLED_ELLIPSE cx, cy, w, h, c (44_geometry_curves.md R259). -/
def execFilledEllipse (cx cy w h : Byte) (c : Color) (s : State) : Host.Outcome State Fault Refusal :=
  complete (opFilledEllipse (int8 cx) (int8 cy) w h c s)

end Sys2Proof.Machine
end

