-- ==== Sys2Proof/Machine/Dispatch.lean ====
section
/-! DEFINITION. One arm per instruction. -/
namespace Sys2Proof.Machine

-- Each arm is one call of the meaning of its instruction.
def exec (i : Instr) (s : State) : Host.Outcome State Fault Refusal :=
  match i with
  | .busOpen => Sys2Proof.Machine.execBusOpen s
  | .busClose => Sys2Proof.Machine.execBusClose s
  | .reset => Sys2Proof.Machine.execReset s
  | .init => Sys2Proof.Machine.execInit s
  | .setOrient deg => Sys2Proof.Machine.execSetOrient deg s
  | .setWindow x0 y0 x1 y1 => Sys2Proof.Machine.execSetWindow x0 y0 x1 y1 s
  | .writePixels c n => Sys2Proof.Machine.execWritePixels c n s
  | .isqrt v => Sys2Proof.Machine.execIsqrt v s
  | .pixel x y c => Sys2Proof.Machine.execPixel x y c s
  | .hline x y len c => Sys2Proof.Machine.execHline x y len c s
  | .vline x y len c => Sys2Proof.Machine.execVline x y len c s
  | .line x0 y0 x1 y1 c => Sys2Proof.Machine.execLine x0 y0 x1 y1 c s
  | .rect x0 y0 x1 y1 c => Sys2Proof.Machine.execRect x0 y0 x1 y1 c s
  | .fillRect x0 y0 x1 y1 c => Sys2Proof.Machine.execFillRect x0 y0 x1 y1 c s
  | .clear => Sys2Proof.Machine.execClear s
  | .circleQuad cx cy r m c => Sys2Proof.Machine.execCircleQuad cx cy r m c s
  | .circle cx cy r c => Sys2Proof.Machine.execCircle cx cy r c s
  | .roundRect x0 y0 x1 y1 r c => Sys2Proof.Machine.execRoundRect x0 y0 x1 y1 r c s
  | .filledCircle cx cy r c => Sys2Proof.Machine.execFilledCircle cx cy r c s
  | .ellipse cx cy w h c => Sys2Proof.Machine.execEllipse cx cy w h c s
  | .filledEllipse cx cy w h c => Sys2Proof.Machine.execFilledEllipse cx cy w h c s
  -- the bus units
  | .cSwreset => Sys2Proof.Machine.execCSwreset s
  | .cSlpout => Sys2Proof.Machine.execCSlpout s
  | .cDispoff => Sys2Proof.Machine.execCDispoff s
  | .cDispon => Sys2Proof.Machine.execCDispon s
  | .cCaset => Sys2Proof.Machine.execCCaset s
  | .cRaset => Sys2Proof.Machine.execCRaset s
  | .cRamwr => Sys2Proof.Machine.execCRamwr s
  | .cMadctl => Sys2Proof.Machine.execCMadctl s
  | .cColmod => Sys2Proof.Machine.execCColmod s
  | .data b => Sys2Proof.Machine.execData b s

end Sys2Proof.Machine
end

