-- ==== Sys2Proof/Machine/Fetch.lean ====
section
/-! DEFINITION. What the next step is about: the Host's next action and the packet it submits (10_state.md R20, R21),
or, apart from the Host, the bench's next bus unit (log entries 8 to 10). -/
namespace Sys2Proof.Machine

/-- What the next step does: nothing more than a state change that is already made, or an instruction at a state. -/
inductive Fetched where
  | done (s : State)
  | run (i : Instr) (s : State)
  deriving DecidableEq, Repr

/-- The Engine takes the operation at `E.pc` (10_state.md R20, R24), when no fault is recorded (R39) and the Host has
submitted one. An illegal encoding raises `IllegalOp` before any part of the operation runs (30_encoding.md R104,
60_exceptions.md R302). -/
def fetchPacket (s : State) : Fetched :=
  match s.fault with
  | some _ => .done s
  | none =>
    match s.ops[s.pc]? with
    | none => .done s
    | some bytes =>
      match decodePacket bytes with
      | .ok (i, _) => .run i s
      | .error _ => .done (s.raise (.illegalOp bytes))

/-- A bus unit driven onto the bus by the bench (log entry 9), when no fault is recorded. A command byte that is none of
the nine is sent too: the Controller faults on it (41_controller_commands.md R148). -/
def fetchUnit (u : BusUnit) (s : State) : Fetched :=
  match s.fault with
  | some _ => .done s
  | none =>
    match decodeUnit s.cfg u with
    | .ok i => .run i s
    | .error _ => .done (xfer u s).state

/-- The Host reads `E.sqrt`: a fault while it is unset (10_state.md R30). -/
def hostReadSqrt (s : State) : State :=
  match s.sqrt with
  | some v => s.logRead (.sqrt v)
  | none => s.raise (.unsetRead .sqrt)

/-- The Host reads `E.fault` (10_state.md R21). -/
def hostReadFault (s : State) : State := s.logRead (.fault s.fault)

/-- What the Host does next (10_state.md R21). A Host with no action pending goes on submitting its stream. -/
def fetchHost (s : State) : Fetched :=
  match s.host with
  | [] => fetchPacket s
  | .submit :: rest => fetchPacket (s.setHost rest)
  | .readSqrt :: rest => .done (hostReadSqrt (s.setHost rest))
  | .readFault :: rest => .done (hostReadFault (s.setHost rest))

/-- The next step. A hung Engine blocks everything for ever (40_bus_transport.md R128, 60_exceptions.md R306; log
entry 24). A bench with units left drives the next one; without one, which is the block of the spec, the Host acts. -/
def fetch (s : State) : Fetched :=
  if s.hung then .done s
  else
    match s.bench with
    | u :: rest => fetchUnit u (s.setBench rest)
    | [] => fetchHost s

/-- A list with the packet p at index k, padded with empty packets up to it. -/
def placeAt (p : List Byte) : Nat → List (List Byte) → List (List Byte)
  | 0, [] => [p]
  | 0, _ :: l => p :: l
  | k + 1, [] => [] :: placeAt p k []
  | k + 1, q :: l => q :: placeAt p k l

/-- An encoding placed where the next step takes it: a packet at index `E.pc` of the Host's stream, with its submission
before any other action the Host has pending and with no bench in its way, or a bus unit as the bench's next one. -/
def State.place (s : State) (e : Encoded) : State :=
  match e with
  | .packet bytes =>
    { s with
      ops := placeAt bytes s.pc s.ops
      host := match s.host with
        | [] => []
        | next :: rest => .submit :: next :: rest
      bench := [] }
  | .unit u => { s with bench := u :: s.bench }

end Sys2Proof.Machine
end

