-- ==== Sys2Proof/Machine/Step.lean ====
section
/-! DEFINITION. One step: one Host action, with the whole operation it submits (10_state.md R20: each operation runs
to completion before the next is accepted). -/
namespace Sys2Proof.Machine

/-- One step of the block. -/
def step (s : State) : Host.Outcome State Fault Refusal :=
  match fetch s with
  | .done s => .next s
  | .run i s => exec i s

/-- The instruction of a word of spec/opcode_table.json placed where `step` fetches its next instruction: the load of
a program from outside the machine (log entry 8). -/
def State.withFetchWord (s : State) (nbits w : Nat) : State := s.place (tableEncoded nbits w)

end Sys2Proof.Machine
end

