-- ==== Sys2Proof/Machine/Assembler.lean ====
section
/-! DEFINITION. The assembler's view of an operation (30_encoding.md R106) and the way the spec writes bus units
(R107). No step reads this file. -/
namespace Sys2Proof.Machine

/-- The mnemonics of 30_encoding.md R102. -/
def mnemonicOf : Op → String
  | .busOpen => "BUS_OPEN"
  | .busClose => "BUS_CLOSE"
  | .reset => "RESET"
  | .init => "INIT"
  | .setOrient => "SET_ORIENT"
  | .setWindow => "SET_WINDOW"
  | .writePixels => "WRITE_PIXELS"
  | .isqrt => "ISQRT"
  | .pixel => "PIXEL"
  | .hline => "HLINE"
  | .vline => "VLINE"
  | .line => "LINE"
  | .rect => "RECT"
  | .fillRect => "FILL_RECT"
  | .clear => "CLEAR"
  | .circleQuad => "CIRCLE_QUAD"
  | .circle => "CIRCLE"
  | .roundRect => "ROUND_RECT"
  | .filledCircle => "FILLED_CIRCLE"
  | .ellipse => "ELLIPSE"
  | .filledEllipse => "FILLED_ELLIPSE"

/-- The widths in bytes of an operation's operands, in the order of its format (30_encoding.md R101). -/
def operandWidths : Op → List Nat
  | .busOpen | .busClose | .reset | .init | .clear => []
  | .setOrient | .isqrt => [2]
  | .setWindow => [1, 1, 1, 1]
  | .writePixels => [2, 2]
  | .pixel => [1, 1, 2]
  | .hline | .vline | .circle | .filledCircle => [1, 1, 1, 2]
  | .line | .rect | .fillRect | .circleQuad | .ellipse | .filledEllipse => [1, 1, 1, 1, 2]
  | .roundRect => [1, 1, 1, 1, 1, 2]

/-- The bytes of the operands, when there are as many as the format has and each fits its field (R106: a 16-bit field
is one operand; R101: high byte first). -/
def operandBytes : List Nat → List Nat → Option (List Byte)
  | [], [] => some []
  | 1 :: ws, n :: ns =>
    if n < 256 then (operandBytes ws ns).map (BitVec.ofNat 8 n :: ·) else none
  | 2 :: ws, n :: ns =>
    if n < 65536 then
      (operandBytes ws ns).map fun bs => hi8 (BitVec.ofNat 16 n) :: lo8 (BitVec.ofNat 16 n) :: bs
    else none
  | _, _ => none

/-- `MNEMONIC operand, …` as a packet (30_encoding.md R106). -/
def assemble (mnemonic : String) (operands : List Nat) : Option (List Byte) :=
  (Op.all.find? fun k => decide (mnemonicOf k = mnemonic)).bind fun k =>
    (operandBytes (operandWidths k) operands).map (k.code :: ·)

/-- A hexadecimal digit. -/
def hexDigit (n : Nat) : Char := "0123456789ABCDEF".toList.getD n '0'

/-- A bus unit as the spec writes it (30_encoding.md R107): `C:hh` for a command unit, `hh` for a data unit. -/
def unitText (u : BusUnit) : String :=
  (match u.dc with
    | .cmd => "C:"
    | .data => "") ++ String.ofList [hexDigit (u.byte.toNat / 16), hexDigit (u.byte.toNat % 16)]

end Sys2Proof.Machine
end

