-- ==== Sys2Proof/Safety.lean ====
section
/-! DEFINITION. What a safe run is, in the terms the claims use: legal parameters, a link that carries every unit, a
block that is ready to draw, what drawing does to T and to the display memory, and the invariant every step keeps. -/
namespace Sys2Proof.Machine

/-! ### Legal parameters -/

/-- One orientation's map is a bijection from its logical frame onto the array (00_scope.md R8): it stays in the array
and no two positions share a cell; the frame and the array have the same number of cells (R9). -/
def MapWf (m : OrientMap) (o : Orient) : Prop :=
  (∀ x y, x < frameW o → y < frameH o → (applyMap m o x y).1 < Config.panelW ∧ (applyMap m o x y).2 < Config.panelH) ∧
  (∀ x y x' y', x < frameW o → y < frameH o → x' < frameW o → y' < frameH o →
    applyMap m o x y = applyMap m o x' y' → x = x' ∧ y = y')

/-- The three maps that are parameters are legal. -/
def MapsWf (cfg : Config) : Prop :=
  MapWf cfg.orientMap90 .o90 ∧ MapWf cfg.orientMap180 .o180 ∧ MapWf cfg.orientMap270 .o270

/-- The parameters meet every constraint of 00_scope.md R8. -/
def Legal (cfg : Config) : Prop := cfg.wf = true ∧ MapsWf cfg

/-! ### A link that carries units -/

/-- No command is in progress that a command byte could not close (41_controller_commands.md R146). -/
def Controller.closable (c : Controller) : Bool :=
  match c.cmd with
  | none => true
  | some k => decide (paramCount k ≤ c.pbuf.length) && !(decide (k = .ramwr) && c.hi.isSome)

/-- Every transfer completes and reaches the Controller: the bus is open, the reset line inactive, no settle is
pending, and the Bus does not stall (the no-stall assumption of 60_exceptions.md R306). -/
structure LinkUp (s : State) : Prop where
  busOpen : s.busOpen = true
  rst : s.rst = .inactive
  settle : s.ctl.settle = none
  stall : s.stall = none

/-- The block is ready for a drawing operation: the link is up, the Controller is in phase On with no unfinished
command, and the command bytes and orientation codes are distinct. -/
structure Drawing (s : State) : Prop extends LinkUp s where
  phase : s.ctl.phase = .on
  closable : s.ctl.closable = true
  codes : s.cfg.wf = true

/-- What a completed transfer of the unit u leaves of the Engine (40_bus_transport.md R124). -/
def State.carry (s : State) (u : BusUnit) : State :=
  { s with dc := some u.dc, busy := false, rx := some (Config.rxDraw s.draws), draws := s.draws + 1,
           trace := s.trace ++ [u] }

/-- The same for a sequence of units. -/
def State.carryAll (s : State) (us : List BusUnit) : State := us.foldl State.carry s

/-! ### What drawing sends and writes -/

/-- The 2n data units of n pixels of one colour (42_controller_protocol.md R204). -/
def pixelUnits (c : Color) (n : Nat) : List BusUnit := (List.replicate n (wordUnits c)).flatten

/-- The units of one window write (42_controller_protocol.md R206): 11 + 2n. -/
def windowWriteUnits (cfg : Config) (x0 y0 x1 y1 : Int) (c : Color) (n : Nat) : List BusUnit :=
  windowUnits cfg x0 y0 x1 y1 ++ cmdUnit cfg .ramwr :: pixelUnits c n

/-- The units of one plotted point (43_geometry_basic.md R221). -/
def plotUnits (cfg : Config) (c : Color) (p : Int × Int) : List BusUnit :=
  windowWriteUnits cfg p.1 p.2 p.1 p.2 c 1

/-- The units of a horizontal span (x, y, len) (43_geometry_basic.md R223). -/
def hlineUnits (cfg : Config) (c : Color) (p : Int × Int × Int) : List BusUnit :=
  windowWriteUnits cfg p.1 p.2.1 (p.1 + p.2.2 - 1) p.2.1 c p.2.2.toNat

/-- The units of a vertical span (x, y, len) (43_geometry_basic.md R224). -/
def vlineUnits (cfg : Config) (c : Color) (p : Int × Int × Int) : List BusUnit :=
  windowWriteUnits cfg p.1 p.2.1 p.1 (p.2.1 + p.2.2 - 1) c p.2.2.toNat

/-- The position is in the logical frame (20_memory.md R61). -/
def InFrame (o : Orient) (p : Int × Int) : Prop :=
  0 ≤ p.1 ∧ p.1 < Int.ofNat (frameW o) ∧ 0 ≤ p.2 ∧ p.2 < Int.ofNat (frameH o)

/-- The window is well-formed and in bounds (20_memory.md R61). -/
def WindowIn (o : Orient) (x0 y0 x1 y1 : Int) : Prop :=
  0 ≤ x0 ∧ x0 ≤ x1 ∧ x1 < Int.ofNat (frameW o) ∧ 0 ≤ y0 ∧ y0 ≤ y1 ∧ y1 < Int.ofNat (frameH o)

/-- The k-th position of a window in row-major order (20_memory.md R62), its width being w. -/
def nthPosition (x0 y0 : Int) (w k : Nat) : Int × Int := (x0 + (k % w : Nat), y0 + (k / w : Nat))

/-- The first n positions of a window in row-major order (20_memory.md R62). -/
def firstPositions (x0 y0 x1 : Int) (n : Nat) : List (Int × Int) :=
  (List.range n).map (nthPosition x0 y0 (x1 - x0 + 1).toNat)

/-- The cells of a horizontal span. -/
def hlinePositions (p : Int × Int × Int) : List (Int × Int) :=
  (List.range p.2.2.toNat).map fun (k : Nat) => (p.1 + k, p.2.1)

/-- The cells of a vertical span. -/
def vlinePositions (p : Int × Int × Int) : List (Int × Int) :=
  (List.range p.2.2.toNat).map fun (k : Nat) => (p.1, p.2.1 + k)

/-- The key of the cell a logical position names. -/
def positionKey (cfg : Config) (o : Orient) (p : Int × Int) : Nat := cellKey cfg o p.1.toNat p.2.toNat

/-- The display memory of t is that of s with the colour c at the given logical positions, and every other cell as it
was (20_memory.md R63). -/
def Painted (s t : State) (ps : List (Int × Int)) (c : Color) : Prop :=
  ∀ a, t.ctl.gram.read a =
    if a ∈ ps.map (positionKey s.cfg s.ctl.orient) then some c else s.ctl.gram.read a

/-- The latched window of s is (x0, y0, x1, y1). -/
def WindowIs (s : State) (x0 y0 x1 y1 : Int) : Prop :=
  s.ctl.xs = some (word x0) ∧ s.ctl.ys = some (word y0) ∧ s.ctl.xe = some (word x1) ∧ s.ctl.ye = some (word y1)

/-- What no engine operation but its own writer changes: the parameters, the Host's side and the bench, and
`E.busOpen`, `E.rst`, `E.sqrt`. -/
structure EngineKept (s t : State) : Prop where
  cfg : t.cfg = s.cfg
  ops : t.ops = s.ops
  host : t.host = s.host
  reads : t.reads = s.reads
  bench : t.bench = s.bench
  busOpen : t.busOpen = s.busOpen
  rst : t.rst = s.rst
  sqrt : t.sqrt = s.sqrt

/-- The frame of a drawing operation: beside what `EngineKept` lists, the phase, the settle hold, the pixel format and
the orientation stay. -/
structure DrawKept (s t : State) : Prop extends EngineKept s t where
  phase : t.ctl.phase = s.ctl.phase
  settle : t.ctl.settle = s.ctl.settle
  colmod : t.ctl.colmod = s.ctl.colmod
  orient : t.ctl.orient = s.ctl.orient

/-- A drawing operation went through: exactly these units were sent, exactly these positions were painted, the pc
advanced by `steps` (1 for a whole operation, 0 for a sub-operation), no fault was raised, the flag is down if it was
down before, and the block is ready to draw again. -/
structure Drew (steps : Nat) (s t : State) (us : List BusUnit) (ps : List (Int × Int)) (c : Color) : Prop
    extends DrawKept s t where
  pc : t.pc = s.pc + steps
  fault : t.fault = s.fault
  trace : t.trace = s.trace ++ us
  busy : s.busy = false → t.busy = false
  painted : Painted s t ps c
  ready : Drawing t

/-! ### The instructions by what they draw -/

/-- The opcode that the drawing gate's fault records, for the operations that have the gate
(42_controller_protocol.md R207, 30_encoding.md R102). -/
def gatedOpcode : Instr → Option Byte
  | .setOrient _ => some 0x05
  | .setWindow _ _ _ _ => some 0x06
  | .writePixels _ _ => some 0x07
  | .pixel _ _ _ => some 0x10
  | .hline _ _ _ _ => some 0x11
  | .vline _ _ _ _ => some 0x12
  | .line _ _ _ _ _ => some 0x13
  | .rect _ _ _ _ _ => some 0x14
  | .fillRect _ _ _ _ _ => some 0x15
  | .clear => some 0x16
  | .circleQuad _ _ _ _ _ => some 0x20
  | .circle _ _ _ _ => some 0x21
  | .roundRect _ _ _ _ _ _ => some 0x22
  | .filledCircle _ _ _ _ => some 0x23
  | .ellipse _ _ _ _ _ => some 0x24
  | .filledEllipse _ _ _ _ _ => some 0x25
  | .busOpen | .busClose | .reset | .init | .isqrt _ | .cSwreset | .cSlpout | .cDispoff | .cDispon | .cCaset | .cRaset
  | .cRamwr | .cMadctl | .cColmod | .data _ => none

/-- The points of the operations built from "plot" alone, in drawing order, with their colour
(43_geometry_basic.md R226, R227, 44_geometry_curves.md R252, R253, R257). -/
def plottedPoints : Instr → Option (List (Int × Int) × Color)
  | .line x0 y0 x1 y1 c => some (linePoints (int8 x0) (int8 y0) (int8 x1) (int8 y1), c)
  | .rect x0 y0 x1 y1 c =>
    some (linePoints (int8 x0) (int8 y0) (int8 x1) (int8 y0) ++ linePoints (int8 x0) (int8 y1) (int8 x1) (int8 y1)
      ++ linePoints (int8 x0) (int8 y0) (int8 x0) (int8 y1) ++ linePoints (int8 x1) (int8 y0) (int8 x1) (int8 y1), c)
  | .circleQuad cx cy r m c => some (circleQuadPoints (int8 cx) (int8 cy) r.toNat m, c)
  | .circle cx cy r c => some (circleQuadPoints (int8 cx) (int8 cy) r.toNat 0x0F, c)
  | .ellipse cx cy w h c =>
    if semiAxis w = 0 ∧ semiAxis h = 0 then none
    else some ((ellipsePoints (semiAxis w) (semiAxis h)).flatMap (mirrorPoints (int8 cx) (int8 cy)), c)
  | .pixel _ _ _ | .hline _ _ _ _ | .vline _ _ _ _ | .fillRect _ _ _ _ _ | .clear | .roundRect _ _ _ _ _ _
  | .filledCircle _ _ _ _ | .filledEllipse _ _ _ _ _ | .setOrient _ | .setWindow _ _ _ _ | .writePixels _ _ | .busOpen
  | .busClose | .reset | .init | .isqrt _ | .cSwreset | .cSlpout | .cDispoff | .cDispon | .cCaset | .cRaset | .cRamwr
  | .cMadctl | .cColmod | .data _ => none

/-- The horizontal edges of ROUND_RECT as spans (x, y, len): top, bottom (44_geometry_curves.md R254). -/
def roundRectRows (x0 y0 x1 y1 : Int) (r : Nat) : List (Int × Int × Int) :=
  [(x0 + r, y0, x1 - x0 + 1 - 2 * r), (x0 + r, y1, x1 - x0 + 1 - 2 * r)]

/-- The vertical edges of ROUND_RECT as spans (x, y, len): left, right (44_geometry_curves.md R254). -/
def roundRectColumns (x0 y0 x1 y1 : Int) (r : Nat) : List (Int × Int × Int) :=
  [(x0, y0 + r, y1 - y0 + 1 - 2 * r), (x1, y0 + r, y1 - y0 + 1 - 2 * r)]

/-- The corner points of ROUND_RECT: top-left, top-right, bottom-left, bottom-right (44_geometry_curves.md R254). -/
def roundRectCorners (x0 y0 x1 y1 : Int) (r : Nat) : List (Int × Int) :=
  circleQuadPoints (x0 + r) (y0 + r) r 0x08 ++ circleQuadPoints (x1 - r) (y0 + r) r 0x02
    ++ circleQuadPoints (x0 + r) (y1 - r) r 0x04 ++ circleQuadPoints (x1 - r) (y1 - r) r 0x01

/-- A window that one window write of a drawing operation latches (42_controller_protocol.md R205). -/
structure Window where
  x0 : Int
  y0 : Int
  x1 : Int
  y1 : Int
  deriving DecidableEq, Repr

/-- The window of a plotted point (43_geometry_basic.md R221). -/
def pointWindow (p : Int × Int) : Window := ⟨p.1, p.2, p.1, p.2⟩

/-- The window of a horizontal span (x, y, len) (43_geometry_basic.md R223). -/
def hlineWindow (p : Int × Int × Int) : Window := ⟨p.1, p.2.1, p.1 + p.2.2 - 1, p.2.1⟩

/-- The window of a vertical span (x, y, len) (43_geometry_basic.md R224). -/
def vlineWindow (p : Int × Int × Int) : Window := ⟨p.1, p.2.1, p.1, p.2.1 + p.2.2 - 1⟩

/-- The area of a window (20_memory.md R61). -/
def Window.area (w : Window) : Nat := (w.x1 - w.x0 + 1).toNat * (w.y1 - w.y0 + 1).toNat

/-- The window is well-formed and in bounds (20_memory.md R61). -/
def Window.In (o : Orient) (w : Window) : Prop := WindowIn o w.x0 w.y0 w.x1 w.y1

/-- The units of a window write that fills the window. -/
def Window.units (cfg : Config) (c : Color) (w : Window) : List BusUnit :=
  windowWriteUnits cfg w.x0 w.y0 w.x1 w.y1 c w.area

/-- The positions of a window, in row-major order. -/
def Window.positions (w : Window) : List (Int × Int) := firstPositions w.x0 w.y0 w.x1 w.area

/-- The fault that SET_WINDOW raises for a window that is not well-formed and in bounds
(42_controller_protocol.md R200). -/
def Window.faultInfo (w : Window) : FaultInfo :=
  if w.x1 < w.x0 ∨ w.y1 < w.y0 then .malformedWindow w.x0 w.y0 w.x1 w.y1 else .outOfBounds w.x0 w.y0 w.x1 w.y1

/-- The windows of the operations built from spans, in drawing order, with their colour
(44_geometry_curves.md R254, R255, R259). -/
def spanWindows : Instr → Option (List Window × Color)
  | .roundRect x0 y0 x1 y1 r c =>
    some ((roundRectRows (int8 x0) (int8 y0) (int8 x1) (int8 y1) r.toNat).map hlineWindow
      ++ (roundRectColumns (int8 x0) (int8 y0) (int8 x1) (int8 y1) r.toNat).map vlineWindow
      ++ (roundRectCorners (int8 x0) (int8 y0) (int8 x1) (int8 y1) r.toNat).map pointWindow, c)
  | .filledCircle cx cy r c => some ((filledCircleSpans (int8 cx) (int8 cy) r.toNat).map vlineWindow, c)
  | .filledEllipse cx cy w h c =>
    some ((filledEllipseSpans (int8 cx) (int8 cy) (semiAxis w) (semiAxis h)).map hlineWindow, c)
  | .line _ _ _ _ _ | .rect _ _ _ _ _ | .circleQuad _ _ _ _ _ | .circle _ _ _ _ | .ellipse _ _ _ _ _
  | .pixel _ _ _ | .hline _ _ _ _ | .vline _ _ _ _ | .fillRect _ _ _ _ _ | .clear | .setOrient _
  | .setWindow _ _ _ _ | .writePixels _ _ | .busOpen | .busClose | .reset | .init | .isqrt _ | .cSwreset | .cSlpout
  | .cDispoff | .cDispon | .cCaset | .cRaset | .cRamwr | .cMadctl | .cColmod | .data _ => none

/-- The logical positions an engine operation may write in the state s: all of them when it goes through, the first of
them when it stops. The operations that write no pixel have none. RESET and INIT are not drawn but reset: they set
every cell to ⊥ (70_reset_and_hazards.md R340), and have none here. -/
def drawnPositions (s : State) : Instr → List (Int × Int)
  | .writePixels _ n =>
    match s.ctl.xs, s.ctl.ys, s.ctl.xe with
    | some xs, some ys, some xe => firstPositions (int16 xs) (int16 ys) (int16 xe) n.toNat
    | _, _, _ => []
  | .pixel x y _ => [(int8 x, int8 y)]
  | .hline x y len _ => hlinePositions (int8 x, int8 y, int8 len)
  | .vline x y len _ => vlinePositions (int8 x, int8 y, int8 len)
  | .line x0 y0 x1 y1 _ => linePoints (int8 x0) (int8 y0) (int8 x1) (int8 y1)
  | .rect x0 y0 x1 y1 _ =>
    linePoints (int8 x0) (int8 y0) (int8 x1) (int8 y0) ++ linePoints (int8 x0) (int8 y1) (int8 x1) (int8 y1)
      ++ linePoints (int8 x0) (int8 y0) (int8 x0) (int8 y1) ++ linePoints (int8 x1) (int8 y0) (int8 x1) (int8 y1)
  | .fillRect x0 y0 x1 y1 _ =>
    firstPositions (int8 x0) (int8 y0) (int8 x1)
      ((int8 x1 - int8 x0 + 1).toNat * (int8 y1 - int8 y0 + 1).toNat)
  | .clear =>
    firstPositions 0 0 (Int.ofNat (frameW s.ctl.orient) - 1) (frameW s.ctl.orient * frameH s.ctl.orient)
  | .circleQuad cx cy r m _ => circleQuadPoints (int8 cx) (int8 cy) r.toNat m
  | .circle cx cy r _ => circleQuadPoints (int8 cx) (int8 cy) r.toNat 0x0F
  | .roundRect x0 y0 x1 y1 r _ =>
    (roundRectRows (int8 x0) (int8 y0) (int8 x1) (int8 y1) r.toNat).flatMap hlinePositions
      ++ (roundRectColumns (int8 x0) (int8 y0) (int8 x1) (int8 y1) r.toNat).flatMap vlinePositions
      ++ roundRectCorners (int8 x0) (int8 y0) (int8 x1) (int8 y1) r.toNat
  | .filledCircle cx cy r _ => (filledCircleSpans (int8 cx) (int8 cy) r.toNat).flatMap vlinePositions
  | .ellipse cx cy w h _ =>
    (ellipsePoints (semiAxis w) (semiAxis h)).flatMap (mirrorPoints (int8 cx) (int8 cy))
  | .filledEllipse cx cy w h _ =>
    (filledEllipseSpans (int8 cx) (int8 cy) (semiAxis w) (semiAxis h)).flatMap hlinePositions
  | .setOrient _ | .setWindow _ _ _ _ | .busOpen | .busClose | .reset | .init | .isqrt _ | .cSwreset | .cSlpout
  | .cDispoff | .cDispon | .cCaset | .cRaset | .cRamwr | .cMadctl | .cColmod | .data _ => []

/-! ### The invariant -/

/-- The decoder state of the Controller is one it can be in (41_controller_commands.md R144 to R147): a command in
progress takes data, has no more parameter bytes than it takes, and a waiting high byte belongs to a pixel stream. -/
def DecoderInv (c : Controller) : Prop :=
  match c.cmd with
  | none => c.pbuf = [] ∧ c.hi = none
  | some .ramwr => c.pbuf = []
  | some k => 0 < paramCount k ∧ c.pbuf.length ≤ paramCount k ∧ c.hi = none

/-- While a pixel stream is open, the window is set, well-formed and inside the frame, and the pointer is inside the
window (41_controller_commands.md R159, 20_memory.md R62, R63). -/
def StreamInv (c : Controller) : Prop :=
  c.cmd = some .ramwr →
    ∃ xs xe ys ye x y : Word, c.xs = some xs ∧ c.xe = some xe ∧ c.ys = some ys ∧ c.ye = some ye ∧
      c.wpX = some x ∧ c.wpY = some y ∧
      xs.toNat ≤ x.toNat ∧ x.toNat ≤ xe.toNat ∧ xe.toNat < frameW c.orient ∧
      ys.toNat ≤ y.toNat ∧ y.toNat ≤ ye.toNat ∧ ye.toNat < frameH c.orient

/-- The phase fits the rest of the Controller (41_controller_commands.md R149, R155): the commands in progress are
those the phase admits, the pixel format is set once the colour mode is, and a settle hold belongs to the phase that
its event left. -/
structure PhaseInv (cfg : Config) (c : Controller) : Prop where
  drawing : c.cmd = some .caset ∨ c.cmd = some .raset ∨ c.cmd = some .ramwr ∨ c.cmd = some .madctl → c.phase = .on
  colmodCmd : c.cmd = some .colmod → c.phase = .sleepOut ∨ c.phase = .colorModeSet
  format : c.phase = .colorModeSet ∨ c.phase = .on → c.colmod = some cfg.colmod16
  holdSleep : c.settle = some .slpout → c.phase = .sleepOut
  holdReset : c.settle = some .rst ∨ c.settle = some .swreset → c.phase = .resetting

/-- The column registers are written together, and so are the row registers (20_memory.md R70). -/
def WindowInv (c : Controller) : Prop := c.xs.isSome = c.xe.isSome ∧ c.ys.isSome = c.ye.isSome

/-- The invariant of the block. The parameters are legal; the display memory is in its canonical form; the Controller
is in a state its rules can leave; the reset line is inactive between operations (42_controller_protocol.md R190); the
flag is down between operations unless a fault or a stall stopped one (10_state.md R28); and a recorded fault names the
operation the pc stands at (60_exceptions.md R300). -/
structure BlockInv (s : State) : Prop where
  legal : Legal s.cfg
  memory : Memory.wf s.ctl.gram
  decoder : DecoderInv s.ctl
  stream : StreamInv s.ctl
  phase : PhaseInv s.cfg s.ctl
  window : WindowInv s.ctl
  rst : s.rst = .inactive
  busy : s.busy = true → s.fault.isSome = true ∨ s.stall = some 0
  fault : ∀ r, s.fault = some r → r.opIndex = s.pc

end Sys2Proof.Machine
end

