-- ==== Sys2Proof/Certificates/Slice0/Obligations.lean ====
section
/-! DEFINITION. The statements for the provers. Most quantify over every state. `Drawing s` is the state of a block
that can draw, with the no-stall assumption of 60_exceptions.md R306 in it; `Drew` says all that a drawing operation
leaves changed and unchanged (Safety.lean). -/
section
open Sys2Proof Sys2Proof.Machine

/-! ### Encoding -/

/-- Packets and units written out byte by byte from 30_encoding.md R91, R101 and R102, three of them the spec's own
examples of R106, stand for the instructions the tables say. A sanity statement. -/
def Obligations.SampleWordsDecode : Prop :=
  decodePacket [0x01] = .ok (.busOpen, []) ∧
  decodePacket [0x05, 0x01, 0x0E] = .ok (.setOrient 270, []) ∧
  decodePacket [0x08, 0x1F, 0xA4] = .ok (.isqrt 8100, []) ∧
  decodePacket [0x10, 0x40, 0x50, 0xFF, 0xFF] = .ok (.pixel 64 80 0xFFFF, []) ∧
  decodePacket [0x13, 0x00, 0x00, 0x05, 0x02, 0xF8, 0x00] = .ok (.line 0 0 5 2 0xF800, []) ∧
  decodePacket [0x20, 0x0A, 0x0B, 0x02, 0x01, 0x12, 0x34] = .ok (.circleQuad 10 11 2 1 0x1234, []) ∧
  decodePacket [0x22, 0x00, 0x01, 0x09, 0x06, 0x02, 0x12, 0x34] = .ok (.roundRect 0 1 9 6 2 0x1234, []) ∧
  decodeUnit Config.default ⟨.cmd, 0x2C⟩ = .ok .cRamwr ∧
  decodeUnit Config.default ⟨.data, 0x2C⟩ = .ok (.data 0x2C)

/-- Every well-formed instruction, with every operand at every value its field admits, decodes from its own encoding,
for every choice of distinct command bytes; and a packet decodes so whatever bytes follow it. -/
def Obligations.DecodeOfEncode : Prop :=
  ∀ (i : Instr) (cfg : Config), cfg.opcsDistinct = true → i.wf = true →
    decode cfg (encode cfg i) = .ok i ∧
      ∀ bytes rest, encode cfg i = .packet bytes → decodePacket (bytes ++ rest) = .ok (i, rest)

/-- Nothing else decodes: what decodes to an instruction is that instruction's encoding, and the instruction is
well-formed; a packet may carry bytes after it, which come back unread. -/
def Obligations.EncodeOfDecode : Prop :=
  (∀ (cfg : Config) (bytes : List Byte) (i : Instr) (rest : List Byte), decodePacket bytes = .ok (i, rest) →
    i.wf = true ∧ ∃ packet, encode cfg i = .packet packet ∧ bytes = packet ++ rest) ∧
  ∀ (cfg : Config) (u : BusUnit) (i : Instr), decodeUnit cfg u = .ok i → i.wf = true ∧ encode cfg i = .unit u

/-- 30_encoding.md, illegal engine encodings: the three kinds of illegal packet raise `IllegalOp` with the packet bytes,
and the block is otherwise as it was. That the Host's submission is used up, and that a Host with no action pending
goes on submitting, is the model's choice (log entry 8); no bench is in the way (log entry 9). -/
def Obligations.IllegalPacketsRaiseIllegalOp : Prop :=
  ∀ (s : State) (bytes : List Byte), s.hung = false → s.fault = none → s.bench = [] →
    s.ops[s.pc]? = some bytes →
    ((∃ (op : Byte) (fields : List Byte), bytes = op :: fields ∧
        (op.toNat = 0 ∨ (0x09 ≤ op.toNat ∧ op.toNat ≤ 0x0F) ∨ (0x17 ≤ op.toNat ∧ op.toNat ≤ 0x1F) ∨
          0x26 ≤ op.toNat)) ∨
      (∃ (k : Op) (fields : List Byte), bytes = k.code :: fields ∧ bytes.length < k.length) ∨
      (∃ (cx cy r m : Byte) (fields : List Byte), bytes = 0x20 :: cx :: cy :: r :: m :: fields ∧ 16 ≤ m.toNat)) →
    (s.host = [] → step s = .next { s with fault := some ⟨.illegalOp bytes, s.pc⟩ }) ∧
      ∀ rest, s.host = .submit :: rest →
        step s = .next { s with host := rest, fault := some ⟨.illegalOp bytes, s.pc⟩ }

/-! ### The step -/

/-- A step runs the decoded instruction: the packet at `E.pc`, when the Host submits it or has no action pending (the
model's choice, log entry 8), also one with bytes after its format, which are not read (log entry 13); and a unit that
the model's bench drives (log entry 9). Beside the instruction the step only uses up the Host's action or the bench's
unit. -/
def Obligations.StepRunsDecodedInstruction : Prop :=
  ∀ (s : State) (i : Instr), s.hung = false → s.fault = none →
    (∀ bytes r, s.bench = [] → s.ops[s.pc]? = some bytes → decodePacket bytes = .ok (i, r) →
      (s.host = [] → step s = exec i s) ∧
        ∀ rest, s.host = .submit :: rest → step s = exec i { s with host := rest }) ∧
    ∀ u rest, s.bench = u :: rest → decodeUnit s.cfg u = .ok i → step s = exec i { s with bench := rest }

/-- An encoding placed where the next step takes it is run by that step, a packet from the Host's stream (log entry 8)
and a unit from the bench (log entry 9), and placing it leaves every other packet of the Host's stream as it was. -/
def Obligations.StepRunsPlacedInstruction : Prop :=
  ∀ (s : State) (i : Instr), s.hung = false → s.fault = none → s.cfg.opcsDistinct = true → i.wf = true →
    (∀ bytes, encode s.cfg i = .packet bytes →
      step (s.place (.packet bytes)) = exec i { s.place (.packet bytes) with host := s.host }) ∧
    (∀ u, encode s.cfg i = .unit u → step (s.place (.unit u)) = exec i s) ∧
      ∀ k, k < s.ops.length → k ≠ s.pc → (s.place (encode s.cfg i)).ops[k]? = s.ops[k]?

/-- 10_state.md R21: the Host submits the next operation, reads `E.sqrt` or reads `E.fault`, and nothing else it does
takes a step; it never places a unit on the bus. Without a bench, which the model keeps apart from the Host (log
entry 9), none appears, and T and the Controller change only in a step that runs the engine operation of the packet
at `E.pc`, accepted with no fault recorded. -/
def Obligations.HostPlacesNoUnit : Prop :=
  (∀ a : HostAction, a = .submit ∨ a = .readSqrt ∨ a = .readFault) ∧ State.reset.bench = [] ∧
  ∀ s t : State, s.bench = [] → step s = .next t → t.bench = [] ∧
    (t.trace ≠ s.trace ∨ t.ctl ≠ s.ctl → s.fault = none ∧ (s.host = [] ∨ ∃ rest, s.host = .submit :: rest) ∧
      ∃ bytes i r, s.ops[s.pc]? = some bytes ∧ decodePacket bytes = .ok (i, r) ∧
        step s = exec i { s with host := s.host.tail })

/-- 10_state.md R39: `E.fault` is none at power-on; once set, no instruction clears or overwrites it, a reset neither;
and while it is set no step executes anything. -/
def Obligations.RecordedFaultIsFinal : Prop :=
  State.reset.fault = none ∧
  (∀ (i : Instr) (s t : State) (r : FaultRecord), s.fault = some r → exec i s = .next t → t.fault = some r) ∧
  ∀ (s t : State) (r : FaultRecord), s.fault = some r → step s = .next t →
    t.fault = some r ∧ t.pc = s.pc ∧ t.ctl = s.ctl ∧ t.trace = s.trace ∧ t.sqrt = s.sqrt ∧ t.busOpen = s.busOpen ∧
      t.rst = s.rst

/-- A bus stall is a hang: the unit is sent and taken, the operation never completes, no fault is recorded, the pc
stays, and every later step leaves the block as it is. The stall is the model's own field (log entry 5), and that the
Host's reads are blocked too is the model's inference (log entry 24). -/
def Obligations.StalledTransferHangsForever : Prop :=
  ∀ (s : State) (u : BusUnit) (c : Controller), s.busOpen = true → s.stall = some 0 → s.fault = none →
    receive s.cfg s.rst u s.ctl = .ok c →
    ∃ t, xfer u s = .stop t ∧ t.busy = true ∧ t.fault = none ∧ t.pc = s.pc ∧ t.trace = s.trace ++ [u] ∧ t.ctl = c ∧
      ∀ n, Sys2Proof.core.run n t = .next t

/-- What the Host can read: `E.sqrt` once an ISQRT has completed, a fault `UnsetRead` before, and `E.fault` at any
time, after a fault too (log entry 10). That the fault records the pc, and that the read is kept in a list, are the
model's choices (log entries 19 and 20). -/
def Obligations.HostReads : Prop :=
  ∀ (s : State) (rest : List HostAction), s.hung = false → s.bench = [] →
    (∀ v, s.host = .readSqrt :: rest → s.sqrt = some v →
      step s = .next { s with host := rest, reads := s.reads ++ [.sqrt v] }) ∧
    (s.host = .readSqrt :: rest → s.sqrt = none → s.fault = none →
      step s = .next { s with host := rest, fault := some ⟨.unsetRead .sqrt, s.pc⟩ }) ∧
    (s.host = .readFault :: rest → step s = .next { s with host := rest, reads := s.reads ++ [.fault s.fault] })

/-- Every instruction answers a next state in every state, and there is no control transfer: the pc goes to the next
operation, or, for an operation that raised a fault and one that hangs, it stays; for a bus unit, which is no engine
operation, it always stays (log entry 9); T only grows. -/
def Obligations.PcAndTraceOnlyAdvance : Prop :=
  ∀ (i : Instr) (s : State), ∃ t, exec i s = .next t ∧ s.trace <+: t.trace ∧
    (t.pc = s.pc ∨ t.pc = s.pc + 1) ∧
    (∀ u, encode s.cfg i = .unit u → t.pc = s.pc) ∧
    (∀ packet, encode s.cfg i = .packet packet → s.fault = none →
      (t.pc = s.pc + 1 ∧ t.fault = none) ∨
      (t.pc = s.pc ∧ ∃ f, t.fault = some ⟨f, s.pc⟩) ∨
      (t.pc = s.pc ∧ t.fault = none ∧ t.busy = true ∧ t.stall = some 0))

/-! ### Reset -/

/-- 70_reset_and_hazards.md R344: the state at power-on. -/
def Obligations.PowerOnState : Prop :=
  State.reset.pc = 0 ∧ State.reset.busOpen = false ∧ State.reset.rst = .inactive ∧ State.reset.dc = none ∧
  State.reset.busy = false ∧ State.reset.rx = none ∧ State.reset.sqrt = none ∧ State.reset.fault = none ∧
  State.reset.ctl.phase = .uninitialized ∧ State.reset.ctl.settle = none ∧ State.reset.ctl.colmod = none ∧
  State.reset.ctl.orient = .o0 ∧ State.reset.ctl.xs = none ∧ State.reset.ctl.xe = none ∧
  State.reset.ctl.ys = none ∧ State.reset.ctl.ye = none ∧ State.reset.ctl.cmd = none ∧ State.reset.ctl.pbuf = [] ∧
  State.reset.ctl.wpX = none ∧ State.reset.ctl.wpY = none ∧ State.reset.ctl.wpDone = false ∧
  State.reset.ctl.hi = none ∧ (∀ a, State.reset.ctl.gram.read a = none) ∧ State.reset.trace = []

/-- The edges of the reset line perform `ControllerReset()` and set the settle hold; driving the level the line has
changes nothing; the waits RST and SLPOUT lift the hold and the other two only idle. -/
def Obligations.ResetLineAndWaits : Prop :=
  (∀ s : State, s.rst = .inactive →
    driveRst .active s = { s with
      rst := .active
      ctl := { phase := .resetting, settle := none, colmod := none, orient := .o0, xs := none, xe := none, ys := none,
               ye := none, cmd := none, pbuf := [], wpX := none, wpY := none, wpDone := false, hi := none,
               gram := [] } } ∧
    driveRst .inactive s = s) ∧
  (∀ s : State, s.rst = .active →
    driveRst .inactive s = { s with
      rst := .inactive
      ctl := { phase := .resetting, settle := some .rst, colmod := none, orient := .o0, xs := none, xe := none,
               ys := none, ye := none, cmd := none, pbuf := [], wpX := none, wpY := none, wpDone := false, hi := none,
               gram := [] } } ∧
    driveRst .active s = s) ∧
  (∀ s : State, wait .rst s = { s with ctl := { s.ctl with settle := none } } ∧
    wait .slpout s = { s with ctl := { s.ctl with settle := none } } ∧ wait .pre s = s ∧ wait .active s = s) ∧
  ∀ a, Memory.read [] a = none

/-- 42_controller_protocol.md R190: RESET, in every state. It needs no open bus and no phase, sends no unit and cannot
fault. -/
def Obligations.ResetInstruction : Prop :=
  (∀ cfg : Config, encode cfg .reset = .packet [0x03]) ∧
  ∀ s : State, exec .reset s = .next { s with
    pc := s.pc + 1
    rst := .inactive
    ctl := { phase := .resetting, settle := none, colmod := none, orient := .o0, xs := none, xe := none, ys := none,
             ye := none, cmd := none, pbuf := [], wpX := none, wpY := none, wpDone := false, hi := none, gram := [] } }

/-- 42_controller_protocol.md R191: INIT with the bus open, from every phase, and with the bus closed. -/
def Obligations.InitInstruction : Prop :=
  (∀ cfg : Config, encode cfg .init = .packet [0x04]) ∧
  (∀ s : State, s.busOpen = true → s.stall = none → s.cfg.opcsDistinct = true →
    exec .init s = .next { s with
      pc := s.pc + 1
      rst := .inactive
      dc := some .cmd
      busy := false
      rx := some (Config.rxDraw (s.draws + 3))
      draws := s.draws + 4
      trace := s.trace ++ [⟨.cmd, s.cfg.opcSlpout⟩, ⟨.cmd, s.cfg.opcColmod⟩, ⟨.data, s.cfg.colmod16⟩,
        ⟨.cmd, s.cfg.opcDispon⟩]
      ctl := { phase := .on, settle := none, colmod := some s.cfg.colmod16, orient := .o0, xs := none, xe := none,
               ys := none, ye := none, cmd := none, pbuf := [], wpX := none, wpY := none, wpDone := false, hi := none,
               gram := [] } }) ∧
  ∀ s : State, s.busOpen = false → s.fault = none →
    exec .init s = .next { s with
      rst := .inactive
      ctl := { phase := .resetting, settle := none, colmod := none, orient := .o0, xs := none, xe := none, ys := none,
               ye := none, cmd := none, pbuf := [], wpX := none, wpY := none, wpDone := false, hi := none, gram := [] }
      fault := some ⟨.busClosed .cmd s.cfg.opcSlpout, s.pc⟩ }

/-- INIT's failure modes, which 42_controller_protocol.md section 1 derives ("A run of INIT can raise only
`BusClosed`"). INIT raises no fault but `BusClosed`, whatever the block's state and whether or not the Bus stalls; then
no unit was sent and the reset has taken effect. And INIT's frame, for every outcome. -/
def Obligations.InitFailureModes : Prop :=
  ∀ s t : State, s.cfg.opcsDistinct = true → exec .init s = .next t →
    (s.fault = none → t.fault ≠ none → s.busOpen = false ∧ t.fault = some ⟨.busClosed .cmd s.cfg.opcSlpout, s.pc⟩ ∧
      t.trace = s.trace ∧ t.ctl.phase = .resetting ∧ t.ctl.settle = none ∧ t.ctl.cmd = none) ∧
    (t.cfg = s.cfg ∧ t.ops = s.ops ∧ t.host = s.host ∧ t.reads = s.reads ∧ t.busOpen = s.busOpen ∧ t.sqrt = s.sqrt ∧
      t.rst = .inactive) ∧
    t.ctl.gram = [] ∧ t.ctl.orient = .o0 ∧ t.ctl.xs = none ∧ t.ctl.xe = none ∧ t.ctl.ys = none ∧ t.ctl.ye = none

/-- INIT is idempotent on the Controller's state, which 42_controller_protocol.md section 1 derives. INIT; INIT leaves
the Controller as INIT does, with four more units in T. -/
def Obligations.InitTwiceIsInitOnce : Prop :=
  ∀ s : State, s.busOpen = true → s.stall = none → s.cfg.opcsDistinct = true →
    ∃ t u, exec .init s = .next t ∧ exec .init t = .next u ∧ u.ctl = t.ctl ∧
      u.trace.length = t.trace.length + 4 ∧ t.ctl.phase = .on ∧ t.ctl.colmod = some s.cfg.colmod16 ∧
      t.ctl.orient = .o0 ∧ t.ctl.xs = none ∧ t.ctl.xe = none ∧ t.ctl.ys = none ∧ t.ctl.ye = none ∧
      (∀ a, t.ctl.gram.read a = none) ∧ t.ctl.cmd = none

/-! ### The bus -/

/-- 40_bus_transport.md R120 and R122: BUS_OPEN and BUS_CLOSE, in every state. -/
def Obligations.BusOpenAndClose : Prop :=
  (∀ cfg : Config, encode cfg .busOpen = .packet [0x01] ∧ encode cfg .busClose = .packet [0x02]) ∧
  ∀ s : State, exec .busOpen s = .next { s with busOpen := true, pc := s.pc + 1 } ∧
    exec .busClose s = .next { s with busOpen := false, pc := s.pc + 1 }

/-- 40_bus_transport.md, the micro-step XFER. With the bus closed nothing is sent; a fault of the Controller stops the
transfer where it is raised, the unit already in T (that the flag stays set then is the model's reading, log entry 11);
otherwise the byte received is the next draw of the free value
`Config.rxDraw` (log entry 4) and the flag falls, unless the Bus stalls: then the Engine waits for ever with the flag
set. The Bus's count of the transfers it still completes (log entry 5) goes down by one. -/
def Obligations.TransferOutcomes : Prop :=
  ∀ (s : State) (u : BusUnit),
    (s.busOpen = false → s.fault = none →
      xfer u s = .stop { s with fault := some ⟨.busClosed u.dc u.byte, s.pc⟩ }) ∧
    (∀ c f, s.busOpen = true → s.fault = none → receive s.cfg s.rst u s.ctl = .raised c f →
      xfer u s = .stop { s with
        dc := some u.dc
        busy := true
        trace := s.trace ++ [u]
        ctl := c
        fault := some ⟨f, s.pc⟩ }) ∧
    (∀ c, s.busOpen = true → s.stall = none → receive s.cfg s.rst u s.ctl = .ok c →
      xfer u s = .ok { s with
        dc := some u.dc
        busy := false
        rx := some (Config.rxDraw s.draws)
        draws := s.draws + 1
        trace := s.trace ++ [u]
        ctl := c }) ∧
    (∀ c n, s.busOpen = true → s.stall = some (n + 1) → receive s.cfg s.rst u s.ctl = .ok c →
      xfer u s = .ok { s with
        dc := some u.dc
        busy := false
        rx := some (Config.rxDraw s.draws)
        draws := s.draws + 1
        stall := some n
        trace := s.trace ++ [u]
        ctl := c }) ∧
    ∀ c, s.busOpen = true → s.stall = some 0 → receive s.cfg s.rst u s.ctl = .ok c →
      xfer u s = .stop { s with
        dc := some u.dc
        busy := true
        rx := some (Config.rxDraw s.draws)
        draws := s.draws + 1
        trace := s.trace ++ [u]
        ctl := c }

/-- With the bus closed no instruction sends a unit, and none but RESET and INIT changes the Controller. -/
def Obligations.ClosedBusSendsNothing : Prop :=
  ∀ (i : Instr) (s t : State), s.busOpen = false → exec i s = .next t →
    t.trace = s.trace ∧ (i ≠ .reset → i ≠ .init → t.ctl = s.ctl)

/-! ### The Controller -/

/-- The commands that take no data: SWRESET in every phase, SLPOUT in Resetting, DISPON in ColorModeSet and DISPOFF in
On. Everything that is not named stays. -/
def Obligations.CommandsWithoutData : Prop :=
  ∀ s : State, LinkUp s → s.ctl.closable = true → s.cfg.opcsDistinct = true →
    exec .cSwreset s = .next ((s.carry ⟨.cmd, s.cfg.opcSwreset⟩).setCtl
      { phase := .resetting, settle := some .swreset, colmod := none, orient := .o0, xs := none, xe := none,
        ys := none, ye := none, cmd := none, pbuf := [], wpX := none, wpY := none, wpDone := false, hi := none,
        gram := [] }) ∧
    (s.ctl.phase = .resetting → exec .cSlpout s = .next ((s.carry ⟨.cmd, s.cfg.opcSlpout⟩).setCtl
      { s.ctl with phase := .sleepOut, settle := some .slpout, cmd := none, pbuf := [], hi := none })) ∧
    (s.ctl.phase = .colorModeSet → exec .cDispon s = .next ((s.carry ⟨.cmd, s.cfg.opcDispon⟩).setCtl
      { s.ctl with phase := .on, cmd := none, pbuf := [], hi := none })) ∧
    (s.ctl.phase = .on → exec .cDispoff s = .next ((s.carry ⟨.cmd, s.cfg.opcDispoff⟩).setCtl
      { s.ctl with phase := .colorModeSet, cmd := none, pbuf := [], hi := none }))

/-- The commands that take parameters start with an empty parameter list and change no register. -/
def Obligations.CommandsWithParametersStart : Prop :=
  ∀ s : State, LinkUp s → s.ctl.closable = true → s.cfg.opcsDistinct = true →
    (s.ctl.phase = .on →
      exec .cCaset s = .next ((s.carry ⟨.cmd, s.cfg.opcCaset⟩).setCtl
        { s.ctl with cmd := some .caset, pbuf := [], hi := none }) ∧
      exec .cRaset s = .next ((s.carry ⟨.cmd, s.cfg.opcRaset⟩).setCtl
        { s.ctl with cmd := some .raset, pbuf := [], hi := none }) ∧
      exec .cMadctl s = .next ((s.carry ⟨.cmd, s.cfg.opcMadctl⟩).setCtl
        { s.ctl with cmd := some .madctl, pbuf := [], hi := none })) ∧
    (s.ctl.phase = .sleepOut → exec .cColmod s = .next ((s.carry ⟨.cmd, s.cfg.opcColmod⟩).setCtl
      { s.ctl with cmd := some .colmod, pbuf := [], hi := none }))

/-- A parameter byte is collected, and the last one latches: the column and row registers change together
(20_memory.md R70), high byte first (R64); COLMOD takes `COLMOD_16` and MADCTL an orientation code, alone. -/
def Obligations.ParameterBytes : Prop :=
  ∀ (s : State) (b : Byte), LinkUp s →
    (s.ctl.cmd = some .caset ∨ s.ctl.cmd = some .raset → s.ctl.pbuf.length < 3 →
      exec (.data b) s = .next ((s.carry ⟨.data, b⟩).setCtl { s.ctl with pbuf := s.ctl.pbuf ++ [b] })) ∧
    (∀ p0 p1 p2 : Byte, s.ctl.cmd = some .caset → s.ctl.pbuf = [p0, p1, p2] →
      exec (.data b) s = .next ((s.carry ⟨.data, b⟩).setCtl
        { s.ctl with pbuf := [p0, p1, p2, b], xs := some (p0 ++ p1), xe := some (p2 ++ b) })) ∧
    (∀ p0 p1 p2 : Byte, s.ctl.cmd = some .raset → s.ctl.pbuf = [p0, p1, p2] →
      exec (.data b) s = .next ((s.carry ⟨.data, b⟩).setCtl
        { s.ctl with pbuf := [p0, p1, p2, b], ys := some (p0 ++ p1), ye := some (p2 ++ b) })) ∧
    (s.ctl.cmd = some .colmod → s.ctl.pbuf = [] → b = s.cfg.colmod16 →
      exec (.data b) s = .next ((s.carry ⟨.data, b⟩).setCtl
        { s.ctl with pbuf := [b], colmod := some b, phase := .colorModeSet })) ∧
    ∀ o, s.ctl.cmd = some .madctl → s.ctl.pbuf = [] → s.cfg.orientCodesDistinct = true →
      b = orientCodeOf s.cfg o →
      exec (.data b) s = .next ((s.carry ⟨.data, b⟩).setCtl { s.ctl with pbuf := [b], orient := o })

/-- 41_controller_commands.md R159: the start of a pixel stream, and its checks in order: the phase, then the window. A
check that fails leaves the last command closed and nothing else of the Controller changed (60_exceptions.md R309). -/
def Obligations.RamwrStart : Prop :=
  (∀ cfg : Config, encode cfg .cRamwr = .unit ⟨.cmd, cfg.opcRamwr⟩) ∧
  (∀ s : State, LinkUp s → s.ctl.closable = true → s.cfg.opcsDistinct = true → s.ctl.phase ≠ .on → s.fault = none →
    ∃ t, exec .cRamwr s = .next t ∧ t.fault = some ⟨.orderViolation .ramwr s.ctl.phase, s.pc⟩ ∧
      t.ctl = s.ctl.closed ∧ t.trace = s.trace ++ [⟨.cmd, s.cfg.opcRamwr⟩]) ∧
  ∀ s : State, LinkUp s → s.ctl.closable = true → s.cfg.opcsDistinct = true → s.ctl.phase = .on → s.fault = none →
    (s.ctl.xs = none ∨ s.ctl.xe = none ∨ s.ctl.ys = none ∨ s.ctl.ye = none →
      ∃ t, exec .cRamwr s = .next t ∧ t.fault = some ⟨.windowUnset, s.pc⟩ ∧ t.ctl = s.ctl.closed ∧
        t.trace = s.trace ++ [⟨.cmd, s.cfg.opcRamwr⟩]) ∧
    ∀ xs xe ys ye : Word, s.ctl.xs = some xs → s.ctl.xe = some xe → s.ctl.ys = some ys → s.ctl.ye = some ye →
      (xe.toNat < xs.toNat ∨ ye.toNat < ys.toNat →
        ∃ t, exec .cRamwr s = .next t ∧
          t.fault = some ⟨.malformedWindow (int16 xs) (int16 ys) (int16 xe) (int16 ye), s.pc⟩ ∧
          t.ctl = s.ctl.closed ∧ t.trace = s.trace ++ [⟨.cmd, s.cfg.opcRamwr⟩]) ∧
      (xs.toNat ≤ xe.toNat → ys.toNat ≤ ye.toNat →
        frameW s.ctl.orient ≤ xe.toNat ∨ frameH s.ctl.orient ≤ ye.toNat →
        ∃ t, exec .cRamwr s = .next t ∧
          t.fault = some ⟨.outOfBounds (int16 xs) (int16 ys) (int16 xe) (int16 ye), s.pc⟩ ∧
          t.ctl = s.ctl.closed ∧ t.trace = s.trace ++ [⟨.cmd, s.cfg.opcRamwr⟩]) ∧
      (xs.toNat ≤ xe.toNat → ys.toNat ≤ ye.toNat → xe.toNat < frameW s.ctl.orient →
        ye.toNat < frameH s.ctl.orient →
        exec .cRamwr s = .next ((s.carry ⟨.cmd, s.cfg.opcRamwr⟩).setCtl
          { s.ctl with
            cmd := some .ramwr, pbuf := [], wpX := some xs, wpY := some ys, wpDone := false, hi := none }))

/-- 41_controller_commands.md R160 and 20_memory.md R62, R63: the bytes of a pixel stream. A high byte waits; a low byte
writes the cell that the pointer names at the current orientation, high byte first, and moves the pointer row-major; a
pixel after the last cell of the window raises `WindowOverrun` and writes nothing; a command byte after a high byte
raises `ParamError`. -/
def Obligations.PixelStreamBytes : Prop :=
  ∀ (s : State) (b : Byte), LinkUp s → s.ctl.cmd = some .ramwr →
    (s.ctl.hi = none →
      exec (.data b) s = .next ((s.carry ⟨.data, b⟩).setCtl { s.ctl with hi := some b })) ∧
    (∀ h : Byte, s.ctl.hi = some h → s.ctl.wpDone = true → s.fault = none →
      ∃ t, exec (.data b) s = .next t ∧ t.fault = some ⟨.windowOverrun (.pixel (h ++ b)), s.pc⟩ ∧
        t.ctl.gram = s.ctl.gram ∧ t.trace = s.trace ++ [⟨.data, b⟩]) ∧
    (s.ctl.hi ≠ none → s.fault = none →
      ∃ t, xfer ⟨.cmd, b⟩ s = .stop t ∧ t.fault = some ⟨.paramError .oddPixelByte, s.pc⟩ ∧ t.ctl = s.ctl) ∧
    ∀ (h : Byte) (x y xs xe ys ye : Word), MapsWf s.cfg → s.ctl.hi = some h → s.ctl.wpDone = false →
      s.ctl.wpX = some x → s.ctl.wpY = some y → s.ctl.xs = some xs → s.ctl.xe = some xe → s.ctl.ys = some ys →
      s.ctl.ye = some ye → x.toNat < frameW s.ctl.orient → y.toNat < frameH s.ctl.orient →
      (x.toNat < xe.toNat →
        exec (.data b) s = .next ((s.carry ⟨.data, b⟩).setCtl
          { s.ctl with
            hi := none, wpX := some (x + 1)
            gram := s.ctl.gram.write (cellKey s.cfg s.ctl.orient x.toNat y.toNat) (h ++ b) })) ∧
      (¬ x.toNat < xe.toNat → y.toNat < ye.toNat →
        exec (.data b) s = .next ((s.carry ⟨.data, b⟩).setCtl
          { s.ctl with
            hi := none, wpX := some xs, wpY := some (y + 1)
            gram := s.ctl.gram.write (cellKey s.cfg s.ctl.orient x.toNat y.toNat) (h ++ b) })) ∧
      (¬ x.toNat < xe.toNat → ¬ y.toNat < ye.toNat →
        exec (.data b) s = .next ((s.carry ⟨.data, b⟩).setCtl
          { s.ctl with
            hi := none, wpX := some xs, wpDone := true
            gram := s.ctl.gram.write (cellKey s.cfg s.ctl.orient x.toNat y.toNat) (h ++ b) }))

/-- 41_controller_commands.md R149: the phase each command needs, and `OrderViolation` with the command and the phase
in every other one, the last command closed (R144) and nothing else of the Controller changed. -/
def Obligations.PhaseAdmission : Prop :=
  (∀ p : Phase, admits .swreset p = true ∧
    (admits .slpout p = true ↔ p = .resetting) ∧ (admits .colmod p = true ↔ p = .sleepOut) ∧
    (admits .dispon p = true ↔ p = .colorModeSet) ∧ (admits .dispoff p = true ↔ p = .on) ∧
    (admits .caset p = true ↔ p = .on) ∧ (admits .raset p = true ↔ p = .on) ∧
    (admits .ramwr p = true ↔ p = .on) ∧ (admits .madctl p = true ↔ p = .on)) ∧
  ∀ (s : State) (k : Command), LinkUp s → s.ctl.closable = true → s.cfg.opcsDistinct = true → s.fault = none →
    admits k s.ctl.phase = false →
    ∃ t, exec k.instr s = .next t ∧ t.fault = some ⟨.orderViolation k s.ctl.phase, s.pc⟩ ∧ t.ctl = s.ctl.closed ∧
      t.trace = s.trace ++ [⟨.cmd, opcOf s.cfg k⟩] ∧ t.pc = s.pc

/-- 41_controller_commands.md R141 and R143: every unit faults while the reset line is active, and while a settle hold
is pending; the first check is the reset line's (R140). The Controller is left as it was. -/
def Obligations.ResetAndSettleHold : Prop :=
  ∀ (s : State) (u : BusUnit), s.busOpen = true → s.fault = none →
    (s.rst = .active →
      ∃ t, xfer u s = .stop t ∧ t.fault = some ⟨.resetActive u.dc u.byte, s.pc⟩ ∧ t.ctl = s.ctl ∧
        t.trace = s.trace ++ [u]) ∧
    ∀ k, s.rst = .inactive → s.ctl.settle = some k →
      ∃ t, xfer u s = .stop t ∧ t.fault = some ⟨.settleViolation k u.dc u.byte, s.pc⟩ ∧ t.ctl = s.ctl ∧
        t.trace = s.trace ++ [u]

/-- 41_controller_commands.md R145 to R148, R152 and R158: a stray data byte, a byte too many, a wrong pixel format or
orientation code, a command that comes too early for the last one's parameters or pixel, and an unknown command byte. -/
def Obligations.MalformedUnitsFault : Prop :=
  ∀ (s : State) (b : Byte), LinkUp s → s.fault = none →
    (s.ctl.cmd = none →
      ∃ t, xfer ⟨.data, b⟩ s = .stop t ∧ t.fault = some ⟨.paramError (.stray b), s.pc⟩ ∧ t.ctl = s.ctl) ∧
    (∀ k, s.ctl.cmd = some k → k ≠ .ramwr → s.ctl.pbuf.length = paramCount k → 0 < paramCount k →
      ∃ t, xfer ⟨.data, b⟩ s = .stop t ∧ t.fault = some ⟨.paramError (.extra k b), s.pc⟩ ∧ t.ctl = s.ctl) ∧
    (s.ctl.cmd = some .colmod → s.ctl.pbuf = [] → b ≠ s.cfg.colmod16 →
      ∃ t, xfer ⟨.data, b⟩ s = .stop t ∧ t.fault = some ⟨.paramError (.colmod b), s.pc⟩ ∧
        t.ctl.colmod = s.ctl.colmod ∧ t.ctl.phase = s.ctl.phase) ∧
    (s.ctl.cmd = some .madctl → s.ctl.pbuf = [] → (∀ o, b ≠ orientCodeOf s.cfg o) →
      ∃ t, xfer ⟨.data, b⟩ s = .stop t ∧ t.fault = some ⟨.paramError (.madctl b), s.pc⟩ ∧
        t.ctl.orient = s.ctl.orient) ∧
    (∀ k, s.ctl.cmd = some k → s.ctl.pbuf.length < paramCount k →
      ∃ t, xfer ⟨.cmd, b⟩ s = .stop t ∧ t.fault = some ⟨.paramError (.incomplete k), s.pc⟩ ∧ t.ctl = s.ctl) ∧
    (s.ctl.cmd = some .ramwr → s.ctl.hi ≠ none →
      ∃ t, xfer ⟨.cmd, b⟩ s = .stop t ∧ t.fault = some ⟨.paramError .oddPixelByte, s.pc⟩ ∧ t.ctl = s.ctl) ∧
    (s.ctl.closable = true → (∀ k, b ≠ opcOf s.cfg k) →
      ∃ t, xfer ⟨.cmd, b⟩ s = .stop t ∧ t.fault = some ⟨.unknownCommand b, s.pc⟩ ∧ t.ctl = s.ctl.closed)

/-- 41_controller_commands.md R161: no unit but a data byte of a pixel stream and SWRESET changes a cell, whatever the
transfer's outcome; SWRESET sets every cell to ⊥ and raises no fault, or leaves all of them and a fault is recorded.
And R156: in the states of the invariant, data writes cells in phase On alone. -/
def Obligations.OnlyPixelDataWritesGram : Prop :=
  (∀ (s t : State) (i : Instr) (u : BusUnit), s.cfg.opcsDistinct = true → encode s.cfg i = .unit u →
    exec i s = .next t → i ≠ .cSwreset → (∀ b, i = .data b → s.ctl.cmd ≠ some .ramwr) → t.ctl.gram = s.ctl.gram) ∧
  (∀ s t : State, s.cfg.opcsDistinct = true → exec .cSwreset s = .next t →
    (t.fault ≠ none ∧ t.ctl.gram = s.ctl.gram) ∨ (t.fault = s.fault ∧ ∀ a, t.ctl.gram.read a = none)) ∧
  ∀ (s t : State) (b : Byte), BlockInv s → exec (.data b) s = .next t → s.ctl.phase ≠ .on → t.ctl.gram = s.ctl.gram

/-- The phase machine, which 41_controller_commands.md section 2 derives (R155): the only changes of the phase, by
instruction, and the phase each starts from. RESET and INIT, which reset, are not in it (R190, R191). -/
def Obligations.PhaseMachine : Prop :=
  ∀ (i : Instr) (s t : State), BlockInv s → exec i s = .next t → i ≠ .reset → i ≠ .init → t.ctl.phase ≠ s.ctl.phase →
    (i = .cSwreset ∧ t.ctl.phase = .resetting) ∨
    (i = .cSlpout ∧ s.ctl.phase = .resetting ∧ t.ctl.phase = .sleepOut) ∨
    (i = .data s.cfg.colmod16 ∧ s.ctl.cmd = some .colmod ∧ s.ctl.phase = .sleepOut ∧ t.ctl.phase = .colorModeSet) ∨
    (i = .cDispon ∧ s.ctl.phase = .colorModeSet ∧ t.ctl.phase = .on) ∨
    (i = .cDispoff ∧ s.ctl.phase = .on ∧ t.ctl.phase = .colorModeSet)

/-- The frame of the bus units, for every outcome: the registers that no unit writes, and the Controller's registers
that each unit leaves alone. -/
def Obligations.BusUnitFrames : Prop :=
  ∀ (i : Instr) (u : BusUnit) (s t : State), encode s.cfg i = .unit u → s.cfg.opcsDistinct = true →
    exec i s = .next t →
    EngineKept s t ∧ t.pc = s.pc ∧ (t.trace = s.trace ∨ t.trace = s.trace ++ [u]) ∧
    (i ≠ .cSwreset → (∀ b, i ≠ .data b) →
      t.ctl.colmod = s.ctl.colmod ∧ t.ctl.orient = s.ctl.orient ∧ t.ctl.xs = s.ctl.xs ∧ t.ctl.xe = s.ctl.xe ∧
      t.ctl.ys = s.ctl.ys ∧ t.ctl.ye = s.ctl.ye ∧ t.ctl.gram = s.ctl.gram ∧
      (i ≠ .cSlpout → t.ctl.settle = s.ctl.settle) ∧
      (i ≠ .cSlpout → i ≠ .cDispon → i ≠ .cDispoff → t.ctl.phase = s.ctl.phase) ∧
      (i ≠ .cRamwr → t.ctl.wpX = s.ctl.wpX ∧ t.ctl.wpY = s.ctl.wpY ∧ t.ctl.wpDone = s.ctl.wpDone)) ∧
    (∀ b, i = .data b →
      t.ctl.settle = s.ctl.settle ∧ t.ctl.cmd = s.ctl.cmd ∧
      (s.ctl.cmd ≠ some .colmod → t.ctl.phase = s.ctl.phase ∧ t.ctl.colmod = s.ctl.colmod) ∧
      (s.ctl.cmd ≠ some .madctl → t.ctl.orient = s.ctl.orient) ∧
      (s.ctl.cmd ≠ some .caset → t.ctl.xs = s.ctl.xs ∧ t.ctl.xe = s.ctl.xe) ∧
      (s.ctl.cmd ≠ some .raset → t.ctl.ys = s.ctl.ys ∧ t.ctl.ye = s.ctl.ye) ∧
      (s.ctl.cmd ≠ some .ramwr → t.ctl.gram = s.ctl.gram ∧ t.ctl.wpX = s.ctl.wpX ∧ t.ctl.wpY = s.ctl.wpY ∧
        t.ctl.wpDone = s.ctl.wpDone ∧ t.ctl.hi = s.ctl.hi) ∧
      ∀ a, (∀ x y, s.ctl.wpX = some x → s.ctl.wpY = some y → a ≠ cellKey s.cfg s.ctl.orient x.toNat y.toNat) →
        t.ctl.gram.read a = s.ctl.gram.read a)

/-! ### The controller protocol -/

/-- 42_controller_protocol.md R207: every operation with the drawing gate, in every phase but On, raises `NotOn` with
its opcode, and nothing else changes; and no other instruction raises `NotOn`. -/
def Obligations.DrawingGate : Prop :=
  (∀ (i : Instr) (op : Byte) (s : State), gatedOpcode i = some op → s.ctl.phase ≠ .on → s.fault = none →
    exec i s = .next { s with fault := some ⟨.notOn op, s.pc⟩ }) ∧
  ∀ (i : Instr) (s t : State) (op : Byte) (n : Nat), gatedOpcode i = none → s.fault = none → exec i s = .next t →
    t.fault ≠ some ⟨.notOn op, n⟩

/-- 42_controller_protocol.md R194 and R195: SET_ORIENT, for every value of the degrees; the index; and its frame, for
every outcome: GRAM and the window registers are kept. -/
def Obligations.SetOrientResult : Prop :=
  (∀ (cfg : Config) (deg : Word), encode cfg (.setOrient deg) = .packet [0x05, hi8 deg, lo8 deg]) ∧
  (∀ deg : Word, orientOfDegrees deg =
    if deg = 90 then .o90 else if deg = 180 then .o180 else if deg = 270 then .o270 else .o0) ∧
  (frameW .o0 = 128 ∧ frameH .o0 = 160 ∧ frameW .o90 = 160 ∧ frameH .o90 = 128 ∧ frameW .o180 = 128 ∧
    frameH .o180 = 160 ∧ frameW .o270 = 160 ∧ frameH .o270 = 128) ∧
  (∀ (s : State) (deg : Word), Drawing s →
    exec (.setOrient deg) s = .next
      ((({ s with pc := s.pc + 1 }.carry ⟨.cmd, s.cfg.opcMadctl⟩).carry
        ⟨.data, orientCodeOf s.cfg (orientOfDegrees deg)⟩).setCtl
          { s.ctl with
            orient := orientOfDegrees deg, cmd := some .madctl
            pbuf := [orientCodeOf s.cfg (orientOfDegrees deg)], hi := none })) ∧
  (∀ (s : State) (deg : Word), s.ctl.phase ≠ .on → s.fault = none →
    exec (.setOrient deg) s = .next { s with fault := some ⟨.notOn 0x05, s.pc⟩ }) ∧
  (∀ (s : State) (deg : Word), s.ctl.phase = .on → s.busOpen = false → s.fault = none →
    exec (.setOrient deg) s = .next { s with fault := some ⟨.busClosed .cmd s.cfg.opcMadctl, s.pc⟩ }) ∧
  ∀ (s t : State) (deg : Word), s.cfg.opcsDistinct = true → exec (.setOrient deg) s = .next t →
    EngineKept s t ∧ t.ctl.phase = s.ctl.phase ∧ t.ctl.settle = s.ctl.settle ∧ t.ctl.colmod = s.ctl.colmod ∧
      t.ctl.xs = s.ctl.xs ∧ t.ctl.xe = s.ctl.xe ∧ t.ctl.ys = s.ctl.ys ∧ t.ctl.ye = s.ctl.ye ∧
      t.ctl.gram = s.ctl.gram ∧ t.ctl.wpX = s.ctl.wpX ∧ t.ctl.wpY = s.ctl.wpY ∧ t.ctl.wpDone = s.ctl.wpDone

/-- 42_controller_protocol.md R200: SET_WINDOW, its checks in order, and the ten units of a window that passes them: as
a sub-operation, whose operands may lie outside 0..255 and below 0, and as an instruction. -/
def Obligations.SetWindowResult : Prop :=
  (∀ (cfg : Config) (x0 y0 x1 y1 : Byte), encode cfg (.setWindow x0 y0 x1 y1) = .packet [0x06, x0, y0, x1, y1]) ∧
  (∀ (s : State) (x0 y0 x1 y1 : Int),
    (s.ctl.phase ≠ .on → s.fault = none →
      opSetWindow x0 y0 x1 y1 s = .stop { s with fault := some ⟨.notOn 0x06, s.pc⟩ }) ∧
    (s.ctl.phase = .on → s.fault = none → x1 < x0 ∨ y1 < y0 →
      opSetWindow x0 y0 x1 y1 s = .stop { s with fault := some ⟨.malformedWindow x0 y0 x1 y1, s.pc⟩ }) ∧
    (s.ctl.phase = .on → s.fault = none → x0 ≤ x1 → y0 ≤ y1 →
      x0 < 0 ∨ y0 < 0 ∨ (frameW s.ctl.orient : Int) ≤ x1 ∨ (frameH s.ctl.orient : Int) ≤ y1 →
      opSetWindow x0 y0 x1 y1 s = .stop { s with fault := some ⟨.outOfBounds x0 y0 x1 y1, s.pc⟩ }) ∧
    (s.ctl.phase = .on → s.fault = none → s.busOpen = false → WindowIn s.ctl.orient x0 y0 x1 y1 →
      opSetWindow x0 y0 x1 y1 s = .stop { s with fault := some ⟨.busClosed .cmd s.cfg.opcCaset, s.pc⟩ }) ∧
    (Drawing s → WindowIn s.ctl.orient x0 y0 x1 y1 →
      opSetWindow x0 y0 x1 y1 s = .ok
        ((s.carryAll
          [⟨.cmd, s.cfg.opcCaset⟩, ⟨.data, 0⟩, ⟨.data, BitVec.ofInt 8 x0⟩, ⟨.data, 0⟩, ⟨.data, BitVec.ofInt 8 x1⟩,
           ⟨.cmd, s.cfg.opcRaset⟩, ⟨.data, 0⟩, ⟨.data, BitVec.ofInt 8 y0⟩, ⟨.data, 0⟩,
           ⟨.data, BitVec.ofInt 8 y1⟩]).setCtl
          { s.ctl with
            xs := some (BitVec.ofInt 16 x0), xe := some (BitVec.ofInt 16 x1), ys := some (BitVec.ofInt 16 y0)
            ye := some (BitVec.ofInt 16 y1), cmd := some .raset
            pbuf := [0, BitVec.ofInt 8 y0, 0, BitVec.ofInt 8 y1], hi := none }))) ∧
  ∀ (s : State) (x0 y0 x1 y1 : Byte),
    (s.ctl.phase ≠ .on → s.fault = none →
      exec (.setWindow x0 y0 x1 y1) s = .next { s with fault := some ⟨.notOn 0x06, s.pc⟩ }) ∧
    (s.ctl.phase = .on → s.fault = none → x1.toNat < x0.toNat ∨ y1.toNat < y0.toNat →
      exec (.setWindow x0 y0 x1 y1) s = .next
        { s with fault := some ⟨.malformedWindow x0.toNat y0.toNat x1.toNat y1.toNat, s.pc⟩ }) ∧
    (s.ctl.phase = .on → s.fault = none → x0.toNat ≤ x1.toNat → y0.toNat ≤ y1.toNat →
      frameW s.ctl.orient ≤ x1.toNat ∨ frameH s.ctl.orient ≤ y1.toNat →
      exec (.setWindow x0 y0 x1 y1) s = .next
        { s with fault := some ⟨.outOfBounds x0.toNat y0.toNat x1.toNat y1.toNat, s.pc⟩ }) ∧
    (s.ctl.phase = .on → s.fault = none → x0.toNat ≤ x1.toNat → y0.toNat ≤ y1.toNat →
      x1.toNat < frameW s.ctl.orient → y1.toNat < frameH s.ctl.orient → s.busOpen = false →
      exec (.setWindow x0 y0 x1 y1) s = .next { s with fault := some ⟨.busClosed .cmd s.cfg.opcCaset, s.pc⟩ }) ∧
    (Drawing s → x0.toNat ≤ x1.toNat → y0.toNat ≤ y1.toNat → x1.toNat < frameW s.ctl.orient →
      y1.toNat < frameH s.ctl.orient →
      exec (.setWindow x0 y0 x1 y1) s = .next
        (({ s with pc := s.pc + 1 }.carryAll
          [⟨.cmd, s.cfg.opcCaset⟩, ⟨.data, 0⟩, ⟨.data, x0⟩, ⟨.data, 0⟩, ⟨.data, x1⟩,
           ⟨.cmd, s.cfg.opcRaset⟩, ⟨.data, 0⟩, ⟨.data, y0⟩, ⟨.data, 0⟩, ⟨.data, y1⟩]).setCtl
          { s.ctl with
            xs := some (x0.setWidth 16), xe := some (x1.setWidth 16), ys := some (y0.setWidth 16)
            ye := some (y1.setWidth 16), cmd := some .raset, pbuf := [0, y0, 0, y1], hi := none }))

/-- 42_controller_protocol.md R204: WRITE_PIXELS, its checks in order, and the n pixels it streams into the latched
window from its start in row-major order; n = 0 sends RAMWR alone. The window stays (R202). -/
def Obligations.WritePixelsResult : Prop :=
  (∀ (cfg : Config) (c : Color) (n : Word),
    encode cfg (.writePixels c n) = .packet [0x07, hi8 c, lo8 c, hi8 n, lo8 n]) ∧
  ∀ (s : State) (c : Color) (n : Word),
    (s.ctl.phase ≠ .on → s.fault = none →
      exec (.writePixels c n) s = .next { s with fault := some ⟨.notOn 0x07, s.pc⟩ }) ∧
    (s.ctl.phase = .on → s.fault = none →
      s.ctl.xs = none ∨ s.ctl.xe = none ∨ s.ctl.ys = none ∨ s.ctl.ye = none →
      exec (.writePixels c n) s = .next { s with fault := some ⟨.windowUnset, s.pc⟩ }) ∧
    ∀ xs xe ys ye : Word, s.ctl.xs = some xs → s.ctl.xe = some xe → s.ctl.ys = some ys → s.ctl.ye = some ye →
      (s.ctl.phase = .on → s.fault = none →
        (int16 xe - int16 xs + 1) * (int16 ye - int16 ys + 1) < n.toNat →
        exec (.writePixels c n) s = .next { s with fault := some ⟨.windowOverrun (.count n.toNat), s.pc⟩ }) ∧
      (s.ctl.phase = .on → s.fault = none → s.busOpen = false →
        (n.toNat : Int) ≤ (int16 xe - int16 xs + 1) * (int16 ye - int16 ys + 1) →
        exec (.writePixels c n) s = .next { s with fault := some ⟨.busClosed .cmd s.cfg.opcRamwr, s.pc⟩ }) ∧
      (Drawing s → MapsWf s.cfg → s.fault = none → xs.toNat ≤ xe.toNat → ys.toNat ≤ ye.toNat →
        frameW s.ctl.orient ≤ xe.toNat ∨ frameH s.ctl.orient ≤ ye.toNat →
        n.toNat ≤ (xe.toNat - xs.toNat + 1) * (ye.toNat - ys.toNat + 1) →
        ∃ t, exec (.writePixels c n) s = .next t ∧
          t.fault = some ⟨.outOfBounds (int16 xs) (int16 ys) (int16 xe) (int16 ye), s.pc⟩ ∧
          t.ctl.gram = s.ctl.gram ∧ t.trace = s.trace ++ [⟨.cmd, s.cfg.opcRamwr⟩]) ∧
      (Drawing s → MapsWf s.cfg → xs.toNat ≤ xe.toNat → ys.toNat ≤ ye.toNat → xe.toNat < frameW s.ctl.orient →
        ye.toNat < frameH s.ctl.orient → n.toNat ≤ (xe.toNat - xs.toNat + 1) * (ye.toNat - ys.toNat + 1) →
        ∃ t, exec (.writePixels c n) s = .next t ∧
          Drew 1 s t (⟨.cmd, s.cfg.opcRamwr⟩ :: pixelUnits c n.toNat)
            (firstPositions (int16 xs) (int16 ys) (int16 xe) n.toNat) c ∧
          WindowIs t (int16 xs) (int16 ys) (int16 xe) (int16 ye))

/-- The units of one window write, counted, which 42_controller_protocol.md section 4 derives: 3 command units, 2n + 8
data units, and after RAMWR exactly the 2n pixel bytes, high byte first. -/
def Obligations.WindowWriteUnitCounts : Prop :=
  ∀ (cfg : Config) (x0 y0 x1 y1 : Int) (c : Color) (n : Nat),
    (windowWriteUnits cfg x0 y0 x1 y1 c n).length = 11 + 2 * n ∧
    (windowWriteUnits cfg x0 y0 x1 y1 c n).countP (fun u => decide (u.dc = .cmd)) = 3 ∧
    (windowWriteUnits cfg x0 y0 x1 y1 c n).countP (fun u => decide (u.dc = .data)) = 2 * n + 8 ∧
    (windowWriteUnits cfg x0 y0 x1 y1 c n)[10]? = some ⟨.cmd, cfg.opcRamwr⟩ ∧
    ∀ k, k < n → (windowWriteUnits cfg x0 y0 x1 y1 c n)[11 + 2 * k]? = some ⟨.data, c.extractLsb' 8 8⟩ ∧
      (windowWriteUnits cfg x0 y0 x1 y1 c n)[12 + 2 * k]? = some ⟨.data, c.extractLsb' 0 8⟩

/-- The frame of every operation that draws, streams or latches a window, for every outcome: the Engine's other
registers, the phase, the settle hold, the pixel format and the orientation stay, and every cell that the operation's
own positions do not name reads as before. SET_WINDOW has no position. -/
def Obligations.DrawingFrame : Prop :=
  ∀ (i : Instr) (op : Byte) (s t : State), gatedOpcode i = some op → (∀ deg, i ≠ .setOrient deg) →
    s.cfg.opcsDistinct = true → exec i s = .next t →
    DrawKept s t ∧
      ∀ a, a ∉ (drawnPositions s i).map (positionKey s.cfg s.ctl.orient) → t.ctl.gram.read a = s.ctl.gram.read a

/-! ### Basic geometry -/

/-- 43_geometry_basic.md R222: PIXEL. -/
def Obligations.PixelResult : Prop :=
  (∀ (cfg : Config) (x y : Byte) (c : Color), encode cfg (.pixel x y c) = .packet [0x10, x, y, hi8 c, lo8 c]) ∧
  ∀ (s : State) (x y : Byte) (c : Color),
    (s.ctl.phase ≠ .on → s.fault = none →
      exec (.pixel x y c) s = .next { s with fault := some ⟨.notOn 0x10, s.pc⟩ }) ∧
    (s.ctl.phase = .on → s.fault = none → frameW s.ctl.orient ≤ x.toNat ∨ frameH s.ctl.orient ≤ y.toNat →
      exec (.pixel x y c) s = .next
        { s with fault := some ⟨.outOfBounds x.toNat y.toNat x.toNat y.toNat, s.pc⟩ }) ∧
    (s.ctl.phase = .on → s.fault = none → s.busOpen = false → x.toNat < frameW s.ctl.orient →
      y.toNat < frameH s.ctl.orient →
      exec (.pixel x y c) s = .next { s with fault := some ⟨.busClosed .cmd s.cfg.opcCaset, s.pc⟩ }) ∧
    (Drawing s → MapsWf s.cfg → x.toNat < frameW s.ctl.orient → y.toNat < frameH s.ctl.orient →
      ∃ t, exec (.pixel x y c) s = .next t ∧
        Drew 1 s t
          [⟨.cmd, s.cfg.opcCaset⟩, ⟨.data, 0⟩, ⟨.data, x⟩, ⟨.data, 0⟩, ⟨.data, x⟩,
           ⟨.cmd, s.cfg.opcRaset⟩, ⟨.data, 0⟩, ⟨.data, y⟩, ⟨.data, 0⟩, ⟨.data, y⟩,
           ⟨.cmd, s.cfg.opcRamwr⟩, ⟨.data, hi8 c⟩, ⟨.data, lo8 c⟩] [((x.toNat : Int), (y.toNat : Int))] c ∧
        WindowIs t x.toNat y.toNat x.toNat y.toNat)

/-- 43_geometry_basic.md R223: HLINE, with a length of 0 and a run that leaves the frame; as a sub-operation, a length
above 255 always leaves it; and its 3 command units. -/
def Obligations.HlineResult : Prop :=
  (∀ (cfg : Config) (x y len : Byte) (c : Color),
    encode cfg (.hline x y len c) = .packet [0x11, x, y, len, hi8 c, lo8 c]) ∧
  (∀ (s : State) (x y len : Int) (c : Color), s.ctl.phase = .on → s.fault = none → 255 < len →
    opHline x y len c s = .stop { s with fault := some ⟨.outOfBounds x y (x + len - 1) y, s.pc⟩ }) ∧
  (∀ (cfg : Config) (x y len : Byte) (c : Color), (hlineUnits cfg c (int8 x, int8 y, int8 len)).countP
    (fun u => decide (u.dc = .cmd)) = 3) ∧
  ∀ (s : State) (x y len : Byte) (c : Color),
    (s.ctl.phase ≠ .on → s.fault = none →
      exec (.hline x y len c) s = .next { s with fault := some ⟨.notOn 0x11, s.pc⟩ }) ∧
    (s.ctl.phase = .on → s.fault = none → len = 0 →
      exec (.hline x y len c) s = .next
        { s with fault := some ⟨.malformedWindow x.toNat y.toNat ((x.toNat : Int) - 1) y.toNat, s.pc⟩ }) ∧
    (s.ctl.phase = .on → s.fault = none → 0 < len.toNat →
      frameW s.ctl.orient < x.toNat + len.toNat ∨ frameH s.ctl.orient ≤ y.toNat →
      exec (.hline x y len c) s = .next
        { s with
          fault := some ⟨.outOfBounds x.toNat y.toNat ((x.toNat : Int) + len.toNat - 1) y.toNat, s.pc⟩ }) ∧
    (s.ctl.phase = .on → s.fault = none → s.busOpen = false → 0 < len.toNat →
      x.toNat + len.toNat ≤ frameW s.ctl.orient → y.toNat < frameH s.ctl.orient →
      exec (.hline x y len c) s = .next { s with fault := some ⟨.busClosed .cmd s.cfg.opcCaset, s.pc⟩ }) ∧
    (Drawing s → MapsWf s.cfg → 0 < len.toNat → x.toNat + len.toNat ≤ frameW s.ctl.orient →
      y.toNat < frameH s.ctl.orient →
      ∃ t, exec (.hline x y len c) s = .next t ∧
        Drew 1 s t (windowWriteUnits s.cfg x.toNat y.toNat ((x.toNat : Int) + len.toNat - 1) y.toNat c len.toNat)
          ((List.range len.toNat).map fun k => (((x.toNat + k : Nat) : Int), (y.toNat : Int))) c ∧
        WindowIs t x.toNat y.toNat ((x.toNat : Int) + len.toNat - 1) y.toNat)

/-- 43_geometry_basic.md R224: VLINE, with a length of 0 and a run that leaves the frame. -/
def Obligations.VlineResult : Prop :=
  (∀ (cfg : Config) (x y len : Byte) (c : Color),
    encode cfg (.vline x y len c) = .packet [0x12, x, y, len, hi8 c, lo8 c]) ∧
  ∀ (s : State) (x y len : Byte) (c : Color),
    (s.ctl.phase ≠ .on → s.fault = none →
      exec (.vline x y len c) s = .next { s with fault := some ⟨.notOn 0x12, s.pc⟩ }) ∧
    (s.ctl.phase = .on → s.fault = none → len = 0 →
      exec (.vline x y len c) s = .next
        { s with fault := some ⟨.malformedWindow x.toNat y.toNat x.toNat ((y.toNat : Int) - 1), s.pc⟩ }) ∧
    (s.ctl.phase = .on → s.fault = none → 0 < len.toNat →
      frameW s.ctl.orient ≤ x.toNat ∨ frameH s.ctl.orient < y.toNat + len.toNat →
      exec (.vline x y len c) s = .next
        { s with
          fault := some ⟨.outOfBounds x.toNat y.toNat x.toNat ((y.toNat : Int) + len.toNat - 1), s.pc⟩ }) ∧
    (s.ctl.phase = .on → s.fault = none → s.busOpen = false → 0 < len.toNat →
      x.toNat < frameW s.ctl.orient → y.toNat + len.toNat ≤ frameH s.ctl.orient →
      exec (.vline x y len c) s = .next { s with fault := some ⟨.busClosed .cmd s.cfg.opcCaset, s.pc⟩ }) ∧
    (Drawing s → MapsWf s.cfg → 0 < len.toNat → x.toNat < frameW s.ctl.orient →
      y.toNat + len.toNat ≤ frameH s.ctl.orient →
      ∃ t, exec (.vline x y len c) s = .next t ∧
        Drew 1 s t (windowWriteUnits s.cfg x.toNat y.toNat x.toNat ((y.toNat : Int) + len.toNat - 1) c len.toNat)
          ((List.range len.toNat).map fun k => ((x.toNat : Int), ((y.toNat + k : Nat) : Int))) c ∧
        WindowIs t x.toNat y.toNat x.toNat ((y.toNat : Int) + len.toNat - 1))

/-- The properties that 43_geometry_basic.md section 3 derives for the line point sequence, for every pair of
endpoints: both endpoints, exactly max(dx, dy) + 1 points, none twice, each pair of neighbours at most one apart on
each axis and exactly one apart on the dominant axis. The loop ends by itself: a larger bound than the model's gives
the same points (log entry 16). -/
def Obligations.LinePointsProperties : Prop :=
  ∀ x0 y0 x1 y1 : Int,
    (linePoints x0 y0 x1 y1).head? = some (x0, y0) ∧
    (linePoints x0 y0 x1 y1).getLast? = some (x1, y1) ∧
    (linePoints x0 y0 x1 y1).length = max (x1 - x0).natAbs (y1 - y0).natAbs + 1 ∧
    (linePoints x0 y0 x1 y1).Nodup ∧
    (∀ extra : Nat, lineLoop (x1 - x0).natAbs (y1 - y0).natAbs (if x0 < x1 then 1 else -1) (if y0 < y1 then 1 else -1)
      x1 y1 (max (x1 - x0).natAbs (y1 - y0).natAbs + 1 + extra)
      (Int.tdiv (if (y1 - y0).natAbs < (x1 - x0).natAbs then ((x1 - x0).natAbs : Int) else -((y1 - y0).natAbs : Int)) 2)
      x0 y0 = linePoints x0 y0 x1 y1) ∧
    ∀ (k : Nat) (p q : Int × Int), (linePoints x0 y0 x1 y1)[k]? = some p →
      (linePoints x0 y0 x1 y1)[k + 1]? = some q →
      (q.1 - p.1).natAbs ≤ 1 ∧ (q.2 - p.2).natAbs ≤ 1 ∧
      ((y1 - y0).natAbs ≤ (x1 - x0).natAbs → (q.1 - p.1).natAbs = 1) ∧
      ((x1 - x0).natAbs ≤ (y1 - y0).natAbs → (q.2 - p.2).natAbs = 1)

/-- 43_geometry_basic.md R226: LINE between two points of the frame plots the points of `linePoints` in order, in
13·(max(dx, dy) + 1) units, whatever the order of the endpoints; the window is the last point. With the bus closed and
its first point in the frame it raises `BusClosed`. -/
def Obligations.LineResult : Prop :=
  (∀ (s : State) (x0 y0 x1 y1 : Byte) (c : Color), s.ctl.phase = .on → s.fault = none → s.busOpen = false →
    x0.toNat < frameW s.ctl.orient → y0.toNat < frameH s.ctl.orient →
    exec (.line x0 y0 x1 y1 c) s = .next { s with fault := some ⟨.busClosed .cmd s.cfg.opcCaset, s.pc⟩ }) ∧
  ∀ (s : State) (x0 y0 x1 y1 : Byte) (c : Color), Drawing s → MapsWf s.cfg →
    x0.toNat < frameW s.ctl.orient → x1.toNat < frameW s.ctl.orient → y0.toNat < frameH s.ctl.orient →
    y1.toNat < frameH s.ctl.orient →
    ((linePoints x0.toNat y0.toNat x1.toNat y1.toNat).flatMap (plotUnits s.cfg c)).length =
      13 * (max ((x1.toNat : Int) - x0.toNat).natAbs ((y1.toNat : Int) - y0.toNat).natAbs + 1) ∧
    ∃ t, exec (.line x0 y0 x1 y1 c) s = .next t ∧
      Drew 1 s t ((linePoints x0.toNat y0.toNat x1.toNat y1.toNat).flatMap (plotUnits s.cfg c))
        (linePoints x0.toNat y0.toNat x1.toNat y1.toNat) c ∧
      WindowIs t x1.toNat y1.toNat x1.toNat y1.toNat

/-- 43_geometry_basic.md R227: RECT with its corners in the frame, in any order, draws its four edges as lines: top,
bottom, left, right; and the cells it writes are those of the outline. With the bus closed and its first
point in the frame it raises `BusClosed`. -/
def Obligations.RectResult : Prop :=
  (∀ (s : State) (x0 y0 x1 y1 : Byte) (c : Color), s.ctl.phase = .on → s.fault = none → s.busOpen = false →
    x0.toNat < frameW s.ctl.orient → y0.toNat < frameH s.ctl.orient →
    exec (.rect x0 y0 x1 y1 c) s = .next { s with fault := some ⟨.busClosed .cmd s.cfg.opcCaset, s.pc⟩ }) ∧
  ∀ (s : State) (x0 y0 x1 y1 : Byte) (c : Color), Drawing s → MapsWf s.cfg →
    x0.toNat < frameW s.ctl.orient → x1.toNat < frameW s.ctl.orient → y0.toNat < frameH s.ctl.orient →
    y1.toNat < frameH s.ctl.orient →
    ∃ t us ps, exec (.rect x0 y0 x1 y1 c) s = .next t ∧ Drew 1 s t us ps c ∧
      us = ps.flatMap (plotUnits s.cfg c) ∧
      ps = linePoints x0.toNat y0.toNat x1.toNat y0.toNat ++ linePoints x0.toNat y1.toNat x1.toNat y1.toNat ++
        linePoints x0.toNat y0.toNat x0.toNat y1.toNat ++ linePoints x1.toNat y0.toNat x1.toNat y1.toNat ∧
      us.length = 13 * (2 * (((x1.toNat : Int) - x0.toNat).natAbs + 1) +
        2 * (((y1.toNat : Int) - y0.toNat).natAbs + 1)) ∧
      ∀ x y : Nat, ((x : Int), (y : Int)) ∈ ps ↔
        min x0.toNat x1.toNat ≤ x ∧ x ≤ max x0.toNat x1.toNat ∧ min y0.toNat y1.toNat ≤ y ∧
          y ≤ max y0.toNat y1.toNat ∧ (x = x0.toNat ∨ x = x1.toNat ∨ y = y0.toNat ∨ y = y1.toNat)

/-- 43_geometry_basic.md R228: FILL_RECT, with its corners unsorted, outside the frame, and in it. -/
def Obligations.FillRectResult : Prop :=
  (∀ (cfg : Config) (x0 y0 x1 y1 : Byte) (c : Color),
    encode cfg (.fillRect x0 y0 x1 y1 c) = .packet [0x15, x0, y0, x1, y1, hi8 c, lo8 c]) ∧
  ∀ (s : State) (x0 y0 x1 y1 : Byte) (c : Color),
    (s.ctl.phase ≠ .on → s.fault = none →
      exec (.fillRect x0 y0 x1 y1 c) s = .next { s with fault := some ⟨.notOn 0x15, s.pc⟩ }) ∧
    (s.ctl.phase = .on → s.fault = none → x1.toNat < x0.toNat ∨ y1.toNat < y0.toNat →
      exec (.fillRect x0 y0 x1 y1 c) s = .next
        { s with fault := some ⟨.malformedWindow x0.toNat y0.toNat x1.toNat y1.toNat, s.pc⟩ }) ∧
    (s.ctl.phase = .on → s.fault = none → x0.toNat ≤ x1.toNat → y0.toNat ≤ y1.toNat →
      frameW s.ctl.orient ≤ x1.toNat ∨ frameH s.ctl.orient ≤ y1.toNat →
      exec (.fillRect x0 y0 x1 y1 c) s = .next
        { s with fault := some ⟨.outOfBounds x0.toNat y0.toNat x1.toNat y1.toNat, s.pc⟩ }) ∧
    (s.ctl.phase = .on → s.fault = none → s.busOpen = false → x0.toNat ≤ x1.toNat → y0.toNat ≤ y1.toNat →
      x1.toNat < frameW s.ctl.orient → y1.toNat < frameH s.ctl.orient →
      exec (.fillRect x0 y0 x1 y1 c) s = .next { s with fault := some ⟨.busClosed .cmd s.cfg.opcCaset, s.pc⟩ }) ∧
    (Drawing s → MapsWf s.cfg → x0.toNat ≤ x1.toNat → y0.toNat ≤ y1.toNat → x1.toNat < frameW s.ctl.orient →
      y1.toNat < frameH s.ctl.orient →
      ∃ t, exec (.fillRect x0 y0 x1 y1 c) s = .next t ∧
        Drew 1 s t (windowWriteUnits s.cfg x0.toNat y0.toNat x1.toNat y1.toNat c
          ((x1.toNat - x0.toNat + 1) * (y1.toNat - y0.toNat + 1)))
          (firstPositions x0.toNat y0.toNat x1.toNat ((x1.toNat - x0.toNat + 1) * (y1.toNat - y0.toNat + 1))) c ∧
        WindowIs t x0.toNat y0.toNat x1.toNat y1.toNat ∧
        ∀ x y : Int, (x, y) ∈ firstPositions x0.toNat y0.toNat x1.toNat
            ((x1.toNat - x0.toNat + 1) * (y1.toNat - y0.toNat + 1)) ↔
          (x0.toNat : Int) ≤ x ∧ x ≤ x1.toNat ∧ (y0.toNat : Int) ≤ y ∧ y ≤ y1.toNat)

/-- 43_geometry_basic.md R229: CLEAR writes 0x0000 to every cell of the array, at every orientation and for every legal
map, in 40971 units. -/
def Obligations.ClearResult : Prop :=
  (∀ cfg : Config, encode cfg .clear = .packet [0x16]) ∧
  ∀ s : State,
    (s.ctl.phase ≠ .on → s.fault = none →
      exec .clear s = .next { s with fault := some ⟨.notOn 0x16, s.pc⟩ }) ∧
    (s.ctl.phase = .on → s.fault = none → s.busOpen = false →
      exec .clear s = .next { s with fault := some ⟨.busClosed .cmd s.cfg.opcCaset, s.pc⟩ }) ∧
    (Drawing s → MapsWf s.cfg →
      ∃ t us, exec .clear s = .next t ∧
        Drew 1 s t us (firstPositions 0 0 ((frameW s.ctl.orient : Int) - 1) 20480) 0x0000 ∧
        us = windowWriteUnits s.cfg 0 0 ((frameW s.ctl.orient : Int) - 1) ((frameH s.ctl.orient : Int) - 1) 0x0000
          20480 ∧
        us.length = 40971 ∧
        WindowIs t 0 0 ((frameW s.ctl.orient : Int) - 1) ((frameH s.ctl.orient : Int) - 1) ∧
        ∀ px py, px < 128 → py < 160 → t.ctl.gram.cell px py = some 0x0000)

/-- 43_geometry_basic.md R220, R226, 44_geometry_curves.md R254, R255, R259 and 60_exceptions.md R300, R303: an
operation that plots stops at its first point outside the frame, and one that draws spans at its first span (or corner
point) outside it. It raises `OutOfBounds` there (for a span with no cell, `MalformedWindow`) with its own index; the
points and spans before it are sent and written, and nothing after. -/
def Obligations.PlottingStopsAtFirstPointOutside : Prop :=
  (∀ (i : Instr) (s : State) (pre post : List (Int × Int)) (p : Int × Int) (c : Color), Drawing s → MapsWf s.cfg →
    s.fault = none → plottedPoints i = some (pre ++ p :: post, c) → (∀ q ∈ pre, InFrame s.ctl.orient q) →
    ¬ InFrame s.ctl.orient p →
    ∃ t, exec i s = .next t ∧ t.fault = some ⟨.outOfBounds p.1 p.2 p.1 p.2, s.pc⟩ ∧ t.pc = s.pc ∧
      t.trace = s.trace ++ pre.flatMap (plotUnits s.cfg c) ∧ Painted s t pre c ∧ DrawKept s t) ∧
  ∀ (i : Instr) (s : State) (pre post : List Window) (w : Window) (c : Color), Drawing s → MapsWf s.cfg →
    s.fault = none → spanWindows i = some (pre ++ w :: post, c) → (∀ v ∈ pre, v.In s.ctl.orient) →
    ¬ w.In s.ctl.orient →
    ∃ t, exec i s = .next t ∧ t.fault = some ⟨w.faultInfo, s.pc⟩ ∧ t.pc = s.pc ∧
      t.trace = s.trace ++ pre.flatMap (Window.units s.cfg c) ∧ Painted s t (pre.flatMap Window.positions) c ∧
      DrawKept s t

/-! ### Curves -/

/-- 44_geometry_curves.md R250 to R252: CIRCLE_QUAD plots, for each x up to the loop bound and each quadrant of the mask
in order, the point and its diagonal mirror, when all of them are in the frame; 26·(xm(r) + 1)·popcount(m) units; a mask
of 0 sends nothing. With the bus closed and its first point in the frame it raises `BusClosed`. -/
def Obligations.CircleQuadResult : Prop :=
  (∀ r : Nat, circleBound r = min r (707 * r / 1000 + 1)) ∧
  (quadrant 0 = (1, 1) ∧ quadrant 1 = (1, -1) ∧ quadrant 2 = (-1, 1) ∧ quadrant 3 = (-1, -1)) ∧
  (∀ (s : State) (cx cy r m : Byte) (c : Color), s.ctl.phase ≠ .on → s.fault = none →
    exec (.circleQuad cx cy r m c) s = .next { s with fault := some ⟨.notOn 0x20, s.pc⟩ }) ∧
  (∀ (s : State) (cx cy r m : Byte) (c : Color) (p : Int × Int) (post : List (Int × Int)),
    s.ctl.phase = .on → s.fault = none → s.busOpen = false →
    circleQuadPoints cx.toNat cy.toNat r.toNat m = p :: post → InFrame s.ctl.orient p →
    exec (.circleQuad cx cy r m c) s = .next { s with fault := some ⟨.busClosed .cmd s.cfg.opcCaset, s.pc⟩ }) ∧
  ∀ (s : State) (cx cy r m : Byte) (c : Color), Drawing s → MapsWf s.cfg →
    (∀ p ∈ circleQuadPoints cx.toNat cy.toNat r.toNat m, InFrame s.ctl.orient p) →
    ∃ t us ps, exec (.circleQuad cx cy r m c) s = .next t ∧ Drew 1 s t us ps c ∧
      us = ps.flatMap (plotUnits s.cfg c) ∧
      ps = (List.range (circleBound r.toNat + 1)).flatMap (fun (x : Nat) =>
        [0, 1, 2, 3].flatMap fun q =>
          if m.getLsbD q then
            [((cx.toNat : Int) + (quadrant q).1 * x,
                (cy.toNat : Int) + (quadrant q).2 * (isqrt (r.toNat * r.toNat - x * x)).toNat),
             ((cx.toNat : Int) + (quadrant q).1 * (isqrt (r.toNat * r.toNat - x * x)).toNat,
                (cy.toNat : Int) + (quadrant q).2 * x)]
          else []) ∧
      us.length = 26 * (circleBound r.toNat + 1) * ([0, 1, 2, 3].filter fun q => m.getLsbD q).length ∧
      (m = 0 → us = [])

/-- 44_geometry_curves.md R253 and 30_encoding.md R108: a CIRCLE that lies in the frame completes, in
104·(xm(r) + 1) units; and in phase On, CIRCLE does what CIRCLE_QUAD with all four mask bits does, and CLEAR what
FILL_RECT over the whole frame in 0x0000 does, whatever the outcome. With the bus closed and its first point in the
frame CIRCLE raises `BusClosed`. -/
def Obligations.CircleResult : Prop :=
  (∀ (s : State) (cx cy r : Byte) (c : Color), s.ctl.phase = .on →
    exec (.circle cx cy r c) s = exec (.circleQuad cx cy r 0x0F c) s) ∧
  (∀ s : State, s.ctl.phase = .on → ∀ w h : Byte, w.toNat + 1 = frameW s.ctl.orient →
    h.toNat + 1 = frameH s.ctl.orient → exec .clear s = exec (.fillRect 0 0 w h 0x0000) s) ∧
  (∀ (s : State) (cx cy r : Byte) (c : Color), s.ctl.phase = .on → s.fault = none → s.busOpen = false →
    cx.toNat < frameW s.ctl.orient → cy.toNat + r.toNat < frameH s.ctl.orient →
    exec (.circle cx cy r c) s = .next { s with fault := some ⟨.busClosed .cmd s.cfg.opcCaset, s.pc⟩ }) ∧
  ∀ (s : State) (cx cy r : Byte) (c : Color), Drawing s → MapsWf s.cfg → r.toNat ≤ cx.toNat → r.toNat ≤ cy.toNat →
    cx.toNat + r.toNat < frameW s.ctl.orient → cy.toNat + r.toNat < frameH s.ctl.orient →
    ∃ t us ps, exec (.circle cx cy r c) s = .next t ∧ Drew 1 s t us ps c ∧
      us = ps.flatMap (plotUnits s.cfg c) ∧ ps = circleQuadPoints cx.toNat cy.toNat r.toNat 0x0F ∧
      us.length = 104 * (circleBound r.toNat + 1)

/-- Circle symmetry, which 44_geometry_curves.md section 3 derives: the cells of a circle are unchanged by the
reflections in both axes and in the diagonal through its centre. -/
def Obligations.CircleSymmetry : Prop :=
  ∀ (cx cy : Int) (r : Nat) (x y : Int), (cx + x, cy + y) ∈ circleQuadPoints cx cy r 0x0F →
    (cx - x, cy + y) ∈ circleQuadPoints cx cy r 0x0F ∧ (cx + x, cy - y) ∈ circleQuadPoints cx cy r 0x0F ∧
      (cx + y, cy + x) ∈ circleQuadPoints cx cy r 0x0F

/-- 44_geometry_curves.md R254: ROUND_RECT in the frame, with both inset edges at least one cell long, draws its four
edges and then its four corners; an inset edge with no cell raises `MalformedWindow`, after the edges before it. With
the bus closed and its top edge in the frame it raises `BusClosed`. -/
def Obligations.RoundRectResult : Prop :=
  ∀ (s : State) (x0 y0 x1 y1 r : Byte) (c : Color),
    (s.ctl.phase ≠ .on → s.fault = none →
      exec (.roundRect x0 y0 x1 y1 r c) s = .next { s with fault := some ⟨.notOn 0x22, s.pc⟩ }) ∧
    (s.ctl.phase = .on → s.fault = none → s.busOpen = false → x1.toNat < frameW s.ctl.orient →
      y0.toNat < frameH s.ctl.orient → 0 < (x1.toNat : Int) - x0.toNat + 1 - 2 * r.toNat →
      exec (.roundRect x0 y0 x1 y1 r c) s = .next
        { s with fault := some ⟨.busClosed .cmd s.cfg.opcCaset, s.pc⟩ }) ∧
    (s.ctl.phase = .on → s.fault = none → (x1.toNat : Int) - x0.toNat + 1 - 2 * r.toNat ≤ 0 →
      exec (.roundRect x0 y0 x1 y1 r c) s = .next
        { s with
          fault := some ⟨.malformedWindow ((x0.toNat : Int) + r.toNat) y0.toNat ((x1.toNat : Int) - r.toNat) y0.toNat,
            s.pc⟩ }) ∧
    (Drawing s → MapsWf s.cfg → s.fault = none → x1.toNat < frameW s.ctl.orient → y0.toNat < frameH s.ctl.orient →
      y1.toNat < frameH s.ctl.orient → 0 < (x1.toNat : Int) - x0.toNat + 1 - 2 * r.toNat →
      (y1.toNat : Int) - y0.toNat + 1 - 2 * r.toNat ≤ 0 →
      ∃ t, exec (.roundRect x0 y0 x1 y1 r c) s = .next t ∧ t.pc = s.pc ∧
        t.fault = some ⟨.malformedWindow x0.toNat ((y0.toNat : Int) + r.toNat) x0.toNat
          ((y1.toNat : Int) - r.toNat), s.pc⟩ ∧
        t.trace = s.trace ++
          (roundRectRows x0.toNat y0.toNat x1.toNat y1.toNat r.toNat).flatMap (hlineUnits s.cfg c) ∧
        Painted s t ((roundRectRows x0.toNat y0.toNat x1.toNat y1.toNat r.toNat).flatMap hlinePositions) c ∧
        DrawKept s t) ∧
    (Drawing s → MapsWf s.cfg → x1.toNat < frameW s.ctl.orient → y1.toNat < frameH s.ctl.orient →
      0 < (x1.toNat : Int) - x0.toNat + 1 - 2 * r.toNat → 0 < (y1.toNat : Int) - y0.toNat + 1 - 2 * r.toNat →
      ∃ t us ps, exec (.roundRect x0 y0 x1 y1 r c) s = .next t ∧ Drew 1 s t us ps c ∧
        us = (roundRectRows x0.toNat y0.toNat x1.toNat y1.toNat r.toNat).flatMap (hlineUnits s.cfg c) ++
          (roundRectColumns x0.toNat y0.toNat x1.toNat y1.toNat r.toNat).flatMap (vlineUnits s.cfg c) ++
          (roundRectCorners x0.toNat y0.toNat x1.toNat y1.toNat r.toNat).flatMap (plotUnits s.cfg c) ∧
        ps = (roundRectRows x0.toNat y0.toNat x1.toNat y1.toNat r.toNat).flatMap hlinePositions ++
          (roundRectColumns x0.toNat y0.toNat x1.toNat y1.toNat r.toNat).flatMap vlinePositions ++
          roundRectCorners x0.toNat y0.toNat x1.toNat y1.toNat r.toNat ∧
        (us.length : Int) = 44 + 4 * ((x1.toNat : Int) - x0.toNat + 1 - 2 * r.toNat) +
          4 * ((y1.toNat : Int) - y0.toNat + 1 - 2 * r.toNat) + 104 * (circleBound r.toNat + 1))

/-- 44_geometry_curves.md R255: a FILLED_CIRCLE that lies in the frame completes with 2(r + 1) vertical spans, and the
cells it writes are the disc {(cx ± x, cy + d) : 0 ≤ x ≤ r, |d| ≤ isqrt(r² − x²)}. With the bus closed and its first
span in the frame it raises `BusClosed`. -/
def Obligations.FilledCircleResult : Prop :=
  (∀ (s : State) (cx cy r : Byte) (c : Color), s.ctl.phase ≠ .on → s.fault = none →
    exec (.filledCircle cx cy r c) s = .next { s with fault := some ⟨.notOn 0x23, s.pc⟩ }) ∧
  (∀ (s : State) (cx cy r : Byte) (c : Color), s.ctl.phase = .on → s.fault = none → s.busOpen = false →
    cx.toNat < frameW s.ctl.orient → r.toNat ≤ cy.toNat → cy.toNat + r.toNat < frameH s.ctl.orient →
    exec (.filledCircle cx cy r c) s = .next { s with fault := some ⟨.busClosed .cmd s.cfg.opcCaset, s.pc⟩ }) ∧
  ∀ (s : State) (cx cy r : Byte) (c : Color), Drawing s → MapsWf s.cfg → r.toNat ≤ cx.toNat → r.toNat ≤ cy.toNat →
    cx.toNat + r.toNat < frameW s.ctl.orient → cy.toNat + r.toNat < frameH s.ctl.orient →
    ∃ (t : State) (us : List BusUnit) (ps : List (Int × Int)) (spans : List (Int × Int × Int)),
      exec (.filledCircle cx cy r c) s = .next t ∧ Drew 1 s t us ps c ∧
      us = spans.flatMap (vlineUnits s.cfg c) ∧ ps = spans.flatMap vlinePositions ∧
      spans = (List.range (r.toNat + 1)).flatMap (fun (x : Nat) =>
        [((cx.toNat : Int) + x, (cy.toNat : Int) - (isqrt (r.toNat * r.toNat - x * x)).toNat,
            2 * ((isqrt (r.toNat * r.toNat - x * x)).toNat : Int) + 1),
         ((cx.toNat : Int) - x, (cy.toNat : Int) - (isqrt (r.toNat * r.toNat - x * x)).toNat,
            2 * ((isqrt (r.toNat * r.toNat - x * x)).toNat : Int) + 1)]) ∧
      spans.length = 2 * (r.toNat + 1) ∧
      ∀ dx dy : Int, ((cx.toNat : Int) + dx, (cy.toNat : Int) + dy) ∈ ps ↔
        dx.natAbs ≤ r.toNat ∧ dy.natAbs ≤ (isqrt (r.toNat * r.toNat - dx.natAbs * dx.natAbs)).toNat

/-- What 44_geometry_curves.md section 3 derives of circles and discs: for every byte radius, every cell of the
circle's outline is a cell of the disc. -/
def Obligations.DiscCoversCircle : Prop :=
  ∀ (cx cy : Int) (r : Nat), r < 256 → ∀ p ∈ circleQuadPoints cx cy r 0x0F,
    p ∈ (filledCircleSpans cx cy r).flatMap vlinePositions

/-- 44_geometry_curves.md R257: ELLIPSE. Semi-axes that are both 0 raise `DegenerateEllipse`; otherwise, when all its
points are in the frame, it plots the four mirrored points of each boundary point in order, in
52·length(ellipsePoints(a, b)) units. With the bus closed and its first point in the frame it raises `BusClosed`. -/
def Obligations.EllipseResult : Prop :=
  ∀ (s : State) (cx cy w h : Byte) (c : Color),
    (s.ctl.phase ≠ .on → s.fault = none →
      exec (.ellipse cx cy w h c) s = .next { s with fault := some ⟨.notOn 0x24, s.pc⟩ }) ∧
    (s.ctl.phase = .on → s.fault = none → s.busOpen = false → 2 ≤ w.toNat ∨ 2 ≤ h.toNat →
      cx.toNat < frameW s.ctl.orient → cy.toNat + h.toNat / 2 < frameH s.ctl.orient →
      exec (.ellipse cx cy w h c) s = .next { s with fault := some ⟨.busClosed .cmd s.cfg.opcCaset, s.pc⟩ }) ∧
    (s.ctl.phase = .on → s.fault = none → w.toNat < 2 → h.toNat < 2 →
      exec (.ellipse cx cy w h c) s = .next { s with fault := some ⟨.degenerateEllipse w h, s.pc⟩ }) ∧
    (Drawing s → MapsWf s.cfg → 2 ≤ w.toNat ∨ 2 ≤ h.toNat →
      (∀ p ∈ ellipsePoints (w.toNat / 2) (h.toNat / 2), ∀ q ∈ mirrorPoints cx.toNat cy.toNat p,
        InFrame s.ctl.orient q) →
      ∃ t us ps, exec (.ellipse cx cy w h c) s = .next t ∧ Drew 1 s t us ps c ∧
        us = ps.flatMap (plotUnits s.cfg c) ∧
        ps = (ellipsePoints (w.toNat / 2) (h.toNat / 2)).flatMap (fun p =>
          [((cx.toNat : Int) + p.1, (cy.toNat : Int) + p.2), ((cx.toNat : Int) - p.1, (cy.toNat : Int) + p.2),
           ((cx.toNat : Int) - p.1, (cy.toNat : Int) - p.2), ((cx.toNat : Int) + p.1, (cy.toNat : Int) - p.2)]) ∧
        us.length = 52 * (ellipsePoints (w.toNat / 2) (h.toNat / 2)).length)

/-- 44_geometry_curves.md R258, and what that rule derives: the span bound is the largest x up to the bound of the row
before that meets the test; and since the bound of a row is never below the next row's, it is the largest on the whole
row. -/
def Obligations.SpanIsLargest : Prop :=
  (∀ a b y xPrev : Nat, 1 ≤ y → y ≤ b →
    ellipseSpan a b y xPrev ≤ xPrev ∧
    b * b * (ellipseSpan a b y xPrev * ellipseSpan a b y xPrev) + a * a * (y * y) ≤ a * a * (b * b) ∧
    ∀ x, x ≤ xPrev → b * b * (x * x) + a * a * (y * y) ≤ a * a * (b * b) → x ≤ ellipseSpan a b y xPrev) ∧
  (∀ a b x : Nat, 0 < b → b * b * (x * x) ≤ a * a * (b * b) → x ≤ a) ∧
  ∀ a b y xPrev : Nat, y + 1 ≤ b →
    (∀ x, b * b * (x * x) + a * a * (y * y) ≤ a * a * (b * b) → x ≤ xPrev) →
    ∀ x, b * b * (x * x) + a * a * ((y + 1) * (y + 1)) ≤ a * a * (b * b) → x ≤ ellipseSpan a b (y + 1) xPrev

/-- 44_geometry_curves.md R259: a FILLED_ELLIPSE that lies in the frame completes with 2b + 1 horizontal spans, its
centreline and then two rows at each offset; with a = b = 0 it writes one cell. With the bus closed and its centreline
in the frame it raises `BusClosed`. -/
def Obligations.FilledEllipseResult : Prop :=
  (∀ (s : State) (cx cy w h : Byte) (c : Color), s.ctl.phase ≠ .on → s.fault = none →
    exec (.filledEllipse cx cy w h c) s = .next { s with fault := some ⟨.notOn 0x25, s.pc⟩ }) ∧
  (∀ (s : State) (cx cy w h : Byte) (c : Color), s.ctl.phase = .on → s.fault = none → s.busOpen = false →
    w.toNat / 2 ≤ cx.toNat → cx.toNat + w.toNat / 2 < frameW s.ctl.orient → cy.toNat < frameH s.ctl.orient →
    exec (.filledEllipse cx cy w h c) s = .next { s with fault := some ⟨.busClosed .cmd s.cfg.opcCaset, s.pc⟩ }) ∧
  ∀ (s : State) (cx cy w h : Byte) (c : Color), Drawing s → MapsWf s.cfg → w.toNat / 2 ≤ cx.toNat →
    h.toNat / 2 ≤ cy.toNat → cx.toNat + w.toNat / 2 < frameW s.ctl.orient →
    cy.toNat + h.toNat / 2 < frameH s.ctl.orient →
    ∃ (t : State) (us : List BusUnit) (ps : List (Int × Int)) (spans : List (Int × Int × Int)),
      exec (.filledEllipse cx cy w h c) s = .next t ∧ Drew 1 s t us ps c ∧
      us = spans.flatMap (hlineUnits s.cfg c) ∧ ps = spans.flatMap hlinePositions ∧
      spans.length = 2 * (h.toNat / 2) + 1 ∧
      spans[0]? = some ((cx.toNat : Int) - (w.toNat / 2 : Nat), (cy.toNat : Int), 2 * ((w.toNat / 2 : Nat) : Int) + 1) ∧
      ∀ y, y < h.toNat / 2 → ∃ x : Nat,
        (∀ x' : Nat, (h.toNat / 2) * (h.toNat / 2) * (x' * x') + (w.toNat / 2) * (w.toNat / 2) * ((y + 1) * (y + 1)) ≤
          (w.toNat / 2) * (w.toNat / 2) * ((h.toNat / 2) * (h.toNat / 2)) ↔ x' ≤ x) ∧
        spans[2 * y + 1]? = some ((cx.toNat : Int) - x, (cy.toNat : Int) - ((y + 1 : Nat) : Int), 2 * (x : Int) + 1) ∧
        spans[2 * y + 2]? = some ((cx.toNat : Int) - x, (cy.toNat : Int) + ((y + 1 : Nat) : Int), 2 * (x : Int) + 1)

/-- The loops end, which 60_exceptions.md section 2 derives. The bounds the model puts on them (log entry 16) never cut
one short: a larger bound gives the same points, and the same root. -/
def Obligations.LoopBoundsCutNothing : Prop :=
  (∀ a b extra : Nat, a ≠ 0 ∨ b ≠ 0 →
    ellipseRegion1 (2 * a * a) (2 * b * b) (a * a + 2 + extra) 0 b (b * b) (a * a * (1 - 2 * b)) 0 0 (2 * a * a * b) =
      ellipseRegion1 (2 * a * a) (2 * b * b) (a * a + 2) 0 b (b * b) (a * a * (1 - 2 * b)) 0 0 (2 * a * a * b)) ∧
  (∀ a b extra : Nat, a ≠ 0 ∨ b ≠ 0 →
    ellipseRegion2 (2 * a * a) (2 * b * b) (b * b + 2 + extra) a 0 (b * b * (1 - 2 * a)) (a * a) 0 (2 * b * b * a) 0 =
      ellipseRegion2 (2 * a * a) (2 * b * b) (b * b + 2) a 0 (b * b * (1 - 2 * a)) (a * a) 0 (2 * b * b * a) 0) ∧
  ∀ v extra : Nat, isqrtLoop v (8 + extra) 0 0x80 = isqrt v

/-! ### The square root -/

/-- 45_isqrt.md R291: ISQRT, in every state. It sends no unit, and needs no phase and no open bus. With
the rule's own values; and a Host read before the first one faults. -/
def Obligations.IsqrtInstruction : Prop :=
  (∀ (cfg : Config) (v : Word), encode cfg (.isqrt v) = .packet [0x08, hi8 v, lo8 v]) ∧
  (isqrt 0 = 0 ∧ isqrt 8099 = 89 ∧ isqrt 8100 = 90 ∧ isqrt 65535 = 255) ∧
  (∀ (s : State) (rest : List HostAction), s.hung = false → s.fault = none → s.sqrt = none → s.bench = [] →
    s.host = .readSqrt :: rest → ∃ t n, step s = .next t ∧ t.fault = some ⟨.unsetRead .sqrt, n⟩) ∧
  ∀ (s : State) (v : Word),
    exec (.isqrt v) s = .next { s with sqrt := some (isqrt v.toNat), pc := s.pc + 1 }

/-- The properties that 45_isqrt.md derives for `isqrt`: floor correctness over the input ceiling, the round trip of
every byte, and 255 above the ceiling. -/
def Obligations.IsqrtProperties : Prop :=
  (∀ v, v ≤ 65535 → (isqrt v).toNat * (isqrt v).toNat ≤ v ∧ v < ((isqrt v).toNat + 1) * ((isqrt v).toNat + 1)) ∧
  (∀ r, r ≤ 255 → (isqrt (r * r)).toNat = r) ∧
  ∀ v, 65536 ≤ v → (isqrt v).toNat = 255

/-! ### The invariant -/

/-- The invariant holds at power-on. That the parameters are legal there rests on the defaults of 00_scope.md R8, and
that no stall is coming on log entry 5. -/
def Obligations.InvAtPowerOn : Prop := BlockInv State.reset

/-- Every step keeps the invariant: from every state that meets it, not only those a run from power-on reaches. -/
def Obligations.StepKeepsInv : Prop := ∀ s t : State, BlockInv s → step s = .next t → BlockInv t

end
end

