-- ==== Sys2Proof/Laws/Decode.lean ====
section
/-! SUPPORT. The laws of the byte-order helpers and of the tables behind the decoder. -/
namespace Sys2Proof

theorem be16_toNat (h l : Byte) : (be16 h l).toNat = 256 * h.toNat + l.toNat := by
  have := h.isLt
  have := l.isLt
  simp only [be16, BitVec.toNat_append]
  rw [← Nat.shiftLeft_add_eq_or_of_lt (by omega), Nat.shiftLeft_eq]
  omega

theorem hi8_toNat (c : BitVec 16) : (hi8 c).toNat = c.toNat / 256 := by
  have := c.isLt
  simp [hi8, BitVec.extractLsb'_toNat, Nat.shiftRight_eq_div_pow]
  omega

theorem lo8_toNat (c : BitVec 16) : (lo8 c).toNat = c.toNat % 256 := by
  simp [lo8, BitVec.extractLsb'_toNat]

/-- The two bytes of a word, put together again. -/
@[simp] theorem be16_hi8_lo8 (c : BitVec 16) : be16 (hi8 c) (lo8 c) = c := by
  apply BitVec.eq_of_toNat_eq
  rw [be16_toNat, hi8_toNat, lo8_toNat]
  omega

@[simp] theorem hi8_be16 (h l : Byte) : hi8 (be16 h l) = h := by
  apply BitVec.eq_of_toNat_eq
  have := l.isLt
  rw [hi8_toNat, be16_toNat]
  omega

@[simp] theorem lo8_be16 (h l : Byte) : lo8 (be16 h l) = l := by
  apply BitVec.eq_of_toNat_eq
  have := l.isLt
  rw [lo8_toNat, be16_toNat]
  omega

/-- The opcode map is read back. -/
@[simp] theorem opOf_code (k : Op) : opOf k.code = some k := by cases k <;> decide

/-- The decoder finds an operation only under its own opcode. -/
theorem code_of_opOf {b : Byte} {k : Op} (h : opOf b = some k) : k.code = b := by
  simpa using List.find?_some h

/-- With distinct command bytes, each command is read back (00_scope.md R8). -/
theorem commandOf_opcOf {cfg : Config} (h : cfg.opcsDistinct = true) (k : Command) :
    commandOf cfg (opcOf cfg k) = some k := by
  simp only [Config.opcsDistinct, decide_eq_true_eq, List.nodup_cons, List.mem_cons, List.not_mem_nil, or_false,
    not_or] at h
  cases k <;> simp [commandOf, Command.all, opcOf, h]

/-- The decoder finds a command only under its own byte. -/
theorem opcOf_of_commandOf {cfg : Config} {b : Byte} {k : Command} (h : commandOf cfg b = some k) :
    opcOf cfg k = b := by
  simpa using List.find?_some h

/-- With distinct codes, each orientation is read back (00_scope.md R8). -/
theorem orientOf_orientCodeOf {cfg : Config} (h : cfg.orientCodesDistinct = true) (o : Orient) :
    orientOf cfg (orientCodeOf cfg o) = some o := by
  simp only [Config.orientCodesDistinct, decide_eq_true_eq, List.nodup_cons, List.mem_cons, List.not_mem_nil,
    or_false, not_or] at h
  cases o <;> simp [orientOf, orientCodeOf, h]

theorem Config.wf_opcs {cfg : Config} (h : cfg.wf = true) : cfg.opcsDistinct = true := by
  simp only [Config.wf, Bool.and_eq_true] at h
  exact h.1

theorem Config.wf_orientCodes {cfg : Config} (h : cfg.wf = true) : cfg.orientCodesDistinct = true := by
  simp only [Config.wf, Bool.and_eq_true] at h
  exact h.2

end Sys2Proof
end

