-- ==== Sys2Proof/Laws/Memory.lean ====
section
/-! SUPPORT. The laws of the display memory: read after write, and the canonical form is kept. -/
namespace Sys2Proof.Machine

theorem Memory.read_nil (a : Nat) : Memory.read [] a = Memory.unlisted := rfl

/-- A write is read back. -/
theorem Memory.read_write_same (m : Memory) (a : Nat) (c : Color) : (m.write a c).read a = some c := by
  induction m with
  | nil => simp [Memory.write, Memory.read]
  | cons e m ih =>
    simp only [Memory.write]
    split
    · simp [Memory.read]
    · split
      · simp [Memory.read]
      · have : e.1 ≠ a := by omega
        simp [Memory.read, this, ih]

/-- A write leaves every other cell alone. -/
theorem Memory.read_write_other (m : Memory) (a b : Nat) (c : Color) (h : b ≠ a) :
    (m.write a c).read b = m.read b := by
  have h' : a ≠ b := fun e => h e.symm
  induction m with
  | nil => simp [Memory.write, Memory.read, h']
  | cons e m ih =>
    simp only [Memory.write]
    split
    · simp [Memory.read, h']
    · split
      · rename_i he
        have : e.1 ≠ b := by omega
        simp [Memory.read, h', this]
      · by_cases hb : e.1 = b
        · simp [Memory.read, hb]
        · simp [Memory.read, hb, ih]

/-- What a cell reads as after a write. -/
theorem Memory.read_write (m : Memory) (a b : Nat) (c : Color) :
    (m.write a c).read b = if b = a then some c else m.read b := by
  split
  · rename_i h; rw [h, Memory.read_write_same]
  · rename_i h; exact Memory.read_write_other m a b c h

/-- Every key after a write is the written one or an old one. -/
theorem Memory.mem_write {m : Memory} {a : Nat} {c : Color} {e : Nat × Color} (h : e ∈ m.write a c) :
    e = (a, c) ∨ e ∈ m := by
  induction m with
  | nil => simpa [Memory.write] using h
  | cons d m ih =>
    simp only [Memory.write] at h
    split at h
    · simpa using h
    · split at h
      · rcases List.mem_cons.1 h with h | h
        · exact .inl h
        · exact .inr (List.mem_cons_of_mem _ h)
      · rcases List.mem_cons.1 h with h | h
        · exact .inr (h ▸ List.mem_cons_self)
        · rcases ih h with h | h
          · exact .inl h
          · exact .inr (List.mem_cons_of_mem _ h)

/-- A write keeps the keys strictly rising. -/
theorem Memory.pairwise_write (m : Memory) (a : Nat) (c : Color)
    (h : m.Pairwise (fun x y => x.1 < y.1)) : (m.write a c).Pairwise (fun x y => x.1 < y.1) := by
  induction m with
  | nil => simp [Memory.write]
  | cons d m ih =>
    rw [List.pairwise_cons] at h
    obtain ⟨hd, hm⟩ := h
    simp only [Memory.write]
    split
    · rename_i hlt
      refine List.pairwise_cons.2 ⟨?_, List.pairwise_cons.2 ⟨hd, hm⟩⟩
      intro y hy
      rcases List.mem_cons.1 hy with rfl | hy
      · exact hlt
      · exact Nat.lt_trans hlt (hd y hy)
    · split
      · rename_i heq
        exact List.pairwise_cons.2 ⟨fun y hy => heq ▸ hd y hy, hm⟩
      · rename_i h1 h2
        refine List.pairwise_cons.2 ⟨?_, ih hm⟩
        intro y hy
        rcases Memory.mem_write hy with rfl | hy
        · show d.1 < a
          omega
        · exact hd y hy

/-- The one memory operation that writes keeps the canonical form. -/
theorem Memory.wf_write (m : Memory) (a : Nat) (c : Color) (h : Memory.wf m) (ha : a < Memory.cells) :
    Memory.wf (m.write a c) := by
  refine ⟨Memory.pairwise_write m a c h.1, ?_⟩
  intro e he
  rcases Memory.mem_write he with rfl | he
  · exact ha
  · exact h.2 e he

/-- The empty memory, every cell ⊥, has the canonical form. -/
theorem Memory.wf_nil : Memory.wf [] := ⟨.nil, fun _ h => nomatch h⟩

/-- The display memory at power-on, and after every reset of the Controller, is in its canonical form. -/
theorem State.reset_memory_wf : Memory.wf State.reset.ctl.gram := Memory.wf_nil

theorem Memory.wf_controllerReset (c : Controller) : Memory.wf (controllerReset c).gram := Memory.wf_nil

/-- A cell of the array has a key of the array. -/
theorem Memory.key_lt {px py : Nat} (hx : px < Config.panelW) (hy : py < Config.panelH) :
    Memory.key px py < Memory.cells := by
  simp only [Config.panelW, Config.panelH] at hx hy
  simp only [Memory.key, Memory.cells]
  omega

/-- Two cells with one key are one cell. -/
theorem Memory.key_inj {px py qx qy : Nat} (hx : px < Config.panelW) (hq : qx < Config.panelW)
    (h : Memory.key px py = Memory.key qx qy) : px = qx ∧ py = qy := by
  simp only [Config.panelW] at hx hq
  simp only [Memory.key] at h
  omega

/-- Two memories in canonical form that read alike are equal data. -/
theorem Memory.ext_read {m n : Memory} (hm : Memory.wf m) (hn : Memory.wf n)
    (h : ∀ a, m.read a = n.read a) : m = n := by
  have key : ∀ {l : Memory} {a : Nat}, (∀ e ∈ l, a < e.1) → l.read a = none := by
    intro l a hl
    induction l with
    | nil => rfl
    | cons e l ih =>
      have : e.1 ≠ a := by have := hl e List.mem_cons_self; omega
      simp only [Memory.read, this, if_false]
      exact ih fun e he => hl e (List.mem_cons_of_mem _ he)
  induction m generalizing n with
  | nil =>
    cases n with
    | nil => rfl
    | cons e n => have := h e.1; simp [Memory.read, Memory.unlisted] at this
  | cons d m ih =>
    cases n with
    | nil => have := h d.1; simp [Memory.read, Memory.unlisted] at this
    | cons e n =>
      obtain ⟨⟨hdm, hm1⟩, hm2⟩ := And.imp_left List.pairwise_cons.1 hm
      obtain ⟨⟨hen, hn1⟩, hn2⟩ := And.imp_left List.pairwise_cons.1 hn
      have hk : d.1 = e.1 := by
        rcases Nat.lt_trichotomy d.1 e.1 with hlt | heq | hgt
        · have h1 := h d.1
          have h2 : Memory.read (e :: n) d.1 = none := key fun x hx => by
            rcases List.mem_cons.1 hx with rfl | hx
            · exact hlt
            · exact Nat.lt_trans hlt (hen x hx)
          rw [h2] at h1
          simp [Memory.read] at h1
        · exact heq
        · have h1 := h e.1
          have h2 : Memory.read (d :: m) e.1 = none := key fun x hx => by
            rcases List.mem_cons.1 hx with rfl | hx
            · exact hgt
            · exact Nat.lt_trans hgt (hdm x hx)
          rw [h2] at h1
          simp [Memory.read] at h1
      have hv : d.2 = e.2 := by
        have h1 := h d.1
        simpa [Memory.read, hk] using h1
      have hde : d = e := Prod.ext hk hv
      subst hde
      congr 1
      refine ih ⟨hm1, fun x hx => hm2 x (List.mem_cons_of_mem _ hx)⟩
        ⟨hn1, fun x hx => hn2 x (List.mem_cons_of_mem _ hx)⟩ fun a => ?_
      by_cases ha : d.1 = a
      · subst ha
        rw [key hdm, key hen]
      · have h1 := h a
        simpa [Memory.read, ha] using h1

end Sys2Proof.Machine
end

