-- ==== Sys2Proof/Laws/Controller.lean ====
section
/-! SUPPORT. What the Controller does with one unit, and with a sequence of units that raises no fault. -/
namespace Sys2Proof.Machine

/-! ### Closing a command -/

@[simp] theorem Controller.closed_closed (c : Controller) : c.closed.closed = c.closed := rfl

/-- A command that can be closed is closed (41_controller_commands.md R146). -/
theorem closeCommand_of_closable {c : Controller} (h : c.closable = true) : closeCommand c = .ok c.closed := by
  unfold closeCommand
  unfold Controller.closable at h
  cases hk : c.cmd with
  | none => rfl
  | some k =>
    rw [hk] at h
    simp only [Bool.and_eq_true, decide_eq_true_eq, Bool.not_eq_true', Bool.and_eq_false_iff,
      decide_eq_false_iff_not] at h
    obtain ⟨h1, h2⟩ := h
    have h1' : ¬ c.pbuf.length < paramCount k := by omega
    have h2' : ¬ (k = .ramwr ∧ c.hi ≠ none) := by
      rintro ⟨hk, hh⟩
      rcases h2 with h2 | h2
      · exact h2 hk
      · exact hh (by simpa using h2)
    simp only [h1', h2', if_false]

/-- `closeCommand` either closes the command or raises a `ParamError` and changes nothing
(41_controller_commands.md R146). -/
theorem closeCommand_cases (c : Controller) :
    closeCommand c = .ok c.closed ∨ ∃ p, closeCommand c = .raised c (.paramError p) := by
  unfold closeCommand
  split
  · exact .inl rfl
  · split
    · exact .inr ⟨_, rfl⟩
    · split
      · exact .inr ⟨_, rfl⟩
      · exact .inl rfl

/-! ### One unit -/

/-- A command unit in a phase that admits it starts its command, when the last one can be closed
(41_controller_commands.md R144). -/
theorem receive_command {cfg : Config} {c : Controller} {k : Command} (hc : cfg.opcsDistinct = true)
    (hs : c.settle = none) (hcl : c.closable = true) (ha : admits k c.phase = true) :
    receive cfg .inactive (cmdUnit cfg k) c = startCommand k c.closed := by
  have hp : c.closed.phase = c.phase := rfl
  simp [receive, hs, cmdUnit, commandByte, closeCommand_of_closable hcl, commandOf_opcOf hc, hp, ha]

/-- A data unit for a command that takes parameters (41_controller_commands.md R145). -/
theorem receive_param {cfg : Config} {c : Controller} {k : Command} {b : Byte} (hs : c.settle = none)
    (hk : c.cmd = some k) (hn : 0 < paramCount k) :
    receive cfg .inactive (dataUnit b) c = paramByte cfg k b c := by
  cases k <;> simp_all [receive, dataUnit, dataByte, paramCount]

/-- A data unit of a pixel stream (41_controller_commands.md R145). -/
theorem receive_pixel {cfg : Config} {c : Controller} {b : Byte} (hs : c.settle = none) (hk : c.cmd = some .ramwr) :
    receive cfg .inactive (dataUnit b) c = pixelByte cfg b c := by
  simp [receive, hs, dataUnit, dataByte, hk]

/-- A parameter byte before the last (41_controller_commands.md R147). -/
theorem paramByte_more {cfg : Config} {c : Controller} {k : Command} {b : Byte}
    (h : c.pbuf.length + 1 < paramCount k) : paramByte cfg k b c = .ok { c with pbuf := c.pbuf ++ [b] } := by
  have h1 : ¬ c.pbuf.length = paramCount k := by omega
  have h2 : ¬ c.pbuf.length + 1 = paramCount k := by omega
  simp [paramByte, h1, h2]

/-- The last parameter byte latches (41_controller_commands.md R147). -/
theorem paramByte_last {cfg : Config} {c : Controller} {k : Command} {b : Byte}
    (h : c.pbuf.length + 1 = paramCount k) : paramByte cfg k b c = latch cfg k { c with pbuf := c.pbuf ++ [b] } := by
  have h1 : ¬ c.pbuf.length = paramCount k := by omega
  simp [paramByte, h1, h]

/-! ### Sequences of units -/

/-- A sequence of units received one after another, the reset line inactive. -/
def feed (cfg : Config) : List BusUnit → Controller → CtlResult
  | [], c => .ok c
  | u :: us, c =>
    match receive cfg .inactive u c with
    | .ok c => feed cfg us c
    | .raised c f => .raised c f

theorem feed_nil (cfg : Config) (c : Controller) : feed cfg [] c = .ok c := rfl

theorem feed_cons_ok {cfg : Config} {u : BusUnit} {us : List BusUnit} {c d : Controller}
    (h : receive cfg .inactive u c = .ok d) : feed cfg (u :: us) c = feed cfg us d := by
  simp only [feed, h]

theorem feed_append_ok {cfg : Config} {us vs : List BusUnit} {c d : Controller} (h : feed cfg us c = .ok d) :
    feed cfg (us ++ vs) c = feed cfg vs d := by
  induction us generalizing c with
  | nil => simp only [feed, CtlResult.ok.injEq] at h; rw [h]; rfl
  | cons u us ih =>
    simp only [List.cons_append, feed] at h ⊢
    split at h
    · rename_i h'; exact ih h
    · cases h

/-- A parameter byte before the last, in a sequence (41_controller_commands.md R147). -/
theorem feed_param_more {cfg : Config} {c : Controller} {k : Command} {b : Byte} {us : List BusUnit}
    (hs : c.settle = none) (hk : c.cmd = some k) (h : c.pbuf.length + 1 < paramCount k) :
    feed cfg (dataUnit b :: us) c = feed cfg us { c with pbuf := c.pbuf ++ [b] } :=
  feed_cons_ok ((receive_param hs hk (by omega)).trans (paramByte_more h))

theorem feed_singleton (cfg : Config) (u : BusUnit) (c : Controller) :
    feed cfg [u] c = receive cfg .inactive u c := by
  simp only [feed]
  split <;> simp_all

/-- The four parameter bytes of CASET or RASET (41_controller_commands.md R147). -/
theorem feed_four {cfg : Config} {c : Controller} {k : Command} {p0 p1 p2 p3 : Byte} (h4 : paramCount k = 4)
    (hs : c.settle = none) (hk : c.cmd = some k) (hp : c.pbuf = []) :
    feed cfg [dataUnit p0, dataUnit p1, dataUnit p2, dataUnit p3] c =
      latch cfg k { c with pbuf := [p0, p1, p2, p3] } := by
  rw [feed_param_more hs hk (by simp [hp, h4])]
  rw [feed_param_more (by exact hs) (by exact hk) (by simp [hp, h4])]
  rw [feed_param_more (by exact hs) (by exact hk) (by simp [hp, h4])]
  rw [feed_singleton, receive_param (by exact hs) (by exact hk) (by simp [h4]), paramByte_last (by simp [hp, h4])]
  simp [hp]

/-- The state of the Controller after the ten units of SET_WINDOW. -/
def Controller.windowSet (c : Controller) (x0 y0 x1 y1 : Word) : Controller :=
  { c with
    xs := some x0, xe := some x1, ys := some y0, ye := some y1, cmd := some .raset
    pbuf := [hi8 y0, lo8 y0, hi8 y1, lo8 y1], hi := none }

/-- Four parameter bytes of CASET latch the columns (41_controller_commands.md R157). -/
theorem feed_caset {cfg : Config} {c : Controller} {x0 x1 : Word} (hc : cfg.opcsDistinct = true)
    (hs : c.settle = none) (hcl : c.closable = true) (hp : c.phase = .on) :
    feed cfg (cmdUnit cfg .caset :: wordUnits x0 ++ wordUnits x1) c =
      .ok { c with
        xs := some x0, xe := some x1, cmd := some .caset, pbuf := [hi8 x0, lo8 x0, hi8 x1, lo8 x1], hi := none } := by
  have h0 := receive_command (k := .caset) hc hs hcl (by simp [admits, hp])
  refine Eq.trans (feed_cons_ok (d := { c.closed with cmd := some .caset, pbuf := [] }) h0) ?_
  refine Eq.trans (feed_four (k := .caset) rfl hs rfl rfl) ?_
  simp [latch, latchCaset, Controller.closed]

/-- Four parameter bytes of RASET latch the rows (41_controller_commands.md R162). -/
theorem feed_raset {cfg : Config} {c : Controller} {y0 y1 : Word} (hc : cfg.opcsDistinct = true)
    (hs : c.settle = none) (hcl : c.closable = true) (hp : c.phase = .on) :
    feed cfg (cmdUnit cfg .raset :: wordUnits y0 ++ wordUnits y1) c =
      .ok { c with
        ys := some y0, ye := some y1, cmd := some .raset, pbuf := [hi8 y0, lo8 y0, hi8 y1, lo8 y1], hi := none } := by
  have h0 := receive_command (k := .raset) hc hs hcl (by simp [admits, hp])
  refine Eq.trans (feed_cons_ok (d := { c.closed with cmd := some .raset, pbuf := [] }) h0) ?_
  refine Eq.trans (feed_four (k := .raset) rfl hs rfl rfl) ?_
  simp [latch, latchRaset, Controller.closed]

/-- The ten units of SET_WINDOW (42_controller_protocol.md R200). -/
theorem feed_windowUnits {cfg : Config} {c : Controller} {x0 y0 x1 y1 : Int} (hc : cfg.opcsDistinct = true)
    (hs : c.settle = none) (hcl : c.closable = true) (hp : c.phase = .on) :
    feed cfg (windowUnits cfg x0 y0 x1 y1) c = .ok (c.windowSet (word x0) (word y0) (word x1) (word y1)) := by
  have hsplit : windowUnits cfg x0 y0 x1 y1 =
      (cmdUnit cfg .caset :: wordUnits (word x0) ++ wordUnits (word x1)) ++
        (cmdUnit cfg .raset :: wordUnits (word y0) ++ wordUnits (word y1)) := by
    simp [windowUnits]
  rw [hsplit, feed_append_ok (feed_caset hc hs hcl hp)]
  refine Eq.trans (feed_raset hc ?_ ?_ ?_) ?_
  · exact hs
  · rfl
  · exact hp
  · rfl

/-! ### The pixel stream -/

/-- The window of a pixel stream as numbers: its corner, its width and its height. -/
structure Win where
  x0 : Nat
  y0 : Nat
  w : Nat
  h : Nat

/-- The Controller in a pixel stream over a window, k pixels into it, with the display memory g. -/
def Controller.streamAt (c : Controller) (v : Win) (k : Nat) (g : Memory) : Controller :=
  { c with
    cmd := some .ramwr, pbuf := [], hi := none, gram := g
    wpX := some (BitVec.ofNat 16 (v.x0 + k % v.w))
    wpY := some (BitVec.ofNat 16 (min (v.y0 + k / v.w) (v.y0 + v.h - 1)))
    wpDone := decide (k = v.w * v.h) }

/-- The window registers hold the window, and it lies in the logical frame. -/
structure WindowHolds (c : Controller) (v : Win) : Prop where
  w : 0 < v.w
  h : 0 < v.h
  xs : c.xs = some (BitVec.ofNat 16 v.x0)
  xe : c.xe = some (BitVec.ofNat 16 (v.x0 + v.w - 1))
  ys : c.ys = some (BitVec.ofNat 16 v.y0)
  ye : c.ye = some (BitVec.ofNat 16 (v.y0 + v.h - 1))
  inX : v.x0 + v.w ≤ frameW c.orient
  inY : v.y0 + v.h ≤ frameH c.orient

theorem frameW_le (o : Orient) : frameW o ≤ 160 := by cases o <;> decide

theorem frameH_le (o : Orient) : frameH o ≤ 160 := by cases o <;> decide

/-- `ORIENT_MAP` stays in the array on the logical frame, when the parameters are legal (20_memory.md R67). -/
theorem orientMap_inArray {cfg : Config} (h : MapsWf cfg) {o : Orient} {x y : Nat} (hx : x < frameW o)
    (hy : y < frameH o) :
    (orientMap cfg o x y).1 < Config.panelW ∧ (orientMap cfg o x y).2 < Config.panelH := by
  obtain ⟨h90, h180, h270⟩ := h
  cases o with
  | o0 => exact ⟨hx, hy⟩
  | o90 => exact h90.1 x y hx hy
  | o180 => exact h180.1 x y hx hy
  | o270 => exact h270.1 x y hx hy

/-- `MemWrite` inside the frame writes the cell the position names (20_memory.md R63). -/
theorem memWrite_inFrame {cfg : Config} (h : MapsWf cfg) {c : Controller} {x y : Nat} {col : Color}
    (hx : x < frameW c.orient) (hy : y < frameH c.orient) :
    memWrite cfg x y col c = .ok { c with gram := c.gram.write (cellKey cfg c.orient x y) col } := by
  have := orientMap_inArray h hx hy
  simp [memWrite, hx, hy, this, cellKey]

/-- RAMWR over a window in the frame starts the stream (41_controller_commands.md R159). -/
theorem startRamwr_ok {c : Controller} {v : Win} (hv : WindowHolds c v) :
    startRamwr c.closed = .ok (c.streamAt v 0 c.gram) := by
  obtain ⟨hw, hh, hxs, hxe, hys, hye, hX, hY⟩ := hv
  have h1 := frameW_le c.orient
  have h2 := frameH_le c.orient
  have e1 : (BitVec.ofNat 16 v.x0).toNat = v.x0 := by simp; omega
  have e2 : (BitVec.ofNat 16 (v.x0 + v.w - 1)).toNat = v.x0 + v.w - 1 := by simp; omega
  have e3 : (BitVec.ofNat 16 v.y0).toNat = v.y0 := by simp; omega
  have e4 : (BitVec.ofNat 16 (v.y0 + v.h - 1)).toNat = v.y0 + v.h - 1 := by simp; omega
  have hm : min v.y0 (v.y0 + v.h - 1) = v.y0 := by omega
  have hd : ¬ (0 = v.w * v.h) := by have := Nat.mul_pos hw hh; omega
  unfold startRamwr
  simp only [Controller.closed, hxs, hxe, hys, hye, e1, e2, e3, e4]
  rw [if_neg (by simp only [Int.ofNat_eq_natCast]; omega), if_neg (by simp only [Int.ofNat_eq_natCast]; omega)]
  simp [Controller.streamAt, hm, hd, hxs, hxe, hys, hye]

/-- A low byte over a window that is not exhausted writes the cell and moves the pointer
(41_controller_commands.md R160). -/
theorem pixelByte_low {cfg : Config} (hmap : MapsWf cfg) {c : Controller} {h b : Byte} {x y : Word}
    (hh : c.hi = some h) (hd : c.wpDone = false) (hx : c.wpX = some x) (hy : c.wpY = some y)
    (hfx : x.toNat < frameW c.orient) (hfy : y.toNat < frameH c.orient) :
    pixelByte cfg b c = advancePointer
      { c with hi := none, gram := c.gram.write (cellKey cfg c.orient x.toNat y.toNat) (be16 h b) } := by
  have := memWrite_inFrame (cfg := cfg) hmap (c := { c with hi := none }) (col := be16 h b) hfx hfy
  simp only [pixelByte, hh, hd, hx, hy, Bool.false_eq_true, if_false]
  simp only [hd, hx, hy] at this
  rw [this]

/-- The pointer of a stream moves on (20_memory.md R62). -/
theorem advancePointer_streamAt {c : Controller} {v : Win} (hv : WindowHolds c v) {k : Nat} {g : Memory}
    (hk : k < v.w * v.h) :
    advancePointer (c.streamAt v k g) = .ok (c.streamAt v (k + 1) g) := by
  obtain ⟨hw, hh, hxs, hxe, hys, hye, hX, hY⟩ := hv
  have h1 := frameW_le c.orient
  have h2 := frameH_le c.orient
  have hmod : k % v.w < v.w := Nat.mod_lt _ hw
  have hdiv : k / v.w < v.h := Nat.div_lt_of_lt_mul hk
  have hmin : min (v.y0 + k / v.w) (v.y0 + v.h - 1) = v.y0 + k / v.w := Nat.min_eq_left (by omega)
  have ex : (BitVec.ofNat 16 (v.x0 + k % v.w)).toNat = v.x0 + k % v.w := by
    rw [BitVec.toNat_ofNat]; exact Nat.mod_eq_of_lt (by omega)
  have ey : (BitVec.ofNat 16 (v.y0 + k / v.w)).toNat = v.y0 + k / v.w := by
    rw [BitVec.toNat_ofNat]; exact Nat.mod_eq_of_lt (by omega)
  have exe : (BitVec.ofNat 16 (v.x0 + v.w - 1)).toNat = v.x0 + v.w - 1 := by
    rw [BitVec.toNat_ofNat]; exact Nat.mod_eq_of_lt (by omega)
  have eye : (BitVec.ofNat 16 (v.y0 + v.h - 1)).toNat = v.y0 + v.h - 1 := by
    rw [BitVec.toNat_ofNat]; exact Nat.mod_eq_of_lt (by omega)
  have hkd : v.w * (k / v.w) + k % v.w = k := Nat.div_add_mod k v.w
  have hd : ¬ (k = v.w * v.h) := Nat.ne_of_lt hk
  simp only [advancePointer, Controller.streamAt, hxs, hxe, hye, hmin, ex, ey, exe, eye]
  by_cases hlast : k % v.w + 1 = v.w
  · have hk1 : k + 1 = v.w * (k / v.w + 1) := by rw [Nat.mul_add, Nat.mul_one]; omega
    have hmod' : (k + 1) % v.w = 0 := by rw [hk1, Nat.mul_mod_right]
    have hdiv' : (k + 1) / v.w = k / v.w + 1 := by rw [hk1, Nat.mul_div_cancel_left _ hw]
    rw [if_neg (by omega), hmod', hdiv']
    by_cases hrow : k / v.w + 1 = v.h
    · have hfull : k + 1 = v.w * v.h := by rw [← hrow]; exact hk1
      have hm : min (v.y0 + (k / v.w + 1)) (v.y0 + v.h - 1) = v.y0 + k / v.w := by
        rw [Nat.min_eq_right (by omega)]; omega
      rw [if_neg (by omega), hm]
      simp [hfull]
    · have hnf : ¬ (k + 1 = v.w * v.h) := by
        intro h
        rw [h, Nat.mul_div_cancel_left _ hw] at hdiv'
        omega
      have hm : min (v.y0 + (k / v.w + 1)) (v.y0 + v.h - 1) = v.y0 + k / v.w + 1 := by
        rw [Nat.min_eq_left (by omega)]; omega
      rw [if_pos (by omega), hm]
      simp [hnf, hd, BitVec.ofNat_add]
  · have hk1 : k + 1 = v.w * (k / v.w) + (k % v.w + 1) := by omega
    have hlt : k % v.w + 1 < v.w := by omega
    have hmod' : (k + 1) % v.w = k % v.w + 1 := by
      rw [hk1, Nat.mul_add_mod, Nat.mod_eq_of_lt hlt]
    have hdiv' : (k + 1) / v.w = k / v.w := by
      rw [hk1, Nat.mul_add_div hw, Nat.div_eq_of_lt hlt, Nat.add_zero]
    have hnf : ¬ (k + 1 = v.w * v.h) := by
      intro h
      rw [h, Nat.mul_mod_right] at hmod'
      omega
    rw [if_pos (by omega), hmod', hdiv', hmin]
    simp [hnf, hd, BitVec.ofNat_add, ← Nat.add_assoc]

/-- One pixel of a stream that is not exhausted: the cell is written and the pointer moves on
(41_controller_commands.md R160, 20_memory.md R62). -/
theorem feed_pixel {cfg : Config} (hmap : MapsWf cfg) {c : Controller} {v : Win} (hs : c.settle = none)
    (hv : WindowHolds c v) {k : Nat} {g : Memory} (hk : k < v.w * v.h) (col : Color) :
    feed cfg (wordUnits col) (c.streamAt v k g) =
      .ok (c.streamAt v (k + 1)
        (g.write (cellKey cfg c.orient (v.x0 + k % v.w) (v.y0 + k / v.w)) col)) := by
  have h1 := frameW_le c.orient
  have h2 := frameH_le c.orient
  have hX := hv.inX
  have hY := hv.inY
  have hmod : k % v.w < v.w := Nat.mod_lt _ hv.w
  have hdiv : k / v.w < v.h := Nat.div_lt_of_lt_mul hk
  have hmin : min (v.y0 + k / v.w) (v.y0 + v.h - 1) = v.y0 + k / v.w := Nat.min_eq_left (by omega)
  have ex : (BitVec.ofNat 16 (v.x0 + k % v.w)).toNat = v.x0 + k % v.w := by
    rw [BitVec.toNat_ofNat]; exact Nat.mod_eq_of_lt (by omega)
  have ey : (BitVec.ofNat 16 (min (v.y0 + k / v.w) (v.y0 + v.h - 1))).toNat = v.y0 + k / v.w := by
    rw [hmin, BitVec.toNat_ofNat]; exact Nat.mod_eq_of_lt (by omega)
  have r1 : receive cfg .inactive (dataUnit (hi8 col)) (c.streamAt v k g) =
      .ok { c.streamAt v k g with hi := some (hi8 col) } :=
    (receive_pixel (c := c.streamAt v k g) hs rfl).trans rfl
  have r2 : receive cfg .inactive (dataUnit (lo8 col)) { c.streamAt v k g with hi := some (hi8 col) } =
      .ok (c.streamAt v (k + 1)
        (g.write (cellKey cfg c.orient (v.x0 + k % v.w) (v.y0 + k / v.w)) col)) := by
    rw [receive_pixel (by exact hs) rfl]
    rw [pixelByte_low hmap (c := { c.streamAt v k g with hi := some (hi8 col) }) rfl
      (decide_eq_false (Nat.ne_of_lt hk)) rfl rfl (by rw [ex]; show _ < frameW c.orient; omega)
      (by rw [ey]; show _ < frameH c.orient; omega)]
    rw [ex, ey, be16_hi8_lo8]
    exact advancePointer_streamAt hv hk
  exact (feed_cons_ok r1).trans ((feed_cons_ok r2).trans rfl)

/-- The display memory after n pixels of a stream. -/
def streamMemory (cfg : Config) (o : Orient) (v : Win) (col : Color) (n : Nat) (g : Memory) : Memory :=
  (List.range n).foldl (fun g k => g.write (cellKey cfg o (v.x0 + k % v.w) (v.y0 + k / v.w)) col) g

/-- The 2n data units of n pixels, n at most the area of the window (42_controller_protocol.md R204). -/
theorem feed_pixelUnits {cfg : Config} (hmap : MapsWf cfg) {c : Controller} {v : Win} (hs : c.settle = none)
    (hv : WindowHolds c v) {n : Nat} (hn : n ≤ v.w * v.h) (g : Memory) (col : Color) :
    feed cfg (pixelUnits col n) (c.streamAt v 0 g) =
      .ok (c.streamAt v n (streamMemory cfg c.orient v col n g)) := by
  induction n with
  | zero => rfl
  | succ n ih =>
    have hsplit : pixelUnits col (n + 1) = pixelUnits col n ++ wordUnits col := by
      simp [pixelUnits, List.replicate_succ', List.flatten_append]
    rw [hsplit, feed_append_ok (ih (by omega)), feed_pixel hmap hs hv (by omega)]
    simp [streamMemory, List.range_succ]

/-- What a cell reads as after n pixels of one colour. -/
theorem streamMemory_read (cfg : Config) (o : Orient) (v : Win) (col : Color) (n : Nat) (g : Memory) (a : Nat) :
    (streamMemory cfg o v col n g).read a =
      if a ∈ (List.range n).map (fun k => cellKey cfg o (v.x0 + k % v.w) (v.y0 + k / v.w)) then some col
      else g.read a := by
  induction n with
  | zero => simp [streamMemory]
  | succ n ih =>
    have : streamMemory cfg o v col (n + 1) g =
        (streamMemory cfg o v col n g).write (cellKey cfg o (v.x0 + n % v.w) (v.y0 + n / v.w)) col := by
      simp [streamMemory, List.range_succ]
    rw [this, Memory.read_write, ih, List.range_succ, List.map_append]
    by_cases h : a = cellKey cfg o (v.x0 + n % v.w) (v.y0 + n / v.w)
    · simp [h]
    · simp [h]

end Sys2Proof.Machine
end

