-- ==== Sys2Proof/Laws/State.lean ====
section
/-! SUPPORT. One lemma per field per update of the state, so that no later proof unfolds a record update. -/
namespace Sys2Proof.Machine

variable (s : State)

/-! ### `State.advancePc` -/

@[simp] theorem State.advancePc_cfg : s.advancePc.cfg = s.cfg := rfl
@[simp] theorem State.advancePc_ops : s.advancePc.ops = s.ops := rfl
@[simp] theorem State.advancePc_host : s.advancePc.host = s.host := rfl
@[simp] theorem State.advancePc_reads : s.advancePc.reads = s.reads := rfl
@[simp] theorem State.advancePc_bench : s.advancePc.bench = s.bench := rfl
@[simp] theorem State.advancePc_pc : s.advancePc.pc = s.pc + 1 := rfl
@[simp] theorem State.advancePc_busOpen : s.advancePc.busOpen = s.busOpen := rfl
@[simp] theorem State.advancePc_rst : s.advancePc.rst = s.rst := rfl
@[simp] theorem State.advancePc_dc : s.advancePc.dc = s.dc := rfl
@[simp] theorem State.advancePc_busy : s.advancePc.busy = s.busy := rfl
@[simp] theorem State.advancePc_rx : s.advancePc.rx = s.rx := rfl
@[simp] theorem State.advancePc_draws : s.advancePc.draws = s.draws := rfl
@[simp] theorem State.advancePc_stall : s.advancePc.stall = s.stall := rfl
@[simp] theorem State.advancePc_sqrt : s.advancePc.sqrt = s.sqrt := rfl
@[simp] theorem State.advancePc_fault : s.advancePc.fault = s.fault := rfl
@[simp] theorem State.advancePc_ctl : s.advancePc.ctl = s.ctl := rfl
@[simp] theorem State.advancePc_trace : s.advancePc.trace = s.trace := rfl

/-! ### `State.setBusOpen` -/

@[simp] theorem State.setBusOpen_cfg (v : Bool) : (s.setBusOpen v).cfg = s.cfg := rfl
@[simp] theorem State.setBusOpen_ops (v : Bool) : (s.setBusOpen v).ops = s.ops := rfl
@[simp] theorem State.setBusOpen_host (v : Bool) : (s.setBusOpen v).host = s.host := rfl
@[simp] theorem State.setBusOpen_reads (v : Bool) : (s.setBusOpen v).reads = s.reads := rfl
@[simp] theorem State.setBusOpen_bench (v : Bool) : (s.setBusOpen v).bench = s.bench := rfl
@[simp] theorem State.setBusOpen_pc (v : Bool) : (s.setBusOpen v).pc = s.pc := rfl
@[simp] theorem State.setBusOpen_busOpen (v : Bool) : (s.setBusOpen v).busOpen = v := rfl
@[simp] theorem State.setBusOpen_rst (v : Bool) : (s.setBusOpen v).rst = s.rst := rfl
@[simp] theorem State.setBusOpen_dc (v : Bool) : (s.setBusOpen v).dc = s.dc := rfl
@[simp] theorem State.setBusOpen_busy (v : Bool) : (s.setBusOpen v).busy = s.busy := rfl
@[simp] theorem State.setBusOpen_rx (v : Bool) : (s.setBusOpen v).rx = s.rx := rfl
@[simp] theorem State.setBusOpen_draws (v : Bool) : (s.setBusOpen v).draws = s.draws := rfl
@[simp] theorem State.setBusOpen_stall (v : Bool) : (s.setBusOpen v).stall = s.stall := rfl
@[simp] theorem State.setBusOpen_sqrt (v : Bool) : (s.setBusOpen v).sqrt = s.sqrt := rfl
@[simp] theorem State.setBusOpen_fault (v : Bool) : (s.setBusOpen v).fault = s.fault := rfl
@[simp] theorem State.setBusOpen_ctl (v : Bool) : (s.setBusOpen v).ctl = s.ctl := rfl
@[simp] theorem State.setBusOpen_trace (v : Bool) : (s.setBusOpen v).trace = s.trace := rfl

/-! ### `State.setRst` -/

@[simp] theorem State.setRst_cfg (l : Level) : (s.setRst l).cfg = s.cfg := rfl
@[simp] theorem State.setRst_ops (l : Level) : (s.setRst l).ops = s.ops := rfl
@[simp] theorem State.setRst_host (l : Level) : (s.setRst l).host = s.host := rfl
@[simp] theorem State.setRst_reads (l : Level) : (s.setRst l).reads = s.reads := rfl
@[simp] theorem State.setRst_bench (l : Level) : (s.setRst l).bench = s.bench := rfl
@[simp] theorem State.setRst_pc (l : Level) : (s.setRst l).pc = s.pc := rfl
@[simp] theorem State.setRst_busOpen (l : Level) : (s.setRst l).busOpen = s.busOpen := rfl
@[simp] theorem State.setRst_rst (l : Level) : (s.setRst l).rst = l := rfl
@[simp] theorem State.setRst_dc (l : Level) : (s.setRst l).dc = s.dc := rfl
@[simp] theorem State.setRst_busy (l : Level) : (s.setRst l).busy = s.busy := rfl
@[simp] theorem State.setRst_rx (l : Level) : (s.setRst l).rx = s.rx := rfl
@[simp] theorem State.setRst_draws (l : Level) : (s.setRst l).draws = s.draws := rfl
@[simp] theorem State.setRst_stall (l : Level) : (s.setRst l).stall = s.stall := rfl
@[simp] theorem State.setRst_sqrt (l : Level) : (s.setRst l).sqrt = s.sqrt := rfl
@[simp] theorem State.setRst_fault (l : Level) : (s.setRst l).fault = s.fault := rfl
@[simp] theorem State.setRst_ctl (l : Level) : (s.setRst l).ctl = s.ctl := rfl
@[simp] theorem State.setRst_trace (l : Level) : (s.setRst l).trace = s.trace := rfl

/-! ### `State.setSqrt` -/

@[simp] theorem State.setSqrt_cfg (v : Byte) : (s.setSqrt v).cfg = s.cfg := rfl
@[simp] theorem State.setSqrt_ops (v : Byte) : (s.setSqrt v).ops = s.ops := rfl
@[simp] theorem State.setSqrt_host (v : Byte) : (s.setSqrt v).host = s.host := rfl
@[simp] theorem State.setSqrt_reads (v : Byte) : (s.setSqrt v).reads = s.reads := rfl
@[simp] theorem State.setSqrt_bench (v : Byte) : (s.setSqrt v).bench = s.bench := rfl
@[simp] theorem State.setSqrt_pc (v : Byte) : (s.setSqrt v).pc = s.pc := rfl
@[simp] theorem State.setSqrt_busOpen (v : Byte) : (s.setSqrt v).busOpen = s.busOpen := rfl
@[simp] theorem State.setSqrt_rst (v : Byte) : (s.setSqrt v).rst = s.rst := rfl
@[simp] theorem State.setSqrt_dc (v : Byte) : (s.setSqrt v).dc = s.dc := rfl
@[simp] theorem State.setSqrt_busy (v : Byte) : (s.setSqrt v).busy = s.busy := rfl
@[simp] theorem State.setSqrt_rx (v : Byte) : (s.setSqrt v).rx = s.rx := rfl
@[simp] theorem State.setSqrt_draws (v : Byte) : (s.setSqrt v).draws = s.draws := rfl
@[simp] theorem State.setSqrt_stall (v : Byte) : (s.setSqrt v).stall = s.stall := rfl
@[simp] theorem State.setSqrt_sqrt (v : Byte) : (s.setSqrt v).sqrt = some v := rfl
@[simp] theorem State.setSqrt_fault (v : Byte) : (s.setSqrt v).fault = s.fault := rfl
@[simp] theorem State.setSqrt_ctl (v : Byte) : (s.setSqrt v).ctl = s.ctl := rfl
@[simp] theorem State.setSqrt_trace (v : Byte) : (s.setSqrt v).trace = s.trace := rfl

/-! ### `State.setCtl` -/

@[simp] theorem State.setCtl_cfg (c : Controller) : (s.setCtl c).cfg = s.cfg := rfl
@[simp] theorem State.setCtl_ops (c : Controller) : (s.setCtl c).ops = s.ops := rfl
@[simp] theorem State.setCtl_host (c : Controller) : (s.setCtl c).host = s.host := rfl
@[simp] theorem State.setCtl_reads (c : Controller) : (s.setCtl c).reads = s.reads := rfl
@[simp] theorem State.setCtl_bench (c : Controller) : (s.setCtl c).bench = s.bench := rfl
@[simp] theorem State.setCtl_pc (c : Controller) : (s.setCtl c).pc = s.pc := rfl
@[simp] theorem State.setCtl_busOpen (c : Controller) : (s.setCtl c).busOpen = s.busOpen := rfl
@[simp] theorem State.setCtl_rst (c : Controller) : (s.setCtl c).rst = s.rst := rfl
@[simp] theorem State.setCtl_dc (c : Controller) : (s.setCtl c).dc = s.dc := rfl
@[simp] theorem State.setCtl_busy (c : Controller) : (s.setCtl c).busy = s.busy := rfl
@[simp] theorem State.setCtl_rx (c : Controller) : (s.setCtl c).rx = s.rx := rfl
@[simp] theorem State.setCtl_draws (c : Controller) : (s.setCtl c).draws = s.draws := rfl
@[simp] theorem State.setCtl_stall (c : Controller) : (s.setCtl c).stall = s.stall := rfl
@[simp] theorem State.setCtl_sqrt (c : Controller) : (s.setCtl c).sqrt = s.sqrt := rfl
@[simp] theorem State.setCtl_fault (c : Controller) : (s.setCtl c).fault = s.fault := rfl
@[simp] theorem State.setCtl_ctl (c : Controller) : (s.setCtl c).ctl = c := rfl
@[simp] theorem State.setCtl_trace (c : Controller) : (s.setCtl c).trace = s.trace := rfl

/-! ### `State.setHost` -/

@[simp] theorem State.setHost_cfg (l : List HostAction) : (s.setHost l).cfg = s.cfg := rfl
@[simp] theorem State.setHost_ops (l : List HostAction) : (s.setHost l).ops = s.ops := rfl
@[simp] theorem State.setHost_host (l : List HostAction) : (s.setHost l).host = l := rfl
@[simp] theorem State.setHost_reads (l : List HostAction) : (s.setHost l).reads = s.reads := rfl
@[simp] theorem State.setHost_bench (l : List HostAction) : (s.setHost l).bench = s.bench := rfl
@[simp] theorem State.setHost_pc (l : List HostAction) : (s.setHost l).pc = s.pc := rfl
@[simp] theorem State.setHost_busOpen (l : List HostAction) : (s.setHost l).busOpen = s.busOpen := rfl
@[simp] theorem State.setHost_rst (l : List HostAction) : (s.setHost l).rst = s.rst := rfl
@[simp] theorem State.setHost_dc (l : List HostAction) : (s.setHost l).dc = s.dc := rfl
@[simp] theorem State.setHost_busy (l : List HostAction) : (s.setHost l).busy = s.busy := rfl
@[simp] theorem State.setHost_rx (l : List HostAction) : (s.setHost l).rx = s.rx := rfl
@[simp] theorem State.setHost_draws (l : List HostAction) : (s.setHost l).draws = s.draws := rfl
@[simp] theorem State.setHost_stall (l : List HostAction) : (s.setHost l).stall = s.stall := rfl
@[simp] theorem State.setHost_sqrt (l : List HostAction) : (s.setHost l).sqrt = s.sqrt := rfl
@[simp] theorem State.setHost_fault (l : List HostAction) : (s.setHost l).fault = s.fault := rfl
@[simp] theorem State.setHost_ctl (l : List HostAction) : (s.setHost l).ctl = s.ctl := rfl
@[simp] theorem State.setHost_trace (l : List HostAction) : (s.setHost l).trace = s.trace := rfl

/-! ### `State.setBench` -/

@[simp] theorem State.setBench_cfg (l : List BusUnit) : (s.setBench l).cfg = s.cfg := rfl
@[simp] theorem State.setBench_ops (l : List BusUnit) : (s.setBench l).ops = s.ops := rfl
@[simp] theorem State.setBench_host (l : List BusUnit) : (s.setBench l).host = s.host := rfl
@[simp] theorem State.setBench_reads (l : List BusUnit) : (s.setBench l).reads = s.reads := rfl
@[simp] theorem State.setBench_bench (l : List BusUnit) : (s.setBench l).bench = l := rfl
@[simp] theorem State.setBench_pc (l : List BusUnit) : (s.setBench l).pc = s.pc := rfl
@[simp] theorem State.setBench_busOpen (l : List BusUnit) : (s.setBench l).busOpen = s.busOpen := rfl
@[simp] theorem State.setBench_rst (l : List BusUnit) : (s.setBench l).rst = s.rst := rfl
@[simp] theorem State.setBench_dc (l : List BusUnit) : (s.setBench l).dc = s.dc := rfl
@[simp] theorem State.setBench_busy (l : List BusUnit) : (s.setBench l).busy = s.busy := rfl
@[simp] theorem State.setBench_rx (l : List BusUnit) : (s.setBench l).rx = s.rx := rfl
@[simp] theorem State.setBench_draws (l : List BusUnit) : (s.setBench l).draws = s.draws := rfl
@[simp] theorem State.setBench_stall (l : List BusUnit) : (s.setBench l).stall = s.stall := rfl
@[simp] theorem State.setBench_sqrt (l : List BusUnit) : (s.setBench l).sqrt = s.sqrt := rfl
@[simp] theorem State.setBench_fault (l : List BusUnit) : (s.setBench l).fault = s.fault := rfl
@[simp] theorem State.setBench_ctl (l : List BusUnit) : (s.setBench l).ctl = s.ctl := rfl
@[simp] theorem State.setBench_trace (l : List BusUnit) : (s.setBench l).trace = s.trace := rfl

/-! ### `State.logRead` -/

@[simp] theorem State.logRead_cfg (r : ReadResult) : (s.logRead r).cfg = s.cfg := rfl
@[simp] theorem State.logRead_ops (r : ReadResult) : (s.logRead r).ops = s.ops := rfl
@[simp] theorem State.logRead_host (r : ReadResult) : (s.logRead r).host = s.host := rfl
@[simp] theorem State.logRead_reads (r : ReadResult) : (s.logRead r).reads = s.reads ++ [r] := rfl
@[simp] theorem State.logRead_bench (r : ReadResult) : (s.logRead r).bench = s.bench := rfl
@[simp] theorem State.logRead_pc (r : ReadResult) : (s.logRead r).pc = s.pc := rfl
@[simp] theorem State.logRead_busOpen (r : ReadResult) : (s.logRead r).busOpen = s.busOpen := rfl
@[simp] theorem State.logRead_rst (r : ReadResult) : (s.logRead r).rst = s.rst := rfl
@[simp] theorem State.logRead_dc (r : ReadResult) : (s.logRead r).dc = s.dc := rfl
@[simp] theorem State.logRead_busy (r : ReadResult) : (s.logRead r).busy = s.busy := rfl
@[simp] theorem State.logRead_rx (r : ReadResult) : (s.logRead r).rx = s.rx := rfl
@[simp] theorem State.logRead_draws (r : ReadResult) : (s.logRead r).draws = s.draws := rfl
@[simp] theorem State.logRead_stall (r : ReadResult) : (s.logRead r).stall = s.stall := rfl
@[simp] theorem State.logRead_sqrt (r : ReadResult) : (s.logRead r).sqrt = s.sqrt := rfl
@[simp] theorem State.logRead_fault (r : ReadResult) : (s.logRead r).fault = s.fault := rfl
@[simp] theorem State.logRead_ctl (r : ReadResult) : (s.logRead r).ctl = s.ctl := rfl
@[simp] theorem State.logRead_trace (r : ReadResult) : (s.logRead r).trace = s.trace := rfl

/-! ### `State.startTransfer` -/

@[simp] theorem State.startTransfer_cfg (u : BusUnit) : (s.startTransfer u).cfg = s.cfg := rfl
@[simp] theorem State.startTransfer_ops (u : BusUnit) : (s.startTransfer u).ops = s.ops := rfl
@[simp] theorem State.startTransfer_host (u : BusUnit) : (s.startTransfer u).host = s.host := rfl
@[simp] theorem State.startTransfer_reads (u : BusUnit) : (s.startTransfer u).reads = s.reads := rfl
@[simp] theorem State.startTransfer_bench (u : BusUnit) : (s.startTransfer u).bench = s.bench := rfl
@[simp] theorem State.startTransfer_pc (u : BusUnit) : (s.startTransfer u).pc = s.pc := rfl
@[simp] theorem State.startTransfer_busOpen (u : BusUnit) : (s.startTransfer u).busOpen = s.busOpen := rfl
@[simp] theorem State.startTransfer_rst (u : BusUnit) : (s.startTransfer u).rst = s.rst := rfl
@[simp] theorem State.startTransfer_dc (u : BusUnit) : (s.startTransfer u).dc = some u.dc := rfl
@[simp] theorem State.startTransfer_busy (u : BusUnit) : (s.startTransfer u).busy = true := rfl
@[simp] theorem State.startTransfer_rx (u : BusUnit) : (s.startTransfer u).rx = s.rx := rfl
@[simp] theorem State.startTransfer_draws (u : BusUnit) : (s.startTransfer u).draws = s.draws := rfl
@[simp] theorem State.startTransfer_stall (u : BusUnit) : (s.startTransfer u).stall = s.stall := rfl
@[simp] theorem State.startTransfer_sqrt (u : BusUnit) : (s.startTransfer u).sqrt = s.sqrt := rfl
@[simp] theorem State.startTransfer_fault (u : BusUnit) : (s.startTransfer u).fault = s.fault := rfl
@[simp] theorem State.startTransfer_ctl (u : BusUnit) : (s.startTransfer u).ctl = s.ctl := rfl
@[simp] theorem State.startTransfer_trace (u : BusUnit) : (s.startTransfer u).trace = s.trace ++ [u] := rfl

/-! ### `State.receiveByte` -/

@[simp] theorem State.receiveByte_cfg : s.receiveByte.cfg = s.cfg := rfl
@[simp] theorem State.receiveByte_ops : s.receiveByte.ops = s.ops := rfl
@[simp] theorem State.receiveByte_host : s.receiveByte.host = s.host := rfl
@[simp] theorem State.receiveByte_reads : s.receiveByte.reads = s.reads := rfl
@[simp] theorem State.receiveByte_bench : s.receiveByte.bench = s.bench := rfl
@[simp] theorem State.receiveByte_pc : s.receiveByte.pc = s.pc := rfl
@[simp] theorem State.receiveByte_busOpen : s.receiveByte.busOpen = s.busOpen := rfl
@[simp] theorem State.receiveByte_rst : s.receiveByte.rst = s.rst := rfl
@[simp] theorem State.receiveByte_dc : s.receiveByte.dc = s.dc := rfl
@[simp] theorem State.receiveByte_busy : s.receiveByte.busy = s.busy := rfl
@[simp] theorem State.receiveByte_rx : s.receiveByte.rx = some (Config.rxDraw s.draws) := rfl
@[simp] theorem State.receiveByte_draws : s.receiveByte.draws = s.draws + 1 := rfl
@[simp] theorem State.receiveByte_stall : s.receiveByte.stall = s.stall := rfl
@[simp] theorem State.receiveByte_sqrt : s.receiveByte.sqrt = s.sqrt := rfl
@[simp] theorem State.receiveByte_fault : s.receiveByte.fault = s.fault := rfl
@[simp] theorem State.receiveByte_ctl : s.receiveByte.ctl = s.ctl := rfl
@[simp] theorem State.receiveByte_trace : s.receiveByte.trace = s.trace := rfl

/-! ### `State.carry` -/

@[simp] theorem State.carry_cfg (u : BusUnit) : (s.carry u).cfg = s.cfg := rfl
@[simp] theorem State.carry_ops (u : BusUnit) : (s.carry u).ops = s.ops := rfl
@[simp] theorem State.carry_host (u : BusUnit) : (s.carry u).host = s.host := rfl
@[simp] theorem State.carry_reads (u : BusUnit) : (s.carry u).reads = s.reads := rfl
@[simp] theorem State.carry_bench (u : BusUnit) : (s.carry u).bench = s.bench := rfl
@[simp] theorem State.carry_pc (u : BusUnit) : (s.carry u).pc = s.pc := rfl
@[simp] theorem State.carry_busOpen (u : BusUnit) : (s.carry u).busOpen = s.busOpen := rfl
@[simp] theorem State.carry_rst (u : BusUnit) : (s.carry u).rst = s.rst := rfl
@[simp] theorem State.carry_dc (u : BusUnit) : (s.carry u).dc = some u.dc := rfl
@[simp] theorem State.carry_busy (u : BusUnit) : (s.carry u).busy = false := rfl
@[simp] theorem State.carry_rx (u : BusUnit) : (s.carry u).rx = some (Config.rxDraw s.draws) := rfl
@[simp] theorem State.carry_draws (u : BusUnit) : (s.carry u).draws = s.draws + 1 := rfl
@[simp] theorem State.carry_stall (u : BusUnit) : (s.carry u).stall = s.stall := rfl
@[simp] theorem State.carry_sqrt (u : BusUnit) : (s.carry u).sqrt = s.sqrt := rfl
@[simp] theorem State.carry_fault (u : BusUnit) : (s.carry u).fault = s.fault := rfl
@[simp] theorem State.carry_ctl (u : BusUnit) : (s.carry u).ctl = s.ctl := rfl
@[simp] theorem State.carry_trace (u : BusUnit) : (s.carry u).trace = s.trace ++ [u] := rfl

/-! ### `State.raise`: only `fault` can change -/

@[simp] theorem State.raise_cfg (i : FaultInfo) : (s.raise i).cfg = s.cfg := by
  unfold State.raise; split <;> rfl
@[simp] theorem State.raise_ops (i : FaultInfo) : (s.raise i).ops = s.ops := by
  unfold State.raise; split <;> rfl
@[simp] theorem State.raise_host (i : FaultInfo) : (s.raise i).host = s.host := by
  unfold State.raise; split <;> rfl
@[simp] theorem State.raise_reads (i : FaultInfo) : (s.raise i).reads = s.reads := by
  unfold State.raise; split <;> rfl
@[simp] theorem State.raise_bench (i : FaultInfo) : (s.raise i).bench = s.bench := by
  unfold State.raise; split <;> rfl
@[simp] theorem State.raise_pc (i : FaultInfo) : (s.raise i).pc = s.pc := by
  unfold State.raise; split <;> rfl
@[simp] theorem State.raise_busOpen (i : FaultInfo) : (s.raise i).busOpen = s.busOpen := by
  unfold State.raise; split <;> rfl
@[simp] theorem State.raise_rst (i : FaultInfo) : (s.raise i).rst = s.rst := by
  unfold State.raise; split <;> rfl
@[simp] theorem State.raise_dc (i : FaultInfo) : (s.raise i).dc = s.dc := by
  unfold State.raise; split <;> rfl
@[simp] theorem State.raise_busy (i : FaultInfo) : (s.raise i).busy = s.busy := by
  unfold State.raise; split <;> rfl
@[simp] theorem State.raise_rx (i : FaultInfo) : (s.raise i).rx = s.rx := by
  unfold State.raise; split <;> rfl
@[simp] theorem State.raise_draws (i : FaultInfo) : (s.raise i).draws = s.draws := by
  unfold State.raise; split <;> rfl
@[simp] theorem State.raise_stall (i : FaultInfo) : (s.raise i).stall = s.stall := by
  unfold State.raise; split <;> rfl
@[simp] theorem State.raise_sqrt (i : FaultInfo) : (s.raise i).sqrt = s.sqrt := by
  unfold State.raise; split <;> rfl
@[simp] theorem State.raise_ctl (i : FaultInfo) : (s.raise i).ctl = s.ctl := by
  unfold State.raise; split <;> rfl
@[simp] theorem State.raise_trace (i : FaultInfo) : (s.raise i).trace = s.trace := by
  unfold State.raise; split <;> rfl

/-- The first fault is recorded with the pc (60_exceptions.md R300). -/
theorem State.raise_of_none (i : FaultInfo) (h : s.fault = none) :
    s.raise i = { s with fault := some ⟨i, s.pc⟩ } := by
  simp [State.raise, h]

/-- A recorded fault is never overwritten (10_state.md R39). -/
theorem State.raise_of_some (i : FaultInfo) (r : FaultRecord) (h : s.fault = some r) : s.raise i = s := by
  simp [State.raise, h]

/-- Setting the Controller twice keeps the second. -/
@[simp] theorem State.setCtl_setCtl (c d : Controller) : (s.setCtl c).setCtl d = s.setCtl d := rfl

/-- Setting the Controller to what it is changes nothing. -/
@[simp] theorem State.setCtl_self : s.setCtl s.ctl = s := rfl

/-- A completed transfer does not depend on the Controller's state. -/
theorem State.carry_setCtl (u : BusUnit) (c : Controller) : (s.setCtl c).carry u = (s.carry u).setCtl c := rfl

/-! ### `State.carryAll` -/

@[simp] theorem State.carryAll_nil : s.carryAll [] = s := rfl

@[simp] theorem State.carryAll_cons (u : BusUnit) (us : List BusUnit) :
    s.carryAll (u :: us) = (s.carry u).carryAll us := rfl

theorem State.carryAll_append (us vs : List BusUnit) : s.carryAll (us ++ vs) = (s.carryAll us).carryAll vs :=
  List.foldl_append

theorem State.carryAll_setCtl (us : List BusUnit) (c : Controller) :
    (s.setCtl c).carryAll us = (s.carryAll us).setCtl c := by
  induction us generalizing s with
  | nil => rfl
  | cons u us ih => exact ih (s.carry u)

@[simp] theorem State.carryAll_cfg (us : List BusUnit) : (s.carryAll us).cfg = s.cfg := by
  induction us generalizing s with
  | nil => rfl
  | cons u us ih => simp [ih]
@[simp] theorem State.carryAll_ops (us : List BusUnit) : (s.carryAll us).ops = s.ops := by
  induction us generalizing s with
  | nil => rfl
  | cons u us ih => simp [ih]
@[simp] theorem State.carryAll_host (us : List BusUnit) : (s.carryAll us).host = s.host := by
  induction us generalizing s with
  | nil => rfl
  | cons u us ih => simp [ih]
@[simp] theorem State.carryAll_reads (us : List BusUnit) : (s.carryAll us).reads = s.reads := by
  induction us generalizing s with
  | nil => rfl
  | cons u us ih => simp [ih]
@[simp] theorem State.carryAll_bench (us : List BusUnit) : (s.carryAll us).bench = s.bench := by
  induction us generalizing s with
  | nil => rfl
  | cons u us ih => simp [ih]
@[simp] theorem State.carryAll_pc (us : List BusUnit) : (s.carryAll us).pc = s.pc := by
  induction us generalizing s with
  | nil => rfl
  | cons u us ih => simp [ih]
@[simp] theorem State.carryAll_busOpen (us : List BusUnit) : (s.carryAll us).busOpen = s.busOpen := by
  induction us generalizing s with
  | nil => rfl
  | cons u us ih => simp [ih]
@[simp] theorem State.carryAll_rst (us : List BusUnit) : (s.carryAll us).rst = s.rst := by
  induction us generalizing s with
  | nil => rfl
  | cons u us ih => simp [ih]
@[simp] theorem State.carryAll_stall (us : List BusUnit) : (s.carryAll us).stall = s.stall := by
  induction us generalizing s with
  | nil => rfl
  | cons u us ih => simp [ih]
@[simp] theorem State.carryAll_sqrt (us : List BusUnit) : (s.carryAll us).sqrt = s.sqrt := by
  induction us generalizing s with
  | nil => rfl
  | cons u us ih => simp [ih]
@[simp] theorem State.carryAll_fault (us : List BusUnit) : (s.carryAll us).fault = s.fault := by
  induction us generalizing s with
  | nil => rfl
  | cons u us ih => simp [ih]
@[simp] theorem State.carryAll_ctl (us : List BusUnit) : (s.carryAll us).ctl = s.ctl := by
  induction us generalizing s with
  | nil => rfl
  | cons u us ih => simp [ih]
@[simp] theorem State.carryAll_trace (us : List BusUnit) : (s.carryAll us).trace = s.trace ++ us := by
  induction us generalizing s with
  | nil => simp
  | cons u us ih => simp [ih]
theorem State.carryAll_busy {s : State} (h : s.busy = false) (us : List BusUnit) : (s.carryAll us).busy = false := by
  induction us generalizing s with
  | nil => exact h
  | cons u us ih => exact ih (s := s.carry u) rfl

@[simp] theorem State.carryAll_draws (us : List BusUnit) : (s.carryAll us).draws = s.draws + us.length := by
  induction us generalizing s with
  | nil => rfl
  | cons u us ih => simp [ih]; omega

end Sys2Proof.Machine
end

