-- ==== Sys2Proof/Laws/Run.lean ====
section
/-! SUPPORT. The laws of running parts in order, and of raising a fault. -/
namespace Sys2Proof.Machine

@[simp] theorem Run.andThen_ok (s : State) (f : State → Run) : (Run.ok s).andThen f = f s := rfl

@[simp] theorem Run.andThen_stop (s : State) (f : State → Run) : (Run.stop s).andThen f = .stop s := rfl

@[simp] theorem Run.state_ok (s : State) : (Run.ok s).state = s := rfl

@[simp] theorem Run.state_stop (s : State) : (Run.stop s).state = s := rfl

theorem Run.andThen_assoc (r : Run) (f g : State → Run) :
    (r.andThen f).andThen g = r.andThen fun s => (f s).andThen g := by
  cases r <;> rfl

@[simp] theorem Run.andThen_id (r : Run) : r.andThen .ok = r := by cases r <;> rfl

@[simp] theorem runAll_nil {α : Type} (f : α → State → Run) (s : State) : runAll f [] s = .ok s := rfl

theorem runAll_cons {α : Type} (f : α → State → Run) (a : α) (l : List α) (s : State) :
    runAll f (a :: l) s = (f a s).andThen (runAll f l) := rfl

theorem runAll_append {α : Type} (f : α → State → Run) (l m : List α) (s : State) :
    runAll f (l ++ m) s = (runAll f l s).andThen (runAll f m) := by
  induction l generalizing s with
  | nil => rfl
  | cons a l ih =>
    rw [List.cons_append, runAll_cons, runAll_cons, Run.andThen_assoc]
    exact congrArg _ (funext ih)

@[simp] theorem complete_ok (s : State) : complete (.ok s) = .next s.advancePc := rfl

@[simp] theorem complete_stop (s : State) : complete (.stop s) = .next s := rfl

/-- What a whole operation answers: a next state, with the pc advanced exactly when every part went through. -/
theorem complete_cases {r : Run} {t : State} (h : complete r = .next t) :
    (∃ s, r = .ok s ∧ t = s.advancePc) ∨ r = .stop t := by
  cases r with
  | ok s => exact .inl ⟨s, rfl, by simpa using h.symm⟩
  | stop s => simp only [complete_stop, Host.Outcome.next.injEq] at h; exact .inr (h ▸ rfl)

theorem raiseStop_eq (s : State) (f : FaultInfo) : raiseStop s f = .stop (s.raise f) := rfl

/-- A property that every part keeps holds of the state a run leaves. -/
theorem runAll_induct {α : Type} {f : α → State → Run} {P : State → Prop} {l : List α}
    (hf : ∀ a ∈ l, ∀ s, P s → P (f a s).state) (s : State) (h : P s) : P (runAll f l s).state := by
  induction l generalizing s with
  | nil => exact h
  | cons a l ih =>
    rw [runAll_cons]
    have := hf a List.mem_cons_self s h
    cases hr : f a s with
    | ok s' => rw [hr] at this; exact ih (fun b hb => hf b (List.mem_cons_of_mem _ hb)) s' this
    | stop s' => rw [hr] at this; exact this

/-- The same for a part repeated. -/
theorem repeatRun_induct {f : State → Run} {P : State → Prop} (hf : ∀ s, P s → P (f s).state) (n : Nat) (s : State)
    (h : P s) : P (repeatRun f n s).state := by
  induction n generalizing s with
  | zero => exact h
  | succ n ih =>
    have := hf s h
    simp only [repeatRun]
    cases hr : f s with
    | ok s' => rw [hr] at this; exact ih s' this
    | stop s' => rw [hr] at this; exact this

/-- A property kept by two parts is kept by one after the other. -/
theorem andThen_induct {P : State → Prop} {r : Run} {f : State → Run} (hr : P r.state)
    (hf : ∀ s, P s → P (f s).state) : P (r.andThen f).state := by
  cases r with
  | ok s => exact hf s hr
  | stop s => exact hr

end Sys2Proof.Machine
end

