-- ==== Sys2Proof/Laws/Transport.lean ====
section
/-! SUPPORT. What one transfer can do, and what a sequence of transfers does over a link that is up. -/
namespace Sys2Proof.Machine

/-- A transfer that the Bus completes and the Controller accepts (40_bus_transport.md R124). -/
theorem xfer_ok {u : BusUnit} {s : State} {c : Controller} (hb : s.busOpen = true) (hst : s.stall = none)
    (hr : receive s.cfg s.rst u s.ctl = .ok c) : xfer u s = .ok ((s.carry u).setCtl c) := by
  simp only [xfer, hb, if_true, State.startTransfer_cfg, State.startTransfer_rst, State.startTransfer_ctl, hr,
    completeTransfer, State.receiveByte_stall, State.setCtl_stall, State.startTransfer_stall, hst]
  simp [State.carry, State.setCtl, State.startTransfer, State.receiveByte, hst]

/-- A transfer with the bus closed: nothing is sent (40_bus_transport.md R124). -/
theorem xfer_closed {u : BusUnit} {s : State} (hb : s.busOpen = false) :
    xfer u s = .stop (s.raise (.busClosed u.dc u.byte)) := by
  simp [xfer, hb, raiseStop]

/-- A transfer on which the Controller faults: the unit is in T, and the transfer goes no further
(40_bus_transport.md R124, 60_exceptions.md R309). -/
theorem xfer_raised {u : BusUnit} {s : State} {c : Controller} {f : FaultInfo} (hb : s.busOpen = true)
    (hr : receive s.cfg s.rst u s.ctl = .raised c f) :
    xfer u s = .stop (((s.startTransfer u).setCtl c).raise f) := by
  simp [xfer, hb, hr, raiseStop]

/-- Everything one transfer can do. -/
theorem xfer_cases (u : BusUnit) (s : State) :
    (s.busOpen = false ∧ xfer u s = .stop (s.raise (.busClosed u.dc u.byte))) ∨
    (s.busOpen = true ∧ ∃ c f, receive s.cfg s.rst u s.ctl = .raised c f ∧
      xfer u s = .stop (((s.startTransfer u).setCtl c).raise f)) ∨
    (s.busOpen = true ∧ ∃ c, receive s.cfg s.rst u s.ctl = .ok c ∧
      ((s.stall = none ∧ xfer u s = .ok ((s.carry u).setCtl c)) ∨
       (s.stall = some 0 ∧ xfer u s = .stop (((s.startTransfer u).setCtl c).receiveByte)) ∨
       (∃ n, s.stall = some (n + 1) ∧ xfer u s = .ok { (s.carry u).setCtl c with stall := some n }))) := by
  cases hb : s.busOpen with
  | false => exact .inl ⟨rfl, xfer_closed hb⟩
  | true =>
    cases hr : receive s.cfg s.rst u s.ctl with
    | raised c f => exact .inr (.inl ⟨rfl, c, f, rfl, xfer_raised hb hr⟩)
    | ok c =>
      refine .inr (.inr ⟨rfl, c, rfl, ?_⟩)
      cases hst : s.stall with
      | none => exact .inl ⟨rfl, xfer_ok hb hst hr⟩
      | some n =>
        cases n with
        | zero =>
          refine .inr (.inl ⟨rfl, ?_⟩)
          simp [xfer, hb, hr, completeTransfer, hst]
        | succ n =>
          refine .inr (.inr ⟨n, rfl, ?_⟩)
          simp only [xfer, hb, if_true, State.startTransfer_cfg, State.startTransfer_rst, State.startTransfer_ctl, hr,
            completeTransfer, State.receiveByte_stall, State.setCtl_stall, State.startTransfer_stall, hst]
          rfl

/-- A sequence of transfers that the Controller accepts (40_bus_transport.md R129). -/
theorem sendAll_ok {us : List BusUnit} {s : State} {c : Controller} (hb : s.busOpen = true) (hst : s.stall = none)
    (hrst : s.rst = .inactive) (hf : feed s.cfg us s.ctl = .ok c) :
    sendAll us s = .ok ((s.carryAll us).setCtl c) := by
  induction us generalizing s with
  | nil =>
    simp only [feed, CtlResult.ok.injEq] at hf
    subst hf
    rfl
  | cons u us ih =>
    simp only [feed] at hf
    cases hr : receive s.cfg .inactive u s.ctl with
    | raised d f => rw [hr] at hf; cases hf
    | ok d =>
      rw [hr] at hf
      have h1 : xfer u s = .ok ((s.carry u).setCtl d) := xfer_ok hb hst (hrst ▸ hr)
      rw [sendAll, runAll_cons, h1]
      refine Eq.trans (ih (s := (s.carry u).setCtl d) hb hst hrst hf) ?_
      rw [State.carryAll_cons, State.carryAll_setCtl, State.setCtl_setCtl]

/-- The pixels of WRITE_PIXELS, two transfers each, are the sequence of their units (42_controller_protocol.md R204). -/
theorem repeatRun_pixels (c : Color) (n : Nat) (s : State) :
    repeatRun (fun s => (xfer (dataUnit (hi8 c)) s).andThen (xfer (dataUnit (lo8 c)))) n s =
      sendAll (pixelUnits c n) s := by
  induction n generalizing s with
  | zero => rfl
  | succ n ih =>
    have hsplit : pixelUnits c (n + 1) = dataUnit (hi8 c) :: dataUnit (lo8 c) :: pixelUnits c n := by
      simp [pixelUnits, List.replicate_succ, wordUnits]
    rw [hsplit, repeatRun, sendAll, runAll_cons, Run.andThen_assoc]
    refine congrArg _ (funext fun s => ?_)
    rw [runAll_cons]
    exact congrArg _ (funext fun s => ih s)

end Sys2Proof.Machine
end

