-- ==== Sys2Proof/Laws/Draw.lean ====
section
/-! SUPPORT. What the sub-operations of drawing do when the block is ready: the gate, SET_WINDOW, the window write,
and the same part for each element of a list. -/
namespace Sys2Proof.Machine

/-- The drawing gate lets a block in phase On through (42_controller_protocol.md R207). -/
theorem gate_on {k : Op} {s : State} (h : s.ctl.phase = .on) : gate k s = .ok s := by
  simp [gate, h]

/-- The drawing gate stops every other phase (42_controller_protocol.md R207). -/
theorem gate_off {k : Op} {s : State} (h : s.ctl.phase ≠ .on) : gate k s = .stop (s.raise (.notOn k.code)) := by
  simp [gate, h, raiseStop]

/-- The word of a natural number. -/
theorem word_natCast (n : Nat) : word (n : Int) = BitVec.ofNat 16 n := by
  simp [word, BitVec.ofInt_natCast]

/-- SET_WINDOW of a window in the frame (42_controller_protocol.md R200). -/
theorem opSetWindow_ok {s : State} {x0 y0 x1 y1 : Int} (h : Drawing s) (hw : WindowIn s.ctl.orient x0 y0 x1 y1) :
    opSetWindow x0 y0 x1 y1 s = .ok ((s.carryAll (windowUnits s.cfg x0 y0 x1 y1)).setCtl
      (s.ctl.windowSet (word x0) (word y0) (word x1) (word y1))) := by
  obtain ⟨hx0, hx, hX, hy0, hy, hY⟩ := hw
  simp only [opSetWindow, gate_on h.phase, Run.andThen_ok]
  rw [if_neg (by omega), if_neg (by omega)]
  exact sendAll_ok h.busOpen h.stall h.rst
    (feed_windowUnits (Config.wf_opcs h.codes) h.settle h.closable h.phase)

/-- The window of a window in the frame, as numbers. -/
def winOf (x0 y0 x1 y1 : Int) : Win := ⟨x0.toNat, y0.toNat, (x1 - x0 + 1).toNat, (y1 - y0 + 1).toNat⟩

/-- A latched window in the frame holds its numbers. -/
theorem windowHolds_windowSet {c : Controller} {x0 y0 x1 y1 : Int} (hw : WindowIn c.orient x0 y0 x1 y1) :
    WindowHolds (c.windowSet (word x0) (word y0) (word x1) (word y1)) (winOf x0 y0 x1 y1) := by
  obtain ⟨hx0, hx, hX, hy0, hy, hY⟩ := hw
  have hW := frameW_le c.orient
  have hH := frameH_le c.orient
  obtain ⟨X0, rfl⟩ := Int.eq_ofNat_of_zero_le hx0
  obtain ⟨X1, rfl⟩ := Int.eq_ofNat_of_zero_le (Int.le_trans hx0 hx)
  obtain ⟨Y0, rfl⟩ := Int.eq_ofNat_of_zero_le hy0
  obtain ⟨Y1, rfl⟩ := Int.eq_ofNat_of_zero_le (Int.le_trans hy0 hy)
  have e1 : ((X0 : Int)).toNat + ((X1 : Int) - X0 + 1).toNat - 1 = X1 := by omega
  have e2 : ((Y0 : Int)).toNat + ((Y1 : Int) - Y0 + 1).toNat - 1 = Y1 := by omega
  constructor
  · show 0 < ((X1 : Int) - X0 + 1).toNat
    omega
  · show 0 < ((Y1 : Int) - Y0 + 1).toNat
    omega
  · simp [Controller.windowSet, winOf, word_natCast]
  · simp only [Controller.windowSet, winOf, word_natCast, e1]
  · simp [Controller.windowSet, winOf, word_natCast]
  · simp only [Controller.windowSet, winOf, word_natCast, e2]
  · show ((X0 : Int)).toNat + ((X1 : Int) - X0 + 1).toNat ≤ frameW c.orient
    simp only [Int.ofNat_eq_natCast] at hX
    omega
  · show ((Y0 : Int)).toNat + ((Y1 : Int) - Y0 + 1).toNat ≤ frameH c.orient
    simp only [Int.ofNat_eq_natCast] at hY
    omega

/-- RAMWR and n pixels over a latched window (42_controller_protocol.md R204, 41_controller_commands.md R159, R160). -/
theorem feed_stream {cfg : Config} (hc : cfg.opcsDistinct = true) (hmap : MapsWf cfg) {c : Controller} {v : Win}
    (hs : c.settle = none) (hcl : c.closable = true) (hp : c.phase = .on) (hv : WindowHolds c v) {n : Nat}
    (hn : n ≤ v.w * v.h) (col : Color) :
    feed cfg (cmdUnit cfg .ramwr :: pixelUnits col n) c =
      .ok (c.streamAt v n (streamMemory cfg c.orient v col n c.gram)) := by
  have h0 := receive_command (k := .ramwr) hc hs hcl (by simp [admits, hp])
  rw [show startCommand .ramwr c.closed = .ok (c.streamAt v 0 c.gram) from startRamwr_ok hv] at h0
  exact (feed_cons_ok h0).trans (feed_pixelUnits hmap hs hv hn c.gram col)

/-- WRITE_PIXELS over a latched window in the frame, the count at most the area (42_controller_protocol.md R204). -/
theorem opWritePixels_ok {s : State} {v : Win} (h : Drawing s) (hmap : MapsWf s.cfg) (hv : WindowHolds s.ctl v)
    {n : Nat} (hn : n ≤ v.w * v.h) (col : Color) :
    opWritePixels col n s = .ok ((s.carryAll (cmdUnit s.cfg .ramwr :: pixelUnits col n)).setCtl
      (s.ctl.streamAt v n (streamMemory s.cfg s.ctl.orient v col n s.ctl.gram))) := by
  have hW := frameW_le s.ctl.orient
  have hH := frameH_le s.ctl.orient
  have hX := hv.inX
  have hY := hv.inY
  have hw := hv.w
  have hh := hv.h
  have exs : (BitVec.ofNat 16 v.x0).toNat = v.x0 := by
    rw [BitVec.toNat_ofNat]; exact Nat.mod_eq_of_lt (by omega)
  have exe : (BitVec.ofNat 16 (v.x0 + v.w - 1)).toNat = v.x0 + v.w - 1 := by
    rw [BitVec.toNat_ofNat]; exact Nat.mod_eq_of_lt (by omega)
  have eys : (BitVec.ofNat 16 v.y0).toNat = v.y0 := by
    rw [BitVec.toNat_ofNat]; exact Nat.mod_eq_of_lt (by omega)
  have eye : (BitVec.ofNat 16 (v.y0 + v.h - 1)).toNat = v.y0 + v.h - 1 := by
    rw [BitVec.toNat_ofNat]; exact Nat.mod_eq_of_lt (by omega)
  have harea : windowArea (BitVec.ofNat 16 v.x0) (BitVec.ofNat 16 (v.x0 + v.w - 1)) (BitVec.ofNat 16 v.y0)
      (BitVec.ofNat 16 (v.y0 + v.h - 1)) = ((v.w * v.h : Nat) : Int) := by
    have a1 : ((v.x0 + v.w - 1 : Nat) : Int) - (v.x0 : Int) + 1 = (v.w : Int) := by omega
    have a2 : ((v.y0 + v.h - 1 : Nat) : Int) - (v.y0 : Int) + 1 = (v.h : Int) := by omega
    simp only [windowArea, int16, exs, exe, eys, eye, Int.ofNat_eq_natCast, a1, a2, Int.natCast_mul]
  have hlt : ¬ ((v.w * v.h : Nat) : Int) < (n : Int) := by omega
  have hseq := sendAll_ok h.busOpen h.stall h.rst
    (feed_stream (Config.wf_opcs h.codes) hmap h.settle h.closable h.phase hv hn col)
  rw [sendAll, runAll_cons] at hseq
  simp only [opWritePixels, gate_on h.phase, Run.andThen_ok, hv.xs, hv.xe, hv.ys, hv.ye, harea, hlt, if_false,
    Int.toNat_natCast]
  rw [← hseq]
  exact congrArg _ (funext fun s => repeatRun_pixels col n s)

/-- What SET_WINDOW leaves is ready to draw. -/
theorem drawing_windowSet {s : State} {us : List BusUnit} (h : Drawing s) (x0 y0 x1 y1 : Word) :
    Drawing ((s.carryAll us).setCtl (s.ctl.windowSet x0 y0 x1 y1)) where
  busOpen := by simpa using h.busOpen
  rst := by simpa using h.rst
  settle := h.settle
  stall := by simpa using h.stall
  phase := h.phase
  closable := by simp [Controller.closable, Controller.windowSet, paramCount]
  codes := by simpa using h.codes

/-- The window write of a window in the frame, the count at most its area (42_controller_protocol.md R205). -/
theorem windowWrite_ok {s : State} {x0 y0 x1 y1 : Int} {n : Nat} (h : Drawing s) (hmap : MapsWf s.cfg)
    (hw : WindowIn s.ctl.orient x0 y0 x1 y1) (hn : n ≤ (x1 - x0 + 1).toNat * (y1 - y0 + 1).toNat) (col : Color) :
    windowWrite x0 y0 x1 y1 col n s =
      .ok ((s.carryAll (windowWriteUnits s.cfg x0 y0 x1 y1 col n)).setCtl
        ((s.ctl.windowSet (word x0) (word y0) (word x1) (word y1)).streamAt (winOf x0 y0 x1 y1) n
          (streamMemory s.cfg s.ctl.orient (winOf x0 y0 x1 y1) col n s.ctl.gram))) := by
  have hd := drawing_windowSet (us := windowUnits s.cfg x0 y0 x1 y1) h (word x0) (word y0) (word x1) (word y1)
  have hv := windowHolds_windowSet hw
  simp only [windowWrite, opSetWindow_ok h hw, Run.andThen_ok]
  refine Eq.trans (opWritePixels_ok (v := winOf x0 y0 x1 y1) hd (by simpa using hmap) hv hn col) ?_
  simp only [State.setCtl_cfg, State.carryAll_cfg, State.carryAll_setCtl, State.setCtl_setCtl, State.setCtl_ctl,
    windowWriteUnits, State.carryAll_append]
  rfl

/-- A nonnegative start and a natural offset, as a natural number. -/
theorem toNat_add_natCast {x : Int} (hx : 0 ≤ x) (k : Nat) : (x + (k : Int)).toNat = x.toNat + k := by omega

/-- A window write went through: the units of R206 were sent and the first n positions of the window painted. -/
theorem windowWrite_drew {s : State} {x0 y0 x1 y1 : Int} {n : Nat} (h : Drawing s) (hmap : MapsWf s.cfg)
    (hw : WindowIn s.ctl.orient x0 y0 x1 y1) (hn : n ≤ (x1 - x0 + 1).toNat * (y1 - y0 + 1).toNat) (col : Color) :
    ∃ t, windowWrite x0 y0 x1 y1 col n s = .ok t ∧
      Drew 0 s t (windowWriteUnits s.cfg x0 y0 x1 y1 col n) (firstPositions x0 y0 x1 n) col ∧
      WindowIs t x0 y0 x1 y1 := by
  refine ⟨_, windowWrite_ok h hmap hw hn col, ?_, ?_⟩
  · exact
      { cfg := by simp
        ops := by simp
        host := by simp
        reads := by simp
        bench := by simp
        busOpen := by simp
        rst := by simp
        sqrt := by simp
        phase := rfl
        settle := rfl
        colmod := rfl
        orient := rfl
        pc := by simp
        fault := by simp
        trace := by simp
        busy := fun h => by simpa using State.carryAll_busy h _
        painted := by
          intro a
          refine Eq.trans (streamMemory_read s.cfg s.ctl.orient (winOf x0 y0 x1 y1) col n s.ctl.gram a) ?_
          have hlist : (List.range n).map (fun k => cellKey s.cfg s.ctl.orient
                ((winOf x0 y0 x1 y1).x0 + k % (winOf x0 y0 x1 y1).w)
                ((winOf x0 y0 x1 y1).y0 + k / (winOf x0 y0 x1 y1).w)) =
              (firstPositions x0 y0 x1 n).map (positionKey s.cfg s.ctl.orient) := by
            rw [firstPositions, List.map_map]
            refine List.map_congr_left fun k _ => ?_
            obtain ⟨hx0, -, -, hy0, -, -⟩ := hw
            simp only [Function.comp, positionKey, nthPosition, winOf, toNat_add_natCast hx0, toNat_add_natCast hy0]
          rw [hlist]
        ready :=
          { busOpen := by simpa using h.busOpen
            rst := by simpa using h.rst
            settle := h.settle
            stall := by simpa using h.stall
            phase := h.phase
            closable := by simp [Controller.closable, Controller.streamAt, paramCount]
            codes := by simpa using h.codes } }
  · exact ⟨rfl, rfl, rfl, rfl⟩

/-! ### Drawing one thing after another -/

theorem Drew.refl {s : State} {c : Color} (h : Drawing s) : Drew 0 s s [] [] c where
  cfg := rfl
  ops := rfl
  host := rfl
  reads := rfl
  bench := rfl
  busOpen := rfl
  rst := rfl
  sqrt := rfl
  phase := rfl
  settle := rfl
  colmod := rfl
  orient := rfl
  pc := rfl
  fault := rfl
  trace := by simp
  busy := id
  painted := fun _ => by simp
  ready := h

/-- Two drawings of one colour, one after the other. -/
theorem Drew.trans {a b : Nat} {s t u : State} {us vs : List BusUnit} {ps qs : List (Int × Int)} {c : Color}
    (h1 : Drew a s t us ps c) (h2 : Drew b t u vs qs c) : Drew (a + b) s u (us ++ vs) (ps ++ qs) c where
  cfg := h2.cfg.trans h1.cfg
  ops := h2.ops.trans h1.ops
  host := h2.host.trans h1.host
  reads := h2.reads.trans h1.reads
  bench := h2.bench.trans h1.bench
  busOpen := h2.busOpen.trans h1.busOpen
  rst := h2.rst.trans h1.rst
  sqrt := h2.sqrt.trans h1.sqrt
  phase := h2.phase.trans h1.phase
  settle := h2.settle.trans h1.settle
  colmod := h2.colmod.trans h1.colmod
  orient := h2.orient.trans h1.orient
  pc := by rw [h2.pc, h1.pc, Nat.add_assoc]
  fault := h2.fault.trans h1.fault
  trace := by rw [h2.trace, h1.trace, List.append_assoc]
  busy := fun h => h2.busy (h1.busy h)
  painted := by
    intro k
    rw [h2.painted k, h1.painted k, h1.cfg, h1.orient, List.map_append]
    by_cases hq : k ∈ qs.map (positionKey s.cfg s.ctl.orient)
    · rw [if_pos hq, if_pos (List.mem_append_right _ hq)]
    · rw [if_neg hq]
      by_cases hp : k ∈ ps.map (positionKey s.cfg s.ctl.orient)
      · rw [if_pos hp, if_pos (List.mem_append_left _ hp)]
      · rw [if_neg hp, if_neg fun h => (List.mem_append.1 h).elim hp hq]
  ready := h2.ready

/-- The pc step of a whole operation. -/
theorem Drew.advance {s t : State} {us : List BusUnit} {ps : List (Int × Int)} {c : Color} (h : Drew 0 s t us ps c) :
    Drew 1 s t.advancePc us ps c where
  cfg := h.cfg
  ops := h.ops
  host := h.host
  reads := h.reads
  bench := h.bench
  busOpen := h.busOpen
  rst := h.rst
  sqrt := h.sqrt
  phase := h.phase
  settle := h.settle
  colmod := h.colmod
  orient := h.orient
  pc := by rw [State.advancePc_pc, h.pc]
  fault := h.fault
  trace := h.trace
  busy := h.busy
  painted := h.painted
  ready :=
    { busOpen := h.ready.busOpen
      rst := h.ready.rst
      settle := h.ready.settle
      stall := h.ready.stall
      phase := h.ready.phase
      closable := h.ready.closable
      codes := h.ready.codes }

/-- A whole operation that draws. -/
theorem complete_drew {r : Run} {s t : State} {us : List BusUnit} {ps : List (Int × Int)} {c : Color}
    (hr : r = .ok t) (h : Drew 0 s t us ps c) : ∃ u, complete r = .next u ∧ Drew 1 s u us ps c :=
  ⟨t.advancePc, by rw [hr, complete_ok], h.advance⟩

/-- A part that draws for each element draws for the whole list. -/
theorem runAll_drew {α : Type} {f : α → State → Run} {units : Config → α → List BusUnit}
    {positions : α → List (Int × Int)} {ok : Orient → α → Prop} {c : Color}
    (hf : ∀ a s, Drawing s → MapsWf s.cfg → ok s.ctl.orient a →
      ∃ t, f a s = .ok t ∧ Drew 0 s t (units s.cfg a) (positions a) c)
    (l : List α) (s : State) (h : Drawing s) (hm : MapsWf s.cfg) (hl : ∀ a ∈ l, ok s.ctl.orient a) :
    ∃ t, runAll f l s = .ok t ∧ Drew 0 s t (l.flatMap (units s.cfg)) (l.flatMap positions) c := by
  induction l generalizing s with
  | nil => exact ⟨s, rfl, Drew.refl h⟩
  | cons a l ih =>
    obtain ⟨t, ht, hd⟩ := hf a s h hm (hl a List.mem_cons_self)
    obtain ⟨u, hu, he⟩ := ih t hd.ready (by rw [hd.cfg]; exact hm)
      (fun b hb => by rw [hd.orient]; exact hl b (List.mem_cons_of_mem _ hb))
    refine ⟨u, ?_, ?_⟩
    · rw [runAll_cons, ht, Run.andThen_ok, hu]
    · rw [List.flatMap_cons, List.flatMap_cons]
      rw [hd.cfg] at he
      exact hd.trans he

/-- Plotting one point in the frame (43_geometry_basic.md R221, R222). -/
theorem opPixel_drew {s : State} {p : Int × Int} (c : Color) (h : Drawing s) (hm : MapsWf s.cfg)
    (hp : InFrame s.ctl.orient p) :
    ∃ t, opPixel p.1 p.2 c s = .ok t ∧ Drew 0 s t (plotUnits s.cfg c p) [p] c ∧ WindowIs t p.1 p.2 p.1 p.2 := by
  obtain ⟨hx, hX, hy, hY⟩ := hp
  obtain ⟨t, ht, hd, hwin⟩ := windowWrite_drew (n := 1) h hm (x0 := p.1) (y0 := p.2) (x1 := p.1) (y1 := p.2)
    ⟨hx, Int.le_refl _, hX, hy, Int.le_refl _, hY⟩ (Nat.mul_pos (by omega) (by omega)) c
  refine ⟨t, ?_, ?_, hwin⟩
  · rw [opPixel, gate_on h.phase, Run.andThen_ok]
    exact ht
  · have e : firstPositions p.1 p.2 p.1 1 = [p] := by
      simp [firstPositions, nthPosition, List.range_succ]
    rw [e] at hd
    exact hd

/-- Plotting a list of points in the frame: the units of each, in order (43_geometry_basic.md R221). -/
theorem plotAll_drew {s : State} (c : Color) (l : List (Int × Int)) (h : Drawing s) (hm : MapsWf s.cfg)
    (hl : ∀ p ∈ l, InFrame s.ctl.orient p) :
    ∃ t, plotAll c l s = .ok t ∧ Drew 0 s t (l.flatMap (plotUnits s.cfg c)) l c := by
  obtain ⟨t, ht, hd⟩ := runAll_drew (f := fun p => opPixel p.1 p.2 c) (units := fun cfg => plotUnits cfg c)
    (positions := fun p => [p]) (ok := InFrame) (c := c)
    (fun p s h hm hp => by
      obtain ⟨t, ht, hd, -⟩ := opPixel_drew c h hm hp
      exact ⟨t, ht, hd⟩) l s h hm hl
  refine ⟨t, ht, ?_⟩
  rwa [List.flatMap_singleton'] at hd

/-- The window after a list of plots is the last point (43_geometry_basic.md R222). -/
theorem plotAll_window {s t : State} (c : Color) (l : List (Int × Int)) (p : Int × Int) (h : Drawing s)
    (hm : MapsWf s.cfg) (hl : ∀ q ∈ l ++ [p], InFrame s.ctl.orient q) (ht : plotAll c (l ++ [p]) s = .ok t) :
    WindowIs t p.1 p.2 p.1 p.2 := by
  obtain ⟨u, hu, hd⟩ := plotAll_drew c l h hm fun q hq => hl q (List.mem_append_left _ hq)
  rw [plotAll, runAll_append] at ht
  rw [plotAll] at hu
  rw [hu, Run.andThen_ok, runAll_cons] at ht
  obtain ⟨v, hv, -, hwin⟩ := opPixel_drew c hd.ready (by rw [hd.cfg]; exact hm)
    (p := p) (by rw [hd.orient]; exact hl p (List.mem_append_right _ (List.mem_singleton.2 rfl)))
  simp only [hv, Run.andThen_ok, runAll_nil, Run.ok.injEq] at ht
  exact ht ▸ hwin

/-- A horizontal span is in the frame (43_geometry_basic.md R223). -/
def HlineIn (o : Orient) (p : Int × Int × Int) : Prop := WindowIn o p.1 p.2.1 (p.1 + p.2.2 - 1) p.2.1

/-- A vertical span is in the frame (43_geometry_basic.md R224). -/
def VlineIn (o : Orient) (p : Int × Int × Int) : Prop := WindowIn o p.1 p.2.1 p.1 (p.2.1 + p.2.2 - 1)

/-- HLINE of a span in the frame (43_geometry_basic.md R223). -/
theorem opHline_drew {s : State} {p : Int × Int × Int} (c : Color) (h : Drawing s) (hm : MapsWf s.cfg)
    (hp : HlineIn s.ctl.orient p) :
    ∃ t, opHline p.1 p.2.1 p.2.2 c s = .ok t ∧ Drew 0 s t (hlineUnits s.cfg c p) (hlinePositions p) c ∧
      WindowIs t p.1 p.2.1 (p.1 + p.2.2 - 1) p.2.1 := by
  have hlen : 1 ≤ p.2.2 := by have := hp.2.1; omega
  have e1 : (p.1 + p.2.2 - 1 - p.1 + 1).toNat = p.2.2.toNat := by omega
  obtain ⟨t, ht, hd, hwin⟩ := windowWrite_drew (n := p.2.2.toNat) h hm hp (by
    have e2 : (p.2.1 - p.2.1 + 1).toNat = 1 := by omega
    rw [e1, e2]
    omega) c
  refine ⟨t, ?_, ?_, hwin⟩
  · rw [opHline, gate_on h.phase, Run.andThen_ok]
    rw [Int.toNat_of_nonneg (by omega)] at ht
    exact ht
  · have e : firstPositions p.1 p.2.1 (p.1 + p.2.2 - 1) p.2.2.toNat = hlinePositions p := by
      rw [firstPositions, hlinePositions, e1]
      refine List.map_congr_left fun k hk => ?_
      have hk' := List.mem_range.1 hk
      rw [nthPosition, Nat.mod_eq_of_lt hk', Nat.div_eq_of_lt hk']
      simp
    rw [e] at hd
    exact hd

/-- VLINE of a span in the frame (43_geometry_basic.md R224). -/
theorem opVline_drew {s : State} {p : Int × Int × Int} (c : Color) (h : Drawing s) (hm : MapsWf s.cfg)
    (hp : VlineIn s.ctl.orient p) :
    ∃ t, opVline p.1 p.2.1 p.2.2 c s = .ok t ∧ Drew 0 s t (vlineUnits s.cfg c p) (vlinePositions p) c ∧
      WindowIs t p.1 p.2.1 p.1 (p.2.1 + p.2.2 - 1) := by
  have hlen : 1 ≤ p.2.2 := by have := hp.2.2.2.2.1; omega
  have e1 : (p.1 - p.1 + 1).toNat = 1 := by omega
  obtain ⟨t, ht, hd, hwin⟩ := windowWrite_drew (n := p.2.2.toNat) h hm hp (by
    have e2 : (p.2.1 + p.2.2 - 1 - p.2.1 + 1).toNat = p.2.2.toNat := by omega
    rw [e1, e2]
    omega) c
  refine ⟨t, ?_, ?_, hwin⟩
  · rw [opVline, gate_on h.phase, Run.andThen_ok]
    rw [Int.toNat_of_nonneg (by omega)] at ht
    exact ht
  · have e : firstPositions p.1 p.2.1 p.1 p.2.2.toNat = vlinePositions p := by
      rw [firstPositions, vlinePositions, e1]
      refine List.map_congr_left fun k _ => ?_
      rw [nthPosition, Nat.mod_one, Nat.div_one]
      simp
    rw [e] at hd
    exact hd

/-- A list of horizontal spans in the frame. -/
theorem hlineAll_drew {s : State} (c : Color) (l : List (Int × Int × Int)) (h : Drawing s) (hm : MapsWf s.cfg)
    (hl : ∀ p ∈ l, HlineIn s.ctl.orient p) :
    ∃ t, hlineAll c l s = .ok t ∧ Drew 0 s t (l.flatMap (hlineUnits s.cfg c)) (l.flatMap hlinePositions) c :=
  runAll_drew (f := fun (p : Int × Int × Int) => opHline p.1 p.2.1 p.2.2 c) (units := fun cfg => hlineUnits cfg c)
    (positions := hlinePositions) (ok := HlineIn) (c := c)
    (fun p s h hm hp => by
      obtain ⟨t, ht, hd, -⟩ := opHline_drew c h hm hp
      exact ⟨t, ht, hd⟩) l s h hm hl

/-- A list of vertical spans in the frame. -/
theorem vlineAll_drew {s : State} (c : Color) (l : List (Int × Int × Int)) (h : Drawing s) (hm : MapsWf s.cfg)
    (hl : ∀ p ∈ l, VlineIn s.ctl.orient p) :
    ∃ t, vlineAll c l s = .ok t ∧ Drew 0 s t (l.flatMap (vlineUnits s.cfg c)) (l.flatMap vlinePositions) c :=
  runAll_drew (f := fun (p : Int × Int × Int) => opVline p.1 p.2.1 p.2.2 c) (units := fun cfg => vlineUnits cfg c)
    (positions := vlinePositions) (ok := VlineIn) (c := c)
    (fun p s h hm hp => by
      obtain ⟨t, ht, hd, -⟩ := opVline_drew c h hm hp
      exact ⟨t, ht, hd⟩) l s h hm hl

end Sys2Proof.Machine
end

