-- ==== Sys2Proof/Laws/Frame.lean ====
section
/-! SUPPORT. Frames: what a unit, a transfer and a drawing operation leave alone, whatever their outcome. -/
namespace Sys2Proof.Machine

/-! ### What one unit leaves of the Controller -/

/-- What a command unit other than SWRESET leaves alone, accepted or not. -/
structure CommandKept (k : Command) (c d : Controller) : Prop where
  colmod : d.colmod = c.colmod
  orient : d.orient = c.orient
  xs : d.xs = c.xs
  xe : d.xe = c.xe
  ys : d.ys = c.ys
  ye : d.ye = c.ye
  gram : d.gram = c.gram
  settle : k ≠ .slpout → d.settle = c.settle
  phase : k ≠ .slpout → k ≠ .dispon → k ≠ .dispoff → d.phase = c.phase
  pointer : k ≠ .ramwr → d.wpX = c.wpX ∧ d.wpY = c.wpY ∧ d.wpDone = c.wpDone

/-- What a data unit leaves alone, accepted or not. -/
structure DataKept (cfg : Config) (c d : Controller) : Prop where
  settle : d.settle = c.settle
  cmd : d.cmd = c.cmd
  format : c.cmd ≠ some .colmod → d.phase = c.phase ∧ d.colmod = c.colmod
  orient : c.cmd ≠ some .madctl → d.orient = c.orient
  columns : c.cmd ≠ some .caset → d.xs = c.xs ∧ d.xe = c.xe
  rows : c.cmd ≠ some .raset → d.ys = c.ys ∧ d.ye = c.ye
  stream : c.cmd ≠ some .ramwr →
    d.gram = c.gram ∧ d.wpX = c.wpX ∧ d.wpY = c.wpY ∧ d.wpDone = c.wpDone ∧ d.hi = c.hi
  cells : ∀ a, (∀ x y, c.wpX = some x → c.wpY = some y → a ≠ cellKey cfg c.orient x.toNat y.toNat) →
    d.gram.read a = c.gram.read a

/-- A Controller is its own frame. -/
theorem CommandKept.refl (k : Command) (c : Controller) : CommandKept k c c := by constructor <;> simp

theorem CommandKept.closed (k : Command) (c : Controller) : CommandKept k c c.closed := by
  constructor <;> simp [Controller.closed]

theorem DataKept.refl (cfg : Config) (c : Controller) : DataKept cfg c c := by constructor <;> simp

/-- The start of a command other than SWRESET. -/
theorem startCommand_kept {k : Command} (hk : k ≠ .swreset) (c : Controller) :
    CommandKept k c (startCommand k c).ctl := by
  cases k with
  | swreset => exact absurd rfl hk
  | ramwr =>
    simp only [startCommand, startRamwr]
    repeat' split
    all_goals constructor <;> simp [CtlResult.ctl]
  | slpout => constructor <;> simp [startCommand, startSlpout, CtlResult.ctl]
  | dispoff => constructor <;> simp [startCommand, startDispoff, CtlResult.ctl]
  | dispon => constructor <;> simp [startCommand, startDispon, CtlResult.ctl]
  | caset => constructor <;> simp [startCommand, startCaset, CtlResult.ctl]
  | raset => constructor <;> simp [startCommand, startRaset, CtlResult.ctl]
  | madctl => constructor <;> simp [startCommand, startMadctl, CtlResult.ctl]
  | colmod => constructor <;> simp [startCommand, startColmod, CtlResult.ctl]

/-- Everything a command unit can do: it is refused with the Controller as it was, or with the last command closed, or
it starts its command (41_controller_commands.md R140, R144). -/
theorem receive_command_cases {cfg : Config} (hc : cfg.opcsDistinct = true) (k : Command) (rst : Level)
    (c : Controller) :
    (∃ f, receive cfg rst (cmdUnit cfg k) c = .raised c f) ∨
    (∃ f, receive cfg rst (cmdUnit cfg k) c = .raised c.closed f) ∨
    (rst = .inactive ∧ c.settle = none ∧ admits k c.phase = true ∧
      receive cfg rst (cmdUnit cfg k) c = startCommand k c.closed) := by
  cases rst with
  | active => exact .inl ⟨_, rfl⟩
  | inactive =>
    cases hs : c.settle with
    | some s => exact .inl ⟨_, by simp [receive, hs]; rfl⟩
    | none =>
      rcases closeCommand_cases c with hcl | ⟨p, hcl⟩
      · have hp : c.closed.phase = c.phase := rfl
        cases ha : admits k c.phase with
        | false =>
          exact .inr (.inl ⟨_, by simp [receive, hs, cmdUnit, commandByte, hcl, commandOf_opcOf hc, hp, ha]; rfl⟩)
        | true =>
          exact .inr (.inr ⟨rfl, rfl, rfl, by
            simp [receive, hs, cmdUnit, commandByte, hcl, commandOf_opcOf hc, hp, ha]⟩)
      · exact .inl ⟨_, by simp [receive, hs, cmdUnit, commandByte, hcl]; rfl⟩

/-- A command unit other than SWRESET, accepted or not. -/
theorem receive_command_kept {cfg : Config} (hc : cfg.opcsDistinct = true) {k : Command} (hk : k ≠ .swreset)
    (rst : Level) (c : Controller) : CommandKept k c (receive cfg rst (cmdUnit cfg k) c).ctl := by
  rcases receive_command_cases hc k rst c with ⟨f, h⟩ | ⟨f, h⟩ | ⟨-, -, -, h⟩
  · rw [h]; exact .refl k c
  · rw [h]; exact .closed k c
  · rw [h]
    have hs := startCommand_kept hk c.closed
    have := CommandKept.closed k c
    exact
      { colmod := hs.colmod
        orient := hs.orient
        xs := hs.xs
        xe := hs.xe
        ys := hs.ys
        ye := hs.ye
        gram := hs.gram
        settle := hs.settle
        phase := hs.phase
        pointer := hs.pointer }

/-- `advance()` writes the pointer alone (20_memory.md R62). -/
theorem advancePointer_ctl (c : Controller) :
    ∃ x y d, (advancePointer c).ctl = { c with wpX := x, wpY := y, wpDone := d } := by
  unfold advancePointer
  repeat' split
  all_goals simp only [CtlResult.ctl]
  · exact ⟨_, _, _, rfl⟩
  · exact ⟨_, _, _, rfl⟩
  · exact ⟨_, _, _, rfl⟩
  · exact ⟨c.wpX, c.wpY, c.wpDone, rfl⟩

/-- `MemWrite` writes one cell, or raises and writes nothing (20_memory.md R63). -/
theorem memWrite_cases (cfg : Config) (x y : Nat) (col : Color) (c : Controller) :
    memWrite cfg x y col c = .ok { c with gram := c.gram.write (cellKey cfg c.orient x y) col } ∨
      ∃ f, memWrite cfg x y col c = .raised c f := by
  unfold memWrite
  simp only
  split
  · exact .inl rfl
  · exact .inr ⟨_, rfl⟩

/-- A low byte over a window that is not exhausted writes the cell the pointer names and moves the pointer, or raises
(41_controller_commands.md R160). -/
theorem pixelByte_low_cases {cfg : Config} {c : Controller} {h b : Byte} {x y : Word} (hh : c.hi = some h)
    (hd : c.wpDone = false) (hx : c.wpX = some x) (hy : c.wpY = some y) :
    pixelByte cfg b c = advancePointer
        { c with hi := none, gram := c.gram.write (cellKey cfg c.orient x.toNat y.toNat) (be16 h b) } ∨
      ∃ d f, pixelByte cfg b c = .raised d f := by
  have := memWrite_cases cfg x.toNat y.toNat (be16 h b) { c with hi := none }
  simp only [pixelByte, hh, hd, hx, hy, Bool.false_eq_true, if_false]
  simp only [hd, hx, hy] at this
  rcases this with h | ⟨f, h⟩
  · rw [h]; exact .inl rfl
  · rw [h]; exact .inr ⟨_, _, rfl⟩

/-- A byte of a pixel stream, accepted or not (41_controller_commands.md R160). -/
theorem pixelByte_kept (cfg : Config) (b : Byte) {c : Controller} (hk : c.cmd = some .ramwr) :
    DataKept cfg c (pixelByte cfg b c).ctl := by
  unfold pixelByte
  simp only
  split
  · constructor <;> simp [CtlResult.ctl, hk]
  · split
    · constructor <;> simp [CtlResult.ctl, hk]
    · split
      · rename_i h _ _ _ _ x y hx hy
        rcases memWrite_cases cfg x.toNat y.toNat (be16 h b) { c with hi := none } with hm | ⟨f, hm⟩
        · rw [hm]
          simp only
          obtain ⟨x', y', d, ha⟩ := advancePointer_ctl
            { c with hi := none, gram := c.gram.write (cellKey cfg c.orient x.toNat y.toNat) (be16 h b) }
          rw [ha]
          constructor <;> simp [hk]
          intro a hne
          exact Memory.read_write_other _ _ _ _ (hne x y hx hy)
        · rw [hm]
          constructor <;> simp [CtlResult.ctl, hk]
      · constructor <;> simp [CtlResult.ctl, hk]

/-- A parameter byte, accepted or not (41_controller_commands.md R147). -/
theorem paramByte_kept (cfg : Config) (b : Byte) {k : Command} {c : Controller} (hk : c.cmd = some k) :
    DataKept cfg c (paramByte cfg k b c).ctl := by
  unfold paramByte
  simp only
  split
  · exact .refl cfg c
  · split
    · unfold latch
      split
      · unfold latchColmod
        split <;> (constructor <;> simp [CtlResult.ctl, hk])
      · unfold latchMadctl
        split <;> (constructor <;> simp [CtlResult.ctl, hk])
      · constructor <;> simp [latchCaset, CtlResult.ctl, hk]
      · constructor <;> simp [latchRaset, CtlResult.ctl, hk]
      · constructor <;> simp [CtlResult.ctl]
    · constructor <;> simp [CtlResult.ctl]

/-- A data unit, accepted or not (41_controller_commands.md R140, R145). -/
theorem receive_data_kept (cfg : Config) (rst : Level) (b : Byte) (c : Controller) :
    DataKept cfg c (receive cfg rst (dataUnit b) c).ctl := by
  cases rst with
  | active => exact .refl cfg c
  | inactive =>
    cases hs : c.settle with
    | some k => simp only [receive, hs, CtlResult.ctl]; exact .refl cfg c
    | none =>
      simp only [receive, hs, dataUnit, dataByte]
      split
      · exact .refl cfg c
      · rename_i h; exact paramByte_kept cfg b h
      · rename_i h; exact paramByte_kept cfg b h
      · rename_i h; exact paramByte_kept cfg b h
      · rename_i h; exact paramByte_kept cfg b h
      · rename_i h; exact pixelByte_kept cfg b h
      all_goals exact .refl cfg c

/-! ### What one transfer leaves of the block -/

/-- What a transfer leaves, whatever its outcome (40_bus_transport.md R124): of the Engine only the selector, the flag,
the received byte and its draws, the Bus's count, T and the fault record may change; the Controller takes the unit or
does not. -/
structure Sent (u : BusUnit) (s t : State) : Prop extends EngineKept s t where
  pc : t.pc = s.pc
  trace : t.trace = s.trace ∨ t.trace = s.trace ++ [u]
  closed : s.busOpen = false → t.trace = s.trace ∧ t.ctl = s.ctl
  fault : ∀ r, s.fault = some r → t.fault = some r
  record : ∀ r, t.fault = some r → s.fault = some r ∨ r.opIndex = s.pc
  ctl : t.ctl = s.ctl ∨ t.ctl = (receive s.cfg s.rst u s.ctl).ctl

theorem State.raise_sticky {s : State} {r : FaultRecord} (f : FaultInfo) (h : s.fault = some r) :
    s.raise f = s := by
  simp [State.raise, h]

theorem State.raise_fault {s : State} (f : FaultInfo) (h : s.fault = none) :
    s.raise f = { s with fault := some ⟨f, s.pc⟩ } := by
  simp [State.raise, h]

/-- Raising changes the fault record alone (60_exceptions.md R300, R304). -/
theorem State.raise_eq (s : State) (f : FaultInfo) : ∃ r, s.raise f = { s with fault := r } ∧
    (∀ q, s.fault = some q → r = some q) ∧ ∀ q, r = some q → s.fault = some q ∨ q.opIndex = s.pc := by
  cases h : s.fault with
  | none => exact ⟨_, by rw [State.raise_fault f h], by simp, by rintro q ⟨⟩; exact .inr rfl⟩
  | some q => exact ⟨s.fault, by rw [State.raise_sticky f h], by simp [h], by simp [h]⟩

theorem xfer_sent (u : BusUnit) (s : State) : Sent u s (xfer u s).state := by
  rcases xfer_cases u s with ⟨hb, h⟩ | ⟨hb, c, f, hr, h⟩ | ⟨hb, c, hr, ⟨-, h⟩ | ⟨-, h⟩ | ⟨n, -, h⟩⟩
  · obtain ⟨r, hr, h1, h2⟩ := s.raise_eq (.busClosed u.dc u.byte)
    rw [h, Run.state_stop, hr]
    exact ⟨⟨rfl, rfl, rfl, rfl, rfl, rfl, rfl, rfl⟩, rfl, .inl rfl, fun _ => ⟨rfl, rfl⟩, h1, h2, .inl rfl⟩
  · obtain ⟨r, hr', h1, h2⟩ := ((s.startTransfer u).setCtl c).raise_eq f
    rw [h, Run.state_stop, hr']
    exact ⟨⟨rfl, rfl, rfl, rfl, rfl, rfl, rfl, rfl⟩, rfl, .inr rfl, by simp [hb], h1, h2, .inr (by rw [hr]; rfl)⟩
  all_goals
    rw [h]
    exact ⟨⟨rfl, rfl, rfl, rfl, rfl, rfl, rfl, rfl⟩, rfl, .inr rfl, by simp [hb], fun r hr => hr, fun r hr => .inl hr,
      .inr (by rw [hr]; rfl)⟩

/-- A transfer that goes through: the Controller took the unit. -/
theorem xfer_eq_ok {u : BusUnit} {s t : State} (h : xfer u s = .ok t) :
    s.busOpen = true ∧ receive s.cfg s.rst u s.ctl = .ok t.ctl := by
  rcases xfer_cases u s with ⟨-, h'⟩ | ⟨-, c, f, hr, h'⟩ | ⟨hb, c, hr, ⟨-, h'⟩ | ⟨-, h'⟩ | ⟨n, -, h'⟩⟩
  · rw [h'] at h; cases h
  · rw [h'] at h; cases h
  · rw [h'] at h; cases h; exact ⟨hb, hr⟩
  · rw [h'] at h; cases h
  · rw [h'] at h; cases h; exact ⟨hb, hr⟩

theorem EngineKept.refl (s : State) : EngineKept s s := by constructor <;> rfl

theorem EngineKept.trans {s t u : State} (h : EngineKept s t) (k : EngineKept t u) : EngineKept s u :=
  ⟨k.cfg.trans h.cfg, k.ops.trans h.ops, k.host.trans h.host, k.reads.trans h.reads, k.bench.trans h.bench,
    k.busOpen.trans h.busOpen, k.rst.trans h.rst, k.sqrt.trans h.sqrt⟩

theorem DrawKept.refl (s : State) : DrawKept s s := ⟨EngineKept.refl s, rfl, rfl, rfl, rfl⟩

theorem DrawKept.trans {s t u : State} (h : DrawKept s t) (k : DrawKept t u) : DrawKept s u :=
  ⟨h.toEngineKept.trans k.toEngineKept, k.phase.trans h.phase, k.settle.trans h.settle, k.colmod.trans h.colmod,
    k.orient.trans h.orient⟩

theorem EngineKept.raise (s : State) (f : FaultInfo) : EngineKept s (s.raise f) := by
  obtain ⟨r, hr, -, -⟩ := s.raise_eq f
  rw [hr]
  constructor <;> rfl

theorem DrawKept.raise (s : State) (f : FaultInfo) : DrawKept s (s.raise f) := by
  obtain ⟨r, hr, -, -⟩ := s.raise_eq f
  exact ⟨.raise s f, by rw [hr], by rw [hr], by rw [hr], by rw [hr]⟩

/-! ### Command blocks -/

/-- A data unit while CASET or RASET takes its parameters, or RAMWR its pixels, leaves what drawing leaves. -/
theorem xfer_data_drawKept {s : State} (b : Byte)
    (hk : s.ctl.cmd = some .caset ∨ s.ctl.cmd = some .raset ∨ s.ctl.cmd = some .ramwr) :
    DrawKept s (xfer (dataUnit b) s).state ∧ (xfer (dataUnit b) s).state.ctl.cmd = s.ctl.cmd := by
  have hs := xfer_sent (dataUnit b) s
  rcases hs.ctl with h | h
  · exact ⟨⟨hs.toEngineKept, by rw [h], by rw [h], by rw [h], by rw [h]⟩, by rw [h]⟩
  · have hd := receive_data_kept s.cfg s.rst b s.ctl
    rw [← h] at hd
    have h1 : s.ctl.cmd ≠ some .colmod := by rcases hk with hk | hk | hk <;> simp [hk]
    have h2 : s.ctl.cmd ≠ some .madctl := by rcases hk with hk | hk | hk <;> simp [hk]
    exact ⟨⟨hs.toEngineKept, (hd.format h1).1, hd.settle, (hd.format h1).2, hd.orient h2⟩, hd.cmd⟩

/-- A command unit of CASET, RASET or RAMWR leaves what drawing leaves, and every cell. -/
theorem xfer_command_drawKept {s : State} (hc : s.cfg.opcsDistinct = true) {k : Command}
    (hk : k = .caset ∨ k = .raset ∨ k = .ramwr) :
    DrawKept s (xfer (cmdUnit s.cfg k) s).state ∧ (xfer (cmdUnit s.cfg k) s).state.ctl.gram = s.ctl.gram := by
  have hs := xfer_sent (cmdUnit s.cfg k) s
  rcases hs.ctl with h | h
  · exact ⟨⟨hs.toEngineKept, by rw [h], by rw [h], by rw [h], by rw [h]⟩, by rw [h]⟩
  · have hd := receive_command_kept hc (k := k) (by rcases hk with rfl | rfl | rfl <;> simp) s.rst s.ctl
    rw [← h] at hd
    refine ⟨⟨hs.toEngineKept, hd.phase ?_ ?_ ?_, hd.settle ?_, hd.colmod, hd.orient⟩, hd.gram⟩ <;>
      (rcases hk with rfl | rfl | rfl <;> simp)

/-- A command unit that goes through leaves its command started. -/
theorem xfer_command_ok {s t : State} (hc : s.cfg.opcsDistinct = true) {k : Command}
    (h : xfer (cmdUnit s.cfg k) s = .ok t) : startCommand k s.ctl.closed = .ok t.ctl := by
  have hr := (xfer_eq_ok h).2
  rcases receive_command_cases hc k s.rst s.ctl with ⟨f, h'⟩ | ⟨f, h'⟩ | ⟨-, -, -, h'⟩
  · rw [h'] at hr; cases hr
  · rw [h'] at hr; cases hr
  · rw [← h', hr]

/-- CASET or RASET with its parameters leaves what drawing leaves, and every cell. -/
theorem parameterBlock_drawKept {s : State} (hc : s.cfg.opcsDistinct = true) {k : Command}
    (hk : k = .caset ∨ k = .raset) (bs : List Byte) :
    DrawKept s (sendAll (cmdUnit s.cfg k :: bs.map dataUnit) s).state ∧
      (sendAll (cmdUnit s.cfg k :: bs.map dataUnit) s).state.ctl.gram = s.ctl.gram := by
  rw [sendAll, runAll_cons]
  have h1 := xfer_command_drawKept hc (k := k) (by rcases hk with h | h <;> simp [h])
  cases hx : xfer (cmdUnit s.cfg k) s with
  | stop t => rw [hx] at h1; exact h1
  | ok t =>
    rw [hx] at h1
    have hcmd : t.ctl.cmd = some k := by
      have := xfer_command_ok hc hx
      rcases hk with rfl | rfl <;> (simp only [startCommand, startCaset, startRaset, CtlResult.ok.injEq] at this
                                    rw [← this])
    have := runAll_induct (f := xfer) (l := bs.map dataUnit)
      (P := fun u => (DrawKept s u ∧ u.ctl.gram = s.ctl.gram) ∧ u.ctl.cmd = some k) (by
        intro u hu v ⟨⟨hv, hg⟩, hvk⟩
        obtain ⟨b, -, rfl⟩ := List.mem_map.1 hu
        have hk' : v.ctl.cmd = some .caset ∨ v.ctl.cmd = some .raset ∨ v.ctl.cmd = some .ramwr := by
          rcases hk with rfl | rfl <;> simp [hvk]
        obtain ⟨hd, hcm⟩ := xfer_data_drawKept b hk'
        refine ⟨⟨hv.trans hd, ?_⟩, hcm.trans hvk⟩
        rcases (xfer_sent (dataUnit b) v).ctl with h | h
        · rw [h, hg]
        · rw [h, ← hg]
          refine ((receive_data_kept v.cfg v.rst b v.ctl).stream ?_).1
          rcases hk with rfl | rfl <;> simp [hvk]) t ⟨h1, hcmd⟩
    exact this.1

/-! ### Drawing operations -/

/-- Every cell that is not named by a position of the list reads as before. -/
def CellsKept (ps : List (Int × Int)) (s t : State) : Prop :=
  ∀ a, a ∉ ps.map (positionKey s.cfg s.ctl.orient) → t.ctl.gram.read a = s.ctl.gram.read a

theorem opSetWindow_kept {s : State} (hc : s.cfg.opcsDistinct = true) (x0 y0 x1 y1 : Int) :
    DrawKept s (opSetWindow x0 y0 x1 y1 s).state ∧ (opSetWindow x0 y0 x1 y1 s).state.ctl.gram = s.ctl.gram := by
  unfold opSetWindow gate
  split
  · simp only [Run.andThen_ok]
    split
    · exact ⟨.raise s _, by simp [raiseStop]⟩
    · split
      · exact ⟨.raise s _, by simp [raiseStop]⟩
      · have hsplit : windowUnits s.cfg x0 y0 x1 y1 =
            (cmdUnit s.cfg .caset :: [hi8 (word x0), lo8 (word x0), hi8 (word x1), lo8 (word x1)].map dataUnit) ++
              (cmdUnit s.cfg .raset :: [hi8 (word y0), lo8 (word y0), hi8 (word y1), lo8 (word y1)].map dataUnit) := by
          simp [windowUnits, wordUnits]
        rw [hsplit, sendAll, runAll_append]
        have h1 := parameterBlock_drawKept hc (k := .caset) (.inl rfl)
          [hi8 (word x0), lo8 (word x0), hi8 (word x1), lo8 (word x1)]
        rw [sendAll] at h1
        cases hx : runAll xfer (cmdUnit s.cfg .caset :: [hi8 (word x0), lo8 (word x0), hi8 (word x1), lo8 (word x1)].map dataUnit) s with
        | stop t => rw [hx] at h1; exact h1
        | ok t =>
          rw [hx] at h1
          simp only [Run.state_ok] at h1
          have hct : t.cfg = s.cfg := h1.1.cfg
          have h2 := parameterBlock_drawKept (s := t) (by rw [hct]; exact hc) (k := .raset) (.inr rfl)
            [hi8 (word y0), lo8 (word y0), hi8 (word y1), lo8 (word y1)]
          rw [hct, sendAll] at h2
          exact ⟨h1.1.trans h2.1, h2.2.trans h1.2⟩
  · exact ⟨.raise s _, by simp [raiseStop]⟩

/-! ### Sequences of units that go through -/

/-- A command unit that goes through found a command it could close, and no settle hold. -/
theorem closable_of_receive {cfg : Config} {rst : Level} {b : Byte} {c d : Controller}
    (h : receive cfg rst ⟨.cmd, b⟩ c = .ok d) : rst = .inactive ∧ c.settle = none ∧ c.closable = true := by
  cases rst with
  | active => cases h
  | inactive =>
    cases hs : c.settle with
    | some k => simp [receive, hs] at h
    | none =>
      refine ⟨rfl, rfl, ?_⟩
      simp only [receive, hs, commandByte] at h
      cases hcl : closeCommand c with
      | raised d f => rw [hcl] at h; cases h
      | ok d =>
        unfold closeCommand at hcl
        unfold Controller.closable
        split at hcl
        · rename_i hk
          simp [hk]
        · rename_i k hk
          try simp only [hk]
          split at hcl
          · cases hcl
          · rename_i hlen
            split at hcl
            · cases hcl
            · rename_i hodd
              simp only [Bool.and_eq_true, decide_eq_true_eq, Bool.not_eq_true', Bool.and_eq_false_iff,
                decide_eq_false_iff_not]
              refine ⟨by omega, ?_⟩
              by_cases hkr : k = .ramwr
              · right
                cases hh : c.hi with
                | none => rfl
                | some v => exact absurd ⟨hkr, by simp [hh]⟩ hodd
              · exact .inl hkr

/-- A sequence of units that goes through was received unit by unit. -/
theorem sendAll_eq_ok {us : List BusUnit} {s t : State} (h : sendAll us s = .ok t) :
    (us ≠ [] → s.busOpen = true ∧ s.rst = .inactive) ∧ feed s.cfg us s.ctl = .ok t.ctl := by
  induction us generalizing s with
  | nil => cases h; exact ⟨by simp, rfl⟩
  | cons u us ih =>
    rw [sendAll, runAll_cons] at h
    cases hx : xfer u s with
    | stop v => rw [hx] at h; cases h
    | ok v =>
      rw [hx] at h
      obtain ⟨hb, hr⟩ := xfer_eq_ok hx
      have hrst : s.rst = .inactive := by
        cases hrst : s.rst with
        | inactive => rfl
        | active => rw [hrst] at hr; cases hr
      refine ⟨fun _ => ⟨hb, hrst⟩, ?_⟩
      have hv : v.cfg = s.cfg := by have := (xfer_sent u s).cfg; rw [hx] at this; exact this
      rw [hrst] at hr
      rw [feed_cons_ok hr, ← hv]
      exact (ih h).2

/-- A SET_WINDOW that goes through had a window in the frame, and latched it (42_controller_protocol.md R200). -/
theorem opSetWindow_eq_ok {s t : State} {x0 y0 x1 y1 : Int} (hc : s.cfg.opcsDistinct = true)
    (h : opSetWindow x0 y0 x1 y1 s = .ok t) :
    s.ctl.phase = .on ∧ WindowIn s.ctl.orient x0 y0 x1 y1 ∧
      t.ctl = s.ctl.windowSet (word x0) (word y0) (word x1) (word y1) := by
  unfold opSetWindow gate at h
  split at h
  · rename_i hp
    simp only [Run.andThen_ok] at h
    split at h
    · cases h
    · rename_i h1
      split at h
      · cases h
      · rename_i h2
        have hf := (sendAll_eq_ok h).2
        refine ⟨hp, ⟨by omega, by omega, by omega, by omega, by omega, by omega⟩, ?_⟩
        have hfirst : ∃ d, receive s.cfg .inactive (cmdUnit s.cfg .caset) s.ctl = .ok d := by
          simp only [windowUnits, List.cons_append, feed] at hf
          split at hf
          · rename_i d hd; exact ⟨d, hd⟩
          · cases hf
        obtain ⟨d, hd⟩ := hfirst
        obtain ⟨-, hs, hcl⟩ := closable_of_receive hd
        rw [feed_windowUnits hc hs hcl hp, CtlResult.ok.injEq] at hf
        exact hf.symm
  · cases h

/-! ### The pixel stream -/

/-- One unit of a pixel stream changes no other cell than the pointer's. -/
theorem xfer_pixel_kept {s : State} (b : Byte) {x y : Word}
    (hx : s.ctl.wpX = some x) (hy : s.ctl.wpY = some y) (a : Nat)
    (ha : a ≠ cellKey s.cfg s.ctl.orient x.toNat y.toNat) :
    (xfer (dataUnit b) s).state.ctl.gram.read a = s.ctl.gram.read a := by
  rcases (xfer_sent (dataUnit b) s).ctl with h | h
  · rw [h]
  · rw [h]
    refine (receive_data_kept s.cfg s.rst b s.ctl).cells a ?_
    intro x' y' hx' hy'
    rw [hx] at hx'
    rw [hy] at hy'
    cases hx'
    cases hy'
    exact ha

/-- The bytes of one pixel. -/
def pixelRun (c : Color) (s : State) : Run := (xfer (dataUnit (hi8 c)) s).andThen (xfer (dataUnit (lo8 c)))

/-- One pixel of a stream over a window, k pixels into it, with the area not exhausted: what it leaves when it goes
through, and what it leaves alone however it ends. -/
theorem pixelRun_kept {s : State} {c : Controller} {v : Win} {k : Nat} {g : Memory} (col : Color)
    (hv : WindowHolds c v) (hk : k < v.w * v.h) (h : s.ctl = c.streamAt v k g) :
    DrawKept s (pixelRun col s).state ∧
    (∀ a, a ≠ cellKey s.cfg c.orient (v.x0 + k % v.w) (v.y0 + k / v.w) →
      (pixelRun col s).state.ctl.gram.read a = g.read a) ∧
    ∀ t, pixelRun col s = .ok t →
      t.ctl = c.streamAt v (k + 1) (g.write (cellKey s.cfg c.orient (v.x0 + k % v.w) (v.y0 + k / v.w)) col) := by
  have h1 := frameW_le c.orient
  have h2 := frameH_le c.orient
  have hX := hv.inX
  have hY := hv.inY
  have hmod : k % v.w < v.w := Nat.mod_lt _ hv.w
  have hdiv : k / v.w < v.h := Nat.div_lt_of_lt_mul hk
  have hmin : min (v.y0 + k / v.w) (v.y0 + v.h - 1) = v.y0 + k / v.w := Nat.min_eq_left (by omega)
  have ex : (BitVec.ofNat 16 (v.x0 + k % v.w)).toNat = v.x0 + k % v.w := by
    rw [BitVec.toNat_ofNat]; exact Nat.mod_eq_of_lt (by omega)
  have ey : (BitVec.ofNat 16 (min (v.y0 + k / v.w) (v.y0 + v.h - 1))).toNat = v.y0 + k / v.w := by
    rw [hmin, BitVec.toNat_ofNat]; exact Nat.mod_eq_of_lt (by omega)
  have hcmd : s.ctl.cmd = some .ramwr := by rw [h]; rfl
  have hwx : s.ctl.wpX = some (BitVec.ofNat 16 (v.x0 + k % v.w)) := by rw [h]; rfl
  have hwy : s.ctl.wpY = some (BitVec.ofNat 16 (min (v.y0 + k / v.w) (v.y0 + v.h - 1))) := by rw [h]; rfl
  have ho : s.ctl.orient = c.orient := by rw [h]; rfl
  have hg : s.ctl.gram = g := by rw [h]; rfl
  have d1 := (xfer_data_drawKept (s := s) (hi8 col) (.inr (.inr hcmd)))
  have m1 : ∀ a, a ≠ cellKey s.cfg c.orient (v.x0 + k % v.w) (v.y0 + k / v.w) →
      (xfer (dataUnit (hi8 col)) s).state.ctl.gram.read a = g.read a := by
    intro a ha
    rw [xfer_pixel_kept _ hwx hwy a (by rw [ho, ex, ey]; exact ha), hg]
  unfold pixelRun
  cases hx : xfer (dataUnit (hi8 col)) s with
  | stop u => rw [hx] at d1 m1; exact ⟨d1.1, m1, fun t ht => by cases ht⟩
  | ok u =>
    rw [hx] at d1 m1
    simp only [Run.state_ok] at d1 m1
    simp only [Run.andThen_ok]
    have hr := (xfer_eq_ok hx).2
    have hu : u.ctl = { c.streamAt v k g with hi := some (hi8 col) } ∧ s.ctl.settle = none := by
      cases hrst : s.rst with
      | active => rw [hrst] at hr; cases hr
      | inactive =>
        rw [hrst] at hr
        cases hset : s.ctl.settle with
        | some q => simp [receive, hset] at hr
        | none =>
          rw [receive_pixel hset hcmd, h] at hr
          simp only [pixelByte, Controller.streamAt, CtlResult.ok.injEq] at hr
          exact ⟨hr.symm, rfl⟩
    obtain ⟨hu, hset⟩ := hu
    have hucfg : u.cfg = s.cfg := d1.1.cfg
    have hcmd' : u.ctl.cmd = some .ramwr := d1.2.trans hcmd
    have d2 := xfer_data_drawKept (s := u) (lo8 col) (.inr (.inr hcmd'))
    refine ⟨d1.1.trans d2.1, ?_, ?_⟩
    · intro a ha
      rw [xfer_pixel_kept _ (by rw [hu]; rfl) (by rw [hu]; rfl) a ?_, m1 a ha]
      rw [hu, hucfg]
      show a ≠ cellKey s.cfg c.orient _ _
      rw [ex, ey]
      exact ha
    · intro t ht
      have hr2 := (xfer_eq_ok ht).2
      have hset' : u.ctl.settle = none := by rw [hu]; rw [h] at hset; exact hset
      cases hrst : u.rst with
      | active => rw [hrst] at hr2; cases hr2
      | inactive =>
        rw [hrst, receive_pixel hset' hcmd', hu, hucfg] at hr2
        rcases pixelByte_low_cases (cfg := s.cfg) (b := lo8 col)
            (c := { c.streamAt v k g with hi := some (hi8 col) }) rfl (decide_eq_false (Nat.ne_of_lt hk)) rfl rfl with
          hp | ⟨d, f, hp⟩
        · rw [hp, ex, ey, be16_hi8_lo8] at hr2
          have hadv := advancePointer_streamAt hv hk
            (g := g.write (cellKey s.cfg c.orient (v.x0 + k % v.w) (v.y0 + k / v.w)) col)
          exact (CtlResult.ok.inj (hadv.symm.trans hr2)).symm
        · rw [hp] at hr2; cases hr2

/-- n pixels of a stream over a window, from its k-th position, that do not exhaust the area: the cells of the other
positions are left alone. -/
theorem repeatRun_pixel_kept {c : Controller} {v : Win} (col : Color) (hv : WindowHolds c v) (n : Nat) :
    ∀ (k : Nat) (s : State) (g : Memory), k + n ≤ v.w * v.h → s.ctl = c.streamAt v k g →
      DrawKept s (repeatRun (pixelRun col) n s).state ∧
      ∀ a, (∀ j, k ≤ j → j < k + n → a ≠ cellKey s.cfg c.orient (v.x0 + j % v.w) (v.y0 + j / v.w)) →
        (repeatRun (pixelRun col) n s).state.ctl.gram.read a = g.read a := by
  induction n with
  | zero =>
    intro k s g _ h
    exact ⟨.refl s, fun a _ => by show s.ctl.gram.read a = _; rw [h]; rfl⟩
  | succ n ih =>
    intro k s g hk h
    obtain ⟨hd, hm, hok⟩ := pixelRun_kept col hv (by omega) h
    rw [repeatRun]
    cases hx : pixelRun col s with
    | stop t =>
      rw [hx] at hd hm
      exact ⟨hd, fun a ha => hm a (ha k (Nat.le_refl _) (by omega))⟩
    | ok t =>
      rw [hx] at hd
      obtain ⟨hd', hm'⟩ := ih (k + 1) t _ (by omega) (hok t hx)
      refine ⟨hd.trans hd', fun a ha => ?_⟩
      have hcfg : t.cfg = s.cfg := hd.cfg
      simp only [Run.andThen_ok]
      rw [hm' a (fun j h1 h2 => by rw [hcfg]; exact ha j (by omega) (by omega))]
      exact Memory.read_write_other _ _ _ _ (ha k (Nat.le_refl _) (by omega))

/-- RAMWR that starts found a window in the frame (41_controller_commands.md R159). -/
theorem startRamwr_eq_ok {c d : Controller} (h : startRamwr c.closed = .ok d) :
    ∃ v, WindowHolds c v ∧ d = c.streamAt v 0 c.gram := by
  have h' := h
  unfold startRamwr at h'
  split at h'
  · rename_i xs xe ys ye hxs hxe hys hye
    simp only at h'
    split at h'
    · cases h'
    · rename_i h1
      split at h'
      · cases h'
      · rename_i h2
        have b1 := xs.isLt
        have b2 := xe.isLt
        have b3 := ys.isLt
        have b4 := ye.isLt
        simp only [Int.ofNat_eq_natCast, Controller.closed] at h1 h2 hxs hxe hys hye
        have hv : WindowHolds c ⟨xs.toNat, ys.toNat, xe.toNat - xs.toNat + 1, ye.toNat - ys.toNat + 1⟩ :=
          { w := by simp
            h := by simp
            xs := by rw [hxs]; simp
            xe := by
              rw [hxe]
              congr 1
              apply BitVec.eq_of_toNat_eq
              simp only [BitVec.toNat_ofNat]
              rw [Nat.mod_eq_of_lt (by omega)]
              omega
            ys := by rw [hys]; simp
            ye := by
              rw [hye]
              congr 1
              apply BitVec.eq_of_toNat_eq
              simp only [BitVec.toNat_ofNat]
              rw [Nat.mod_eq_of_lt (by omega)]
              omega
            inX := by simp only; omega
            inY := by simp only; omega }
        rw [startRamwr_ok hv, CtlResult.ok.injEq] at h
        exact ⟨_, hv, h.symm⟩
  · cases h'

/-- Two windows that the same registers hold are the same. -/
theorem WindowHolds.corner {c : Controller} {v : Win} (hv : WindowHolds c v) {xs xe ys ye : Word} (h1 : c.xs = some xs)
    (h2 : c.xe = some xe) (h3 : c.ys = some ys) (h4 : c.ye = some ye) :
    xs.toNat = v.x0 ∧ ys.toNat = v.y0 ∧ xe.toNat = v.x0 + v.w - 1 ∧ ye.toNat = v.y0 + v.h - 1 := by
  have hX := hv.inX
  have hY := hv.inY
  have hw := hv.w
  have hh := hv.h
  have f1 := frameW_le c.orient
  have f2 := frameH_le c.orient
  have e1 := hv.xs.symm.trans h1
  have e2 := hv.xe.symm.trans h2
  have e3 := hv.ys.symm.trans h3
  have e4 := hv.ye.symm.trans h4
  simp only [Option.some.injEq] at e1 e2 e3 e4
  subst e1 e2 e3 e4
  simp only [BitVec.toNat_ofNat]
  refine ⟨?_, ?_, ?_, ?_⟩ <;> exact Nat.mod_eq_of_lt (by omega)

/-- WRITE_PIXELS, whatever its outcome: what drawing leaves is left, and so is every cell but the first n positions of
the latched window (42_controller_protocol.md R204). -/
theorem opWritePixels_kept {s : State} (hc : s.cfg.opcsDistinct = true) (c : Color) (n : Int) :
    DrawKept s (opWritePixels c n s).state ∧
      ∀ a, (∀ xs xe ys, s.ctl.xs = some xs → s.ctl.xe = some xe → s.ctl.ys = some ys →
          a ∉ (firstPositions (int16 xs) (int16 ys) (int16 xe) n.toNat).map (positionKey s.cfg s.ctl.orient)) →
        (opWritePixels c n s).state.ctl.gram.read a = s.ctl.gram.read a := by
  have hraise : ∀ f, DrawKept s (raiseStop s f).state ∧ ∀ a : Nat, (raiseStop s f).state.ctl.gram.read a =
      s.ctl.gram.read a := fun f => ⟨.raise s f, fun a => by simp [raiseStop]⟩
  unfold opWritePixels gate
  split
  · simp only [Run.andThen_ok]
    split
    · rename_i xs xe ys ye hxs hxe hys hye
      split
      · exact ⟨(hraise _).1, fun a _ => (hraise _).2 a⟩
      · rename_i harea
        have h1 := xfer_command_drawKept hc (k := .ramwr) (by simp)
        cases hx : xfer (cmdUnit s.cfg .ramwr) s with
        | stop t => rw [hx] at h1; exact ⟨h1.1, fun a _ => by rw [Run.andThen_stop, Run.state_stop]; rw [Run.state_stop] at h1; rw [h1.2]⟩
        | ok t =>
          rw [hx] at h1
          simp only [Run.state_ok] at h1
          obtain ⟨v, hv, ht⟩ := startRamwr_eq_ok (xfer_command_ok hc hx)
          obtain ⟨e1, e2, e3, e4⟩ := hv.corner hxs hxe hys hye
          have hw := hv.w
          have hh := hv.h
          have hn : 0 + n.toNat ≤ v.w * v.h := by
            have a1 : int16 xe - int16 xs + 1 = (v.w : Int) := by simp only [int16, Int.ofNat_eq_natCast]; omega
            have a2 : int16 ye - int16 ys + 1 = (v.h : Int) := by simp only [int16, Int.ofNat_eq_natCast]; omega
            rw [windowArea, a1, a2, ← Int.natCast_mul] at harea
            omega
          obtain ⟨hd, hm⟩ := repeatRun_pixel_kept c hv n.toNat 0 t _ hn ht
          refine ⟨h1.1.trans hd, fun a ha => ?_⟩
          refine hm a fun j _ hj => ?_
          have := ha xs xe ys hxs hxe hys
          intro hkey
          apply this
          rw [firstPositions, List.map_map]
          refine List.mem_map.2 ⟨j, List.mem_range.2 (by omega), ?_⟩
          have a1 : (int16 xe - int16 xs + 1).toNat = v.w := by simp only [int16, Int.ofNat_eq_natCast]; omega
          rw [hkey, h1.1.cfg]
          simp only [Function.comp, positionKey, nthPosition, a1]
          rw [toNat_add_natCast (by simp [int16]), toNat_add_natCast (by simp [int16])]
          simp only [int16, Int.ofNat_eq_natCast, Int.toNat_natCast, e1, e2]
    · exact ⟨(hraise _).1, fun a _ => (hraise _).2 a⟩
  · exact ⟨(hraise _).1, fun a _ => (hraise _).2 a⟩

/-- A window write, whatever its outcome (42_controller_protocol.md R205). -/
theorem windowWrite_kept {s : State} (hc : s.cfg.opcsDistinct = true) (x0 y0 x1 y1 : Int) (c : Color) (n : Int) :
    DrawKept s (windowWrite x0 y0 x1 y1 c n s).state ∧
      CellsKept (firstPositions x0 y0 x1 n.toNat) s (windowWrite x0 y0 x1 y1 c n s).state := by
  unfold windowWrite
  have h1 := opSetWindow_kept hc x0 y0 x1 y1
  cases hx : opSetWindow x0 y0 x1 y1 s with
  | stop t =>
    rw [hx] at h1
    simp only [Run.state_stop] at h1
    exact ⟨h1.1, fun a _ => by rw [Run.andThen_stop, Run.state_stop, h1.2]⟩
  | ok t =>
    rw [hx] at h1
    simp only [Run.state_ok] at h1
    obtain ⟨-, ⟨hx0, hx, hX, hy0, hy, hY⟩, ht⟩ := opSetWindow_eq_ok hc hx
    have f1 := frameW_le s.ctl.orient
    have f2 := frameH_le s.ctl.orient
    have h2 := opWritePixels_kept (s := t) (by rw [h1.1.cfg]; exact hc) c n
    simp only [Run.andThen_ok]
    refine ⟨h1.1.trans h2.1, fun a ha => ?_⟩
    rw [h2.2 a, h1.2]
    intro xs xe ys h3 h4 h5
    rw [ht] at h3 h4 h5
    simp only [Controller.windowSet, Option.some.injEq] at h3 h4 h5
    have hword : ∀ x : Int, 0 ≤ x → x < 160 → int16 (word x) = x := by
      intro x h0 hlt
      obtain ⟨m, rfl⟩ := Int.eq_ofNat_of_zero_le h0
      rw [word_natCast]
      simp only [int16, BitVec.toNat_ofNat, Int.ofNat_eq_natCast]
      omega
    simp only [Int.ofNat_eq_natCast] at hX hY
    rw [← h3, ← h4, ← h5, hword x0 hx0 (by omega), hword x1 (by omega) (by omega), hword y0 hy0 (by omega), h1.1.cfg,
      h1.1.orient]
    exact ha

end Sys2Proof.Machine
end

