-- ==== Sys2Proof/Laws/Maps.lean ====
section
/-! SUPPORT. The maps of the orientations: every map made of two mirrors is legal, so the default parameters are. -/
namespace Sys2Proof.Machine

/-- A map that only swaps and mirrors axes is a bijection onto the array, at every orientation. -/
theorem flips_mapWf (mirrorX mirrorY : Bool) (o : Orient) : MapWf (.flips mirrorX mirrorY) o := by
  constructor
  · intro x y hx hy
    cases o <;> cases mirrorX <;> cases mirrorY <;>
      simp [applyMap, frameW, frameH, Config.panelW, Config.panelH] at * <;> omega
  · intro x y x' y' hx hy hx' hy' h
    cases o <;> cases mirrorX <;> cases mirrorY <;>
      simp [applyMap, frameW, frameH, Config.panelW, Config.panelH] at * <;> omega

theorem Config.default_mapsWf : MapsWf Config.default :=
  ⟨flips_mapWf _ _ _, flips_mapWf _ _ _, flips_mapWf _ _ _⟩

theorem Config.default_wf : Config.default.wf = true := by decide

theorem Config.default_legal : Legal Config.default := ⟨Config.default_wf, Config.default_mapsWf⟩

end Sys2Proof.Machine
end

