-- ==== Sys2Proof/Laws/PerInstr.lean ====
section
/-! SUPPORT. Statements made per instruction, one lemma per constructor: the family RoundTrip (decoding what the encoder
writes gives the instruction back). -/
namespace Sys2Proof.Laws.RoundTrip

/-- With distinct command bytes, a well-formed instruction decodes from its own encoding; and a packet decodes so
whatever bytes follow it, which it leaves unread. -/
def Statement (i : Instr) : Prop :=
  ∀ cfg : Config, cfg.opcsDistinct = true → i.wf = true →
    decode cfg (encode cfg i) = .ok i ∧
      ∀ bytes rest, encode cfg i = .packet bytes → decodePacket (bytes ++ rest) = .ok (i, rest)

/-- A packet whose bytes decode to the instruction, whatever follows them. -/
theorem of_packet {i : Instr} {bytes : List Byte} (he : ∀ cfg, encode cfg i = .packet bytes)
    (h : i.wf = true → ∀ rest, decodePacket (bytes ++ rest) = .ok (i, rest)) : Statement i := by
  intro cfg _ hw
  refine ⟨?_, ?_⟩
  · have := h hw []
    rw [List.append_nil] at this
    simp [he, decode, this]
  · intro bs rest hb
    rw [he] at hb
    cases hb
    exact h hw rest

/-- A unit that decodes to the instruction. -/
theorem of_unit {i : Instr} (u : Config → BusUnit) (he : ∀ cfg, encode cfg i = .unit (u cfg))
    (h : ∀ cfg : Config, cfg.opcsDistinct = true → decodeUnit cfg (u cfg) = .ok i) : Statement i := by
  intro cfg hc _
  refine ⟨?_, ?_⟩
  · simp [he, decode, h cfg hc]
  · intro bs rest hb
    rw [he] at hb
    cases hb

/-- A command's unit decodes to the command's instruction. -/
theorem decodeUnit_cmd {cfg : Config} (h : cfg.opcsDistinct = true) (k : Command) :
    decodeUnit cfg ⟨.cmd, opcOf cfg k⟩ = .ok k.instr := by
  simp [decodeUnit, commandOf_opcOf h]

/-- The decoder reads the opcode, then the fields. -/
theorem decodePacket_code (k : Op) (fields : List Byte) :
    decodePacket (k.code :: fields) = decodeFields k fields := by
  simp [decodePacket]

theorem busOpen : Statement .busOpen :=
  of_packet (fun _ => rfl) fun _ _ => by
    refine (decodePacket_code .busOpen _).trans ?_
    simp [decodeFields]

theorem busClose : Statement .busClose :=
  of_packet (fun _ => rfl) fun _ _ => by
    refine (decodePacket_code .busClose _).trans ?_
    simp [decodeFields]

theorem reset : Statement .reset :=
  of_packet (fun _ => rfl) fun _ _ => by
    refine (decodePacket_code .reset _).trans ?_
    simp [decodeFields]

theorem init : Statement .init :=
  of_packet (fun _ => rfl) fun _ _ => by
    refine (decodePacket_code .init _).trans ?_
    simp [decodeFields]

theorem setOrient (deg : Word) : Statement (.setOrient deg) :=
  of_packet (fun _ => rfl) fun _ _ => by
    refine (decodePacket_code .setOrient _).trans ?_
    simp [decodeFields]

theorem setWindow (x0 y0 x1 y1 : Byte) : Statement (.setWindow x0 y0 x1 y1) :=
  of_packet (fun _ => rfl) fun _ _ => by
    refine (decodePacket_code .setWindow _).trans ?_
    simp [decodeFields]

theorem writePixels (c : Color) (n : Word) : Statement (.writePixels c n) :=
  of_packet (fun _ => rfl) fun _ _ => by
    refine (decodePacket_code .writePixels _).trans ?_
    simp [decodeFields]

theorem isqrt (v : Word) : Statement (.isqrt v) :=
  of_packet (fun _ => rfl) fun _ _ => by
    refine (decodePacket_code .isqrt _).trans ?_
    simp [decodeFields]

theorem pixel (x y : Byte) (c : Color) : Statement (.pixel x y c) :=
  of_packet (fun _ => rfl) fun _ _ => by
    refine (decodePacket_code .pixel _).trans ?_
    simp [decodeFields]

theorem hline (x y len : Byte) (c : Color) : Statement (.hline x y len c) :=
  of_packet (fun _ => rfl) fun _ _ => by
    refine (decodePacket_code .hline _).trans ?_
    simp [decodeFields]

theorem vline (x y len : Byte) (c : Color) : Statement (.vline x y len c) :=
  of_packet (fun _ => rfl) fun _ _ => by
    refine (decodePacket_code .vline _).trans ?_
    simp [decodeFields]

theorem line (x0 y0 x1 y1 : Byte) (c : Color) : Statement (.line x0 y0 x1 y1 c) :=
  of_packet (fun _ => rfl) fun _ _ => by
    refine (decodePacket_code .line _).trans ?_
    simp [decodeFields]

theorem rect (x0 y0 x1 y1 : Byte) (c : Color) : Statement (.rect x0 y0 x1 y1 c) :=
  of_packet (fun _ => rfl) fun _ _ => by
    refine (decodePacket_code .rect _).trans ?_
    simp [decodeFields]

theorem fillRect (x0 y0 x1 y1 : Byte) (c : Color) : Statement (.fillRect x0 y0 x1 y1 c) :=
  of_packet (fun _ => rfl) fun _ _ => by
    refine (decodePacket_code .fillRect _).trans ?_
    simp [decodeFields]

theorem clear : Statement .clear :=
  of_packet (fun _ => rfl) fun _ _ => by
    refine (decodePacket_code .clear _).trans ?_
    simp [decodeFields]

theorem circle (cx cy r : Byte) (c : Color) : Statement (.circle cx cy r c) :=
  of_packet (fun _ => rfl) fun _ _ => by
    refine (decodePacket_code .circle _).trans ?_
    simp [decodeFields]

theorem roundRect (x0 y0 x1 y1 r : Byte) (c : Color) : Statement (.roundRect x0 y0 x1 y1 r c) :=
  of_packet (fun _ => rfl) fun _ _ => by
    refine (decodePacket_code .roundRect _).trans ?_
    simp [decodeFields]

theorem filledCircle (cx cy r : Byte) (c : Color) : Statement (.filledCircle cx cy r c) :=
  of_packet (fun _ => rfl) fun _ _ => by
    refine (decodePacket_code .filledCircle _).trans ?_
    simp [decodeFields]

theorem ellipse (cx cy w h : Byte) (c : Color) : Statement (.ellipse cx cy w h c) :=
  of_packet (fun _ => rfl) fun _ _ => by
    refine (decodePacket_code .ellipse _).trans ?_
    simp [decodeFields]

theorem filledEllipse (cx cy w h : Byte) (c : Color) : Statement (.filledEllipse cx cy w h c) :=
  of_packet (fun _ => rfl) fun _ _ => by
    refine (decodePacket_code .filledEllipse _).trans ?_
    simp [decodeFields]

theorem circleQuad (cx cy r m : Byte) (c : Color) : Statement (.circleQuad cx cy r m c) :=
  of_packet (fun _ => rfl) fun hw _ => by
    have hm : m.toNat < 16 := by simpa [Instr.wf] using hw
    refine (decodePacket_code .circleQuad _).trans ?_
    simp [decodeFields, hm]

theorem cSwreset : Statement .cSwreset :=
  of_unit (fun cfg => ⟨.cmd, opcOf cfg .swreset⟩) (fun _ => rfl) fun _ h => decodeUnit_cmd h .swreset

theorem cSlpout : Statement .cSlpout :=
  of_unit (fun cfg => ⟨.cmd, opcOf cfg .slpout⟩) (fun _ => rfl) fun _ h => decodeUnit_cmd h .slpout

theorem cDispoff : Statement .cDispoff :=
  of_unit (fun cfg => ⟨.cmd, opcOf cfg .dispoff⟩) (fun _ => rfl) fun _ h => decodeUnit_cmd h .dispoff

theorem cDispon : Statement .cDispon :=
  of_unit (fun cfg => ⟨.cmd, opcOf cfg .dispon⟩) (fun _ => rfl) fun _ h => decodeUnit_cmd h .dispon

theorem cCaset : Statement .cCaset :=
  of_unit (fun cfg => ⟨.cmd, opcOf cfg .caset⟩) (fun _ => rfl) fun _ h => decodeUnit_cmd h .caset

theorem cRaset : Statement .cRaset :=
  of_unit (fun cfg => ⟨.cmd, opcOf cfg .raset⟩) (fun _ => rfl) fun _ h => decodeUnit_cmd h .raset

theorem cRamwr : Statement .cRamwr :=
  of_unit (fun cfg => ⟨.cmd, opcOf cfg .ramwr⟩) (fun _ => rfl) fun _ h => decodeUnit_cmd h .ramwr

theorem cMadctl : Statement .cMadctl :=
  of_unit (fun cfg => ⟨.cmd, opcOf cfg .madctl⟩) (fun _ => rfl) fun _ h => decodeUnit_cmd h .madctl

theorem cColmod : Statement .cColmod :=
  of_unit (fun cfg => ⟨.cmd, opcOf cfg .colmod⟩) (fun _ => rfl) fun _ h => decodeUnit_cmd h .colmod

theorem data (b : Byte) : Statement (.data b) := of_unit (fun _ => ⟨.data, b⟩) (fun _ => rfl) fun _ _ => rfl

end Sys2Proof.Laws.RoundTrip
end

