-- ==== Sys2Proof/Laws/Stable.lean ====
section
/-! SUPPORT. What every transfer and every raise keeps, every operation with the drawing gate keeps. -/
namespace Sys2Proof.Machine

/-- A property that a transfer keeps, however it ends, and that raising a fault keeps. -/
structure Stable (P : State → Prop) : Prop where
  xfer : ∀ u s, P s → P (xfer u s).state
  raise : ∀ f s, P s → P (s.raise f)

namespace Stable

variable {P : State → Prop} (h : Stable P)
include h

theorem raiseStop {s : State} (hs : P s) (f : FaultInfo) : P (raiseStop s f).state := h.raise f s hs

theorem gate {s : State} (hs : P s) (k : Op) {f : State → Run} (hf : ∀ t, P t → P (f t).state) :
    P ((Machine.gate k s).andThen f).state := by
  unfold Machine.gate
  split
  · exact hf s hs
  · exact h.raise _ s hs

theorem sendAll {s : State} (hs : P s) (us : List BusUnit) : P (sendAll us s).state :=
  runAll_induct (fun u _ t => h.xfer u t) s hs

theorem opSetWindow {s : State} (hs : P s) (x0 y0 x1 y1 : Int) : P (opSetWindow x0 y0 x1 y1 s).state := by
  refine h.gate hs _ fun t ht => ?_
  split
  · exact h.raise _ t ht
  · split
    · exact h.raise _ t ht
    · exact h.sendAll ht _

theorem opWritePixels {s : State} (hs : P s) (c : Color) (n : Int) : P (opWritePixels c n s).state := by
  refine h.gate hs _ fun t ht => ?_
  split
  · split
    · exact h.raise _ t ht
    · refine andThen_induct (h.xfer _ t ht) fun u hu => ?_
      exact repeatRun_induct (fun v hv => andThen_induct (h.xfer _ v hv) fun w hw => h.xfer _ w hw) _ u hu
  · exact h.raise _ t ht

theorem windowWrite {s : State} (hs : P s) (x0 y0 x1 y1 : Int) (c : Color) (n : Int) :
    P (windowWrite x0 y0 x1 y1 c n s).state :=
  andThen_induct (h.opSetWindow hs x0 y0 x1 y1) fun _ ht => h.opWritePixels ht c n

theorem opPixel {s : State} (hs : P s) (x y : Int) (c : Color) : P (opPixel x y c s).state :=
  h.gate hs _ fun _ ht => h.windowWrite ht x y x y c 1

theorem plotAll {s : State} (hs : P s) (c : Color) (l : List (Int × Int)) : P (plotAll c l s).state := by
  unfold Machine.plotAll
  exact runAll_induct (P := P) (fun p _ t ht => h.opPixel ht p.1 p.2 c) s hs

theorem opHline {s : State} (hs : P s) (x y len : Int) (c : Color) : P (opHline x y len c s).state :=
  h.gate hs _ fun _ ht => h.windowWrite ht ..

theorem opVline {s : State} (hs : P s) (x y len : Int) (c : Color) : P (opVline x y len c s).state :=
  h.gate hs _ fun _ ht => h.windowWrite ht ..

theorem hlineAll {s : State} (hs : P s) (c : Color) (l : List (Int × Int × Int)) : P (hlineAll c l s).state := by
  unfold Machine.hlineAll
  exact runAll_induct (P := P) (fun p _ t ht => h.opHline ht p.1 p.2.1 p.2.2 c) s hs

theorem vlineAll {s : State} (hs : P s) (c : Color) (l : List (Int × Int × Int)) : P (vlineAll c l s).state := by
  unfold Machine.vlineAll
  exact runAll_induct (P := P) (fun p _ t ht => h.opVline ht p.1 p.2.1 p.2.2 c) s hs

theorem opLine {s : State} (hs : P s) (x0 y0 x1 y1 : Int) (c : Color) : P (opLine x0 y0 x1 y1 c s).state :=
  h.gate hs _ fun _ ht => h.plotAll ht ..

theorem opCircleQuad {s : State} (hs : P s) (cx cy : Int) (r : Nat) (m : Byte) (c : Color) :
    P (opCircleQuad cx cy r m c s).state :=
  h.gate hs _ fun _ ht => h.plotAll ht ..

/-- Every operation with the drawing gate is one run, which keeps what every transfer and every raise keeps. -/
theorem gated {i : Instr} {op : Byte} (hi : gatedOpcode i = some op) {s : State} (hs : P s) :
    ∃ r, exec i s = complete r ∧ P r.state := by
  cases i <;> simp only [gatedOpcode, reduceCtorEq] at hi <;> refine ⟨_, rfl, ?_⟩
  · exact h.gate hs _ fun t ht => h.sendAll ht _
  · exact h.opSetWindow hs ..
  · exact h.opWritePixels hs ..
  · exact h.opPixel hs ..
  · exact h.opHline hs ..
  · exact h.opVline hs ..
  · exact h.opLine hs ..
  · exact h.gate hs _ fun t ht => andThen_induct (h.opLine ht ..) fun t ht => andThen_induct (h.opLine ht ..) fun t ht =>
      andThen_induct (h.opLine ht ..) fun t ht => h.opLine ht ..
  · exact h.gate hs _ fun t ht => h.windowWrite ht ..
  · exact h.gate hs _ fun t ht => h.gate ht _ fun t ht => h.windowWrite ht ..
  · exact h.opCircleQuad hs ..
  · exact h.gate hs _ fun t ht => h.opCircleQuad ht ..
  · exact h.gate hs _ fun t ht => andThen_induct (h.opHline ht ..) fun t ht => andThen_induct (h.opHline ht ..) fun t ht =>
      andThen_induct (h.opVline ht ..) fun t ht => andThen_induct (h.opVline ht ..) fun t ht =>
      andThen_induct (h.opCircleQuad ht ..) fun t ht => andThen_induct (h.opCircleQuad ht ..) fun t ht =>
      andThen_induct (h.opCircleQuad ht ..) fun t ht => h.opCircleQuad ht ..
  · exact h.gate hs _ fun t ht => h.vlineAll ht ..
  · refine h.gate hs _ fun t ht => ?_
    split
    · exact h.raise _ t ht
    · exact h.plotAll ht ..
  · exact h.gate hs _ fun t ht => h.hlineAll ht ..

end Stable

/-- The reset steps leave the Controller reset, with no settle hold, and the line inactive, whatever the state was
(42_controller_protocol.md R190). -/
theorem opReset_eq (s : State) :
    opReset s = { s with rst := .inactive, ctl := { Controller.powerOn with phase := .resetting } } := by
  cases h : s.rst <;> simp [opReset, driveRst, h, wait, State.setRst, State.setCtl, controllerReset, Controller.powerOn]

/-- INIT after its reset steps is a run of transfers and a wait, so it keeps what those keep. -/
theorem Stable.opInit {P : State → Prop} (h : Stable P) (hw : ∀ s, P s → P (wait .slpout s)) {s : State}
    (hs : P (opReset s)) : P (opInit s).state :=
  andThen_induct (h.xfer _ _ hs) fun t ht => h.sendAll (hw t ht) _

/-- The unit of a bus-unit instruction is sent by one transfer. -/
theorem exec_unit {i : Instr} {s : State} {u : BusUnit} (h : encode s.cfg i = .unit u) :
    exec i s = .next (xfer u s).state := by
  cases i <;> simp only [encode, Encoded.unit.injEq, reduceCtorEq] at h <;> subst h <;> rfl

end Sys2Proof.Machine
end

