-- ==== Sys2Proof/Tests/Slice0.lean ====
section
/-! SUPPORT. Tests on fixed values, their expected results from the encodings of 30_encoding.md and the vectors of
95_test_vectors.md; and for every statement with hypotheses a concrete state and operands that meet them. -/
namespace Sys2Proof.Tests
open Sys2Proof.Machine

/-! ### States -/

/-- A block with an open bus and the given Controller. -/
def opened (c : Controller) : State := { State.reset with busOpen := true, ctl := c }

/-- The Controller after INIT (70_reset_and_hazards.md R347), at an orientation. -/
def onCtl (o : Orient) : Controller := { Controller.powerOn with phase := .on, colmod := some 0x05, orient := o }

/-- A block that can draw. -/
def on (o : Orient) : State := opened (onCtl o)

/-- A block that can draw, with a latched window. -/
def windowed (o : Orient) (xs xe ys ye : Word) : State :=
  opened { onCtl o with xs := some xs, xe := some xe, ys := some ys, ye := some ye }

/-- A block in a phase, with no command in progress. -/
def inPhase (p : Phase) : State := opened { Controller.powerOn with phase := p, colmod := some 0x05 }

/-- A block with a command in progress. -/
def taking (p : Phase) (k : Command) (pbuf : List Byte) : State :=
  opened { Controller.powerOn with phase := p, colmod := some 0x05, cmd := some k, pbuf := pbuf }

/-- A block with a pixel stream open over a window, its pointer and its waiting high byte. -/
def streaming (o : Orient) (xs xe ys ye x y : Word) (done : Bool) (hi : Option Byte) : State :=
  opened { onCtl o with
    xs := some xs, xe := some xe, ys := some ys, ye := some ye, cmd := some .ramwr
    wpX := some x, wpY := some y, wpDone := done, hi := hi }

/-- A block whose Host submits one packet. -/
def hosted (bytes : List Byte) : State := { on .o0 with ops := [bytes], host := [.submit] }

/-- A block with a recorded fault. -/
def faulted : State := { on .o0 with fault := some ⟨.windowUnset, 0⟩ }

/-- The state an outcome leads to. -/
def after (o : Host.Outcome State Fault Refusal) (s : State) : State :=
  match o with
  | .next t => t
  | .fault _ => s
  | .refused _ => s

/-- The state after one instruction. -/
def run (i : Instr) (s : State) : State := after (exec i s) s

/-- The info of the recorded fault. -/
def info (s : State) : Option FaultInfo := s.fault.map (·.info)

/-- Data units. -/
def bytes (l : List Byte) : List BusUnit := l.map dataUnit

theorem opened_linkUp (c : Controller) (h : c.settle = none) : LinkUp (opened c) := ⟨rfl, rfl, h, rfl⟩

theorem on_linkUp (o : Orient) : LinkUp (on o) := opened_linkUp _ rfl

theorem windowed_linkUp (o : Orient) (xs xe ys ye : Word) : LinkUp (windowed o xs xe ys ye) := opened_linkUp _ rfl

theorem on_drawing (o : Orient) : Drawing (on o) := ⟨on_linkUp o, rfl, rfl, Config.default_wf⟩

theorem windowed_drawing (o : Orient) (xs xe ys ye : Word) : Drawing (windowed o xs xe ys ye) :=
  ⟨windowed_linkUp o xs xe ys ye, rfl, rfl, Config.default_wf⟩

theorem windowed_mapsWf (o : Orient) (xs xe ys ye : Word) : MapsWf (windowed o xs xe ys ye).cfg := Config.default_mapsWf

theorem on_mapsWf (o : Orient) : MapsWf (on o).cfg := Config.default_mapsWf

theorem inPhase_inv (p : Phase) : BlockInv (inPhase p) where
  legal := Config.default_legal
  memory := Memory.wf_nil
  decoder := ⟨rfl, rfl⟩
  stream := nofun
  phase := ⟨by simp [inPhase, opened, Controller.powerOn], nofun, fun _ => rfl, nofun, by simp [inPhase, opened, Controller.powerOn]⟩
  window := ⟨rfl, rfl⟩
  rst := rfl
  busy := nofun
  fault := nofun

theorem colmod_inv : BlockInv (taking .sleepOut .colmod []) where
  legal := Config.default_legal
  memory := Memory.wf_nil
  decoder := ⟨by decide, by decide, rfl⟩
  stream := nofun
  phase := ⟨by simp [taking, opened, Controller.powerOn], fun _ => .inl rfl, fun _ => rfl, nofun,
    by simp [taking, opened, Controller.powerOn]⟩
  window := ⟨rfl, rfl⟩
  rst := rfl
  busy := nofun
  fault := nofun

/-! ### Well-formedness: each check refuses an ill-formed term -/

theorem test_wf_mask : (Instr.circleQuad 10 10 3 16 0).wf = false ∧ (Instr.circleQuad 10 10 3 15 0).wf = true := by
  decide

theorem test_wf_opcodes : ({ Config.default with opcCaset := 0x2B } : Config).opcsDistinct = false := by decide

theorem test_wf_codes : ({ Config.default with orientCode90 := 0x00 } : Config).orientCodesDistinct = false := by decide

theorem test_wf_config : ({ Config.default with opcCaset := 0x2B } : Config).wf = false ∧
    ({ Config.default with orientCode90 := 0x00 } : Config).wf = false ∧ Config.default.wf = true := by decide

/-! ### Decoding: one word for each constructor, from the formats of 30_encoding.md R101 and the map of R102 -/

theorem test_decode_no_operand :
    decodePacket [0x01] = .ok (.busOpen, []) ∧ decodePacket [0x02] = .ok (.busClose, []) ∧
    decodePacket [0x03] = .ok (.reset, []) ∧ decodePacket [0x04] = .ok (.init, []) ∧
    decodePacket [0x16] = .ok (.clear, []) := by and_intros <;> rfl

theorem test_decode_protocol :
    decodePacket [0x05, 0x00, 0x5A] = .ok (.setOrient 90, []) ∧
    decodePacket [0x06, 0x01, 0x02, 0x03, 0x04] = .ok (.setWindow 1 2 3 4, []) ∧
    decodePacket [0x07, 0x12, 0x34, 0x01, 0x02] = .ok (.writePixels 0x1234 258, []) ∧
    decodePacket [0x08, 0x1F, 0xA4] = .ok (.isqrt 8100, []) := by and_intros <;> rfl

theorem test_decode_lines :
    decodePacket [0x10, 0x40, 0x50, 0xFF, 0xFE] = .ok (.pixel 64 80 0xFFFE, []) ∧
    decodePacket [0x11, 0x0A, 0x14, 0x05, 0x12, 0x34] = .ok (.hline 10 20 5 0x1234, []) ∧
    decodePacket [0x12, 0x03, 0x04, 0x05, 0x00, 0xFF] = .ok (.vline 3 4 5 0x00FF, []) ∧
    decodePacket [0x13, 0x00, 0x01, 0x05, 0x02, 0xF8, 0x00] = .ok (.line 0 1 5 2 0xF800, []) := by and_intros <;> rfl

theorem test_decode_rects :
    decodePacket [0x14, 0x0A, 0x0B, 0x0D, 0x0C, 0x07, 0xE0] = .ok (.rect 10 11 13 12 0x07E0, []) ∧
    decodePacket [0x15, 0x02, 0x03, 0x04, 0x05, 0xAB, 0xCD] = .ok (.fillRect 2 3 4 5 0xABCD, []) ∧
    decodePacket [0x22, 0x00, 0x01, 0x09, 0x06, 0x02, 0x12, 0x34] = .ok (.roundRect 0 1 9 6 2 0x1234, []) := by and_intros <;> rfl

theorem test_decode_curves :
    decodePacket [0x20, 0x0A, 0x0B, 0x03, 0x0F, 0x12, 0x34] = .ok (.circleQuad 10 11 3 15 0x1234, []) ∧
    decodePacket [0x21, 0x0A, 0x0B, 0x05, 0x12, 0x34] = .ok (.circle 10 11 5 0x1234, []) ∧
    decodePacket [0x23, 0x14, 0x15, 0x01, 0xFF, 0xFE] = .ok (.filledCircle 20 21 1 0xFFFE, []) ∧
    decodePacket [0x24, 0x1E, 0x1F, 0x03, 0x0C, 0xFF, 0xFE] = .ok (.ellipse 30 31 3 12 0xFFFE, []) ∧
    decodePacket [0x25, 0x0A, 0x0B, 0x01, 0x04, 0x12, 0x34] = .ok (.filledEllipse 10 11 1 4 0x1234, []) := by and_intros <;> rfl

/-- The bus units, from 30_encoding.md R90 and R91 with the default command bytes of 00_scope.md R8. -/
theorem test_decode_units :
    decodeUnit Config.default ⟨.cmd, 0x01⟩ = .ok .cSwreset ∧ decodeUnit Config.default ⟨.cmd, 0x11⟩ = .ok .cSlpout ∧
    decodeUnit Config.default ⟨.cmd, 0x28⟩ = .ok .cDispoff ∧ decodeUnit Config.default ⟨.cmd, 0x29⟩ = .ok .cDispon ∧
    decodeUnit Config.default ⟨.cmd, 0x2A⟩ = .ok .cCaset ∧ decodeUnit Config.default ⟨.cmd, 0x2B⟩ = .ok .cRaset ∧
    decodeUnit Config.default ⟨.cmd, 0x2C⟩ = .ok .cRamwr ∧ decodeUnit Config.default ⟨.cmd, 0x36⟩ = .ok .cMadctl ∧
    decodeUnit Config.default ⟨.cmd, 0x3A⟩ = .ok .cColmod ∧ decodeUnit Config.default ⟨.data, 0x2C⟩ = .ok (.data 0x2C) ∧
    decodeUnit Config.default ⟨.cmd, 0x00⟩ = .error (.unknownCommand 0x00) := by and_intros <;> rfl

/-- V60.1, V60.2, V44.9, and a packet with no byte. -/
theorem test_decode_illegal :
    decodePacket [0x09] = .error (.unknownOpcode 0x09) ∧
    decodePacket [0x15, 0x00, 0x00, 0x7F] = .error (.shortPacket 0x15) ∧
    decodePacket [0x20, 0x0A, 0x0A, 0x03, 0x10, 0x00, 0x00] = .error (.reservedMask 0x10) ∧
    decodePacket [] = .error .emptyPacket := by and_intros <;> rfl

/-- Words of spec/opcode_table.json: a packet's first byte is the low byte; a bus unit has the selector in bit 8. -/
theorem test_table_words :
    decodeTableWord 8 0x03 = some .reset ∧ decodeTableWord 24 0xA41F08 = some (.isqrt 8100) ∧
    decodeTableWord 16 0x02C = some .cRamwr ∧ decodeTableWord 16 0x12C = some (.data 0x2C) := by decide

/-- 30_encoding.md R106, its three examples, and R107. -/
theorem test_assembler :
    assemble "PIXEL" [64, 80, 0xFFFF] = some [0x10, 0x40, 0x50, 0xFF, 0xFF] ∧
    assemble "LINE" [0, 0, 5, 2, 0xF800] = some [0x13, 0x00, 0x00, 0x05, 0x02, 0xF8, 0x00] ∧
    assemble "SET_ORIENT" [270] = some [0x05, 0x01, 0x0E] ∧ assemble "PIXEL" [256, 0, 0] = none ∧
    unitText ⟨.cmd, 0x2A⟩ = "C:2A" ∧ unitText ⟨.data, 0x0F⟩ = "0F" := by decide +kernel

/-! ### The bus and the controller reset -/

/-- V40.2. -/
theorem test_init_closed : (run .init State.reset).fault = some ⟨.busClosed .cmd 0x11, 0⟩ ∧
    (run .init State.reset).trace = [] ∧ (run .init State.reset).ctl.phase = .resetting := by decide

/-- V70.2: T after BUS_OPEN and INIT. -/
theorem test_init_units : (run .init { State.reset with busOpen := true }).trace =
    [⟨.cmd, 0x11⟩, ⟨.cmd, 0x3A⟩, ⟨.data, 0x05⟩, ⟨.cmd, 0x29⟩] ∧
    (run .init { State.reset with busOpen := true }).ctl = onCtl .o0 := by decide

/-- V40.1. -/
theorem test_reset : (run .reset { State.reset with busOpen := true }).ctl.phase = .resetting ∧
    (run .reset { State.reset with busOpen := true }).ctl.settle = none ∧
    (run .reset { State.reset with busOpen := true }).rst = .inactive := by decide

/-- V40.3: the fault of a closed bus names the first unit. -/
theorem test_pixel_closed : info (run (.pixel 0 0 0xFFFF) { on .o0 with busOpen := false }) =
    some (.busClosed .cmd 0x2A) := by decide

/-! ### The Controller -/

/-- V41.1, V41.2, V41.4, V41.12, V41.13. -/
theorem test_unit_faults :
    info (run .cColmod (on .o0)) = some (.orderViolation .colmod .on) ∧
    info (run (.data 0x05) (on .o0)) = some (.paramError (.stray 0x05)) ∧
    info (xfer ⟨.cmd, 0x00⟩ (on .o0)).state = some (.unknownCommand 0x00) ∧
    info (run .cRamwr (on .o0)) = some .windowUnset ∧
    info (run .cSlpout (inPhase .uninitialized)) = some (.orderViolation .slpout .uninitialized) := by decide

/-- V41.3: CASET closed after three bytes. -/
theorem test_caset_incomplete :
    info (run .cRaset (opened { onCtl .o0 with cmd := some .caset, pbuf := [0, 0, 0] })) =
      some (.paramError (.incomplete .caset)) := by decide

/-- V41.5. -/
theorem test_madctl_illegal :
    info (sendAll [⟨.cmd, 0x36⟩, ⟨.data, 0x12⟩] (on .o0)).state = some (.paramError (.madctl 0x12)) := by decide

/-- V41.6. -/
theorem test_swreset_settles :
    info (sendAll [⟨.cmd, 0x01⟩, ⟨.cmd, 0x11⟩] (on .o0)).state = some (.settleViolation .swreset .cmd 0x11) := by decide

/-- V41.7. -/
theorem test_reset_active : info (run .cSlpout { on .o0 with rst := .active }) = some (.resetActive .cmd 0x11) := by
  decide

/-- V41.8 and V41.9. -/
theorem test_dispoff :
    info (sendAll [⟨.cmd, 0x28⟩, ⟨.cmd, 0x2C⟩] (on .o0)).state = some (.orderViolation .ramwr .colorModeSet) ∧
    (sendAll [⟨.cmd, 0x28⟩, ⟨.cmd, 0x29⟩] (on .o0)).state.ctl = onCtl .o0 := by decide

/-- The units of V41.10 up to the second pixel; the third pixel faults and is not written. -/
theorem test_pixel_stream :
    (sendAll (⟨.cmd, 0x2C⟩ :: bytes [0x12, 0x34, 0x12, 0x34, 0x56, 0x78]) (windowed .o0 0 1 0 0)).state.ctl.gram =
      [(0, 0x1234), (1, 0x1234)] ∧
    info (sendAll (⟨.cmd, 0x2C⟩ :: bytes [0x12, 0x34, 0x12, 0x34, 0x56, 0x78]) (windowed .o0 0 1 0 0)).state =
      some (.windowOverrun (.pixel 0x5678)) := by decide +kernel

/-- V41.11, V41.14, V41.15. -/
theorem test_ramwr_checks :
    info (sendAll [⟨.cmd, 0x2C⟩, ⟨.data, 0x12⟩, ⟨.cmd, 0x29⟩] (windowed .o0 0 0 0 0)).state =
      some (.paramError .oddPixelByte) ∧
    info (run .cRamwr (windowed .o0 5 4 0 0)) = some (.malformedWindow 5 0 4 0) ∧
    info (run .cRamwr (windowed .o0 0 128 0 0)) = some (.outOfBounds 0 0 128 0) := by decide

/-! ### The controller protocol -/

/-- V42.2. -/
theorem test_write_pixels :
    (run (.writePixels 0x1234 2) (windowed .o0 0 1 0 0)).trace = ⟨.cmd, 0x2C⟩ :: bytes [0x12, 0x34, 0x12, 0x34] ∧
    (run (.writePixels 0x1234 2) (windowed .o0 0 1 0 0)).ctl.gram = [(0, 0x1234), (1, 0x1234)] := by decide +kernel

/-- V42.3, V42.4, V42.5 and the last operation of V42.9. -/
theorem test_write_pixels_checks :
    info (run (.writePixels 0x1234 3) (windowed .o0 0 1 0 0)) = some (.windowOverrun (.count 3)) ∧
    info (run (.writePixels 0x1234 0) (on .o0)) = some .windowUnset ∧
    (run (.writePixels 0x1234 0) (windowed .o0 0 0 0 0)).trace = [⟨.cmd, 0x2C⟩] ∧
    info (run (.writePixels 1 1) (windowed .o0 150 150 0 0)) = some (.outOfBounds 150 0 150 0) := by decide

/-- V42.6, V42.7, V42.8. -/
theorem test_set_window :
    info (run (.setWindow 0 0 127 160) (on .o0)) = some (.outOfBounds 0 0 127 160) ∧
    info (run (.setWindow 5 0 4 200) (on .o0)) = some (.malformedWindow 5 0 4 200) ∧
    (run (.setWindow 159 127 159 127) (on .o90)).trace =
      ⟨.cmd, 0x2A⟩ :: bytes [0x00, 0x9F, 0x00, 0x9F] ++ ⟨.cmd, 0x2B⟩ :: bytes [0x00, 0x7F, 0x00, 0x7F] := by
  decide +kernel

/-- V42.10 and V42.11. -/
theorem test_set_orient :
    (run (.setOrient 270) (on .o0)).trace = [⟨.cmd, 0x36⟩, ⟨.data, 0xA0⟩] ∧
    (run (.setOrient 180) (on .o0)).trace = [⟨.cmd, 0x36⟩, ⟨.data, 0xC0⟩] ∧
    (run (.setOrient 1) (on .o0)).trace = [⟨.cmd, 0x36⟩, ⟨.data, 0x00⟩] ∧
    info (run (.setOrient 0) (inPhase .uninitialized)) = some (.notOn 0x05) := by decide

/-! ### Geometry -/

/-- V43.1; and the cells of P3, which the default map puts at (127, 159) and (0, 0). -/
theorem test_pixel :
    (run (.pixel 64 80 0xFFFF) (on .o0)).trace = ⟨.cmd, 0x2A⟩ :: bytes [0x00, 0x40, 0x00, 0x40] ++
      ⟨.cmd, 0x2B⟩ :: bytes [0x00, 0x50, 0x00, 0x50] ++ ⟨.cmd, 0x2C⟩ :: bytes [0xFF, 0xFF] ∧
    (run (.pixel 159 0 0x001F) (on .o90)).ctl.gram.cell 127 159 = some 0x001F ∧
    (run (.pixel 0 127 0x07E0) (on .o90)).ctl.gram.cell 0 0 = some 0x07E0 := by decide +kernel

/-- V43.2, V43.4, V43.5. -/
theorem test_hline :
    (run (.hline 10 20 5 7) (on .o0)).ctl.gram = [(2570, 7), (2571, 7), (2572, 7), (2573, 7), (2574, 7)] ∧
    info (run (.hline 126 0 3 1) (on .o0)) = some (.outOfBounds 126 0 128 0) ∧
    info (run (.hline 0 0 0 1) (on .o0)) = some (.malformedWindow 0 0 (-1) 0) := by decide +kernel

/-- V43.3. -/
theorem test_vline : (run (.vline 3 4 3 0x00FF) (on .o0)).trace = ⟨.cmd, 0x2A⟩ :: bytes [0x00, 0x03, 0x00, 0x03] ++
    ⟨.cmd, 0x2B⟩ :: bytes [0x00, 0x04, 0x00, 0x06] ++
      ⟨.cmd, 0x2C⟩ :: bytes [0x00, 0xFF, 0x00, 0xFF, 0x00, 0xFF] := by decide +kernel

/-- V43.6 to V43.10. -/
theorem test_line_points :
    linePoints 0 0 5 2 = [(0, 0), (1, 0), (2, 1), (3, 1), (4, 2), (5, 2)] ∧
    linePoints 5 2 0 0 = [(5, 2), (4, 2), (3, 1), (2, 1), (1, 0), (0, 0)] ∧
    linePoints 0 0 2 5 = [(0, 0), (0, 1), (1, 2), (1, 3), (2, 4), (2, 5)] ∧
    linePoints 3 0 0 3 = [(3, 0), (2, 1), (1, 2), (0, 3)] ∧ linePoints 2 5 2 5 = [(2, 5)] := by decide +kernel

/-- V43.6. -/
theorem test_line : (run (.line 0 0 5 2 9) (on .o0)).trace.length = 78 ∧
    (run (.line 0 0 5 2 9) (on .o0)).ctl.gram =
      [(0, 9), (1, 9), (130, 9), (131, 9), (260, 9), (261, 9)] := by decide +kernel

/-- V43.12. -/
theorem test_rect : (run (.rect 3 2 1 1 9) (on .o0)).trace.length = 130 ∧
    (run (.rect 3 2 1 1 9) (on .o0)).ctl.gram =
      [(129, 9), (130, 9), (131, 9), (257, 9), (258, 9), (259, 9)] ∧
    (run (.rect 3 2 1 1 9) (on .o0)).ctl.xs = some 1 := by decide +kernel

/-- V43.14 and V43.15. -/
theorem test_fill_rect : (run (.fillRect 2 3 4 4 0xABCD) (on .o0)).trace.length = 23 ∧
    (run (.fillRect 2 3 4 4 0xABCD) (on .o0)).ctl.gram =
      [(386, 0xABCD), (387, 0xABCD), (388, 0xABCD), (514, 0xABCD), (515, 0xABCD), (516, 0xABCD)] ∧
    info (run (.fillRect 4 3 2 4 1) (on .o0)) = some (.malformedWindow 4 3 2 4) := by decide +kernel

/-- CLEAR checks the gate, and its first unit is CASET's (V43.16 is too long a run for a test). -/
theorem test_clear : info (run .clear (inPhase .sleepOut)) = some (.notOn 0x16) ∧
    info (run .clear { on .o0 with busOpen := false }) = some (.busClosed .cmd 0x2A) := by decide +kernel

/-! ### Curves -/

/-- V44.1, V44.2 and V44.8. -/
theorem test_circle_quad_points :
    circleQuadPoints 10 10 2 1 = [(10, 12), (12, 10), (11, 11), (11, 11), (12, 10), (10, 12)] ∧
    circleQuadPoints 10 10 0 1 = [(10, 10), (10, 10)] ∧ circleQuadPoints 10 10 3 0 = [] := by decide +kernel

/-- V44.7: the plots before the first point outside stand. -/
theorem test_circle_outside : info (run (.circle 2 10 3 7) (on .o0)) = some (.outOfBounds (-1) 10 (-1) 10) ∧
    (run (.circle 2 10 3 7) (on .o0)).trace.length = 65 ∧
    (run (.circle 2 10 3 7) (on .o0)).ctl.gram = [(898, 7), (1285, 7), (1666, 7)] := by decide +kernel

/-- V44.4: the four cells (10, 9), (9, 10), (11, 10), (10, 11). -/
theorem test_circle : (run (.circle 10 10 1 7) (on .o0)).trace.length = 208 ∧
    (run (.circle 10 10 1 7) (on .o0)).ctl.gram = [(1162, 7), (1289, 7), (1291, 7), (1418, 7)] := by decide +kernel

/-- V44.11: the units of the four edges and corners; V44.12. -/
theorem test_round_rect : (run (.roundRect 0 0 4 4 0 7) (on .o0)).trace.length = 188 ∧
    info (run (.roundRect 0 0 3 6 2 7) (on .o0)) = some (.malformedWindow 2 0 1 0) := by decide +kernel

/-- V44.14 and V44.15. -/
theorem test_filled_circle : (run (.filledCircle 10 10 0 7) (on .o0)).trace.length = 26 ∧
    info (run (.filledCircle 0 0 1 7) (on .o0)) = some (.outOfBounds 0 (-1) 0 1) := by decide +kernel

/-- V44.13: the spans of the 13 cells. -/
theorem test_filled_circle_spans : filledCircleSpans 10 10 2 =
    [(10, 8, 5), (10, 8, 5), (11, 9, 3), (9, 9, 3), (12, 10, 1), (8, 10, 1)] := by decide +kernel

/-- V44.16 to V44.20. -/
theorem test_ellipse_points :
    ellipsePoints 5 3 = [(0, 3), (1, 3), (2, 3), (3, 2), (4, 2), (5, 0), (5, 1)] ∧
    ellipsePoints 3 5 = [(0, 5), (1, 5), (3, 0), (3, 1), (3, 2), (2, 3), (2, 4)] ∧
    ellipsePoints 1 6 = [(0, 6), (1, 0), (1, 1), (1, 2), (1, 3), (1, 4)] ∧
    ellipsePoints 0 3 = [(0, 3), (0, 0)] ∧ ellipsePoints 3 0 = [(0, 0), (3, 0)] ∧
    ellipsePoints 2 1 = [(0, 1), (1, 1), (2, 0)] := by decide +kernel

/-- V44.25 and V44.26. -/
theorem test_ellipse : info (run (.ellipse 30 30 1 1 7) (on .o0)) = some (.degenerateEllipse 1 1) ∧
    (run (.ellipse 30 30 2 0 7) (on .o0)).trace.length = 104 ∧
    (run (.ellipse 30 30 2 0 7) (on .o0)).ctl.gram = [(3869, 7), (3870, 7), (3871, 7)] := by decide +kernel

/-- V44.27: the spans of the rows 30, then 29 and 31, 28 and 32, 27 and 33. -/
theorem test_filled_ellipse_spans : filledEllipseSpans 30 30 5 3 =
    [(25, 30, 11), (26, 29, 9), (26, 31, 9), (27, 28, 7), (27, 32, 7), (30, 27, 1), (30, 33, 1)] := by decide +kernel

/-- V44.29 and V44.33. -/
theorem test_filled_ellipse : (run (.filledEllipse 10 10 0 0 7) (on .o0)).ctl.gram = [(1290, 7)] ∧
    info (run (.filledEllipse 0 5 2 2 7) (on .o0)) = some (.outOfBounds (-1) 5 1 5) := by decide +kernel

/-- The table of 95_test_vectors.md 2.6. -/
theorem test_isqrt : [0, 1, 2, 3, 4, 8, 15, 16, 17, 99, 100, 255, 8099, 8100, 65025, 65535].map isqrt =
    [0, 1, 1, 1, 2, 2, 3, 4, 4, 9, 10, 15, 89, 90, 255, 255] ∧ (run (.isqrt 8100) State.reset).sqrt = some 90 := by
  decide +kernel

/-- A read of `E.sqrt` before any ISQRT (95_test_vectors.md 2.6). -/
theorem test_read_unset :
    info (after (step { State.reset with host := [.readSqrt] }) State.reset) = some (.unsetRead .sqrt) := by decide

/-- V60.3. -/
theorem test_faulted_block_stays : (after (step { faulted with ops := [[0x01]] }) State.reset).pc = 0 ∧
    (after (step { faulted with ops := [[0x01]] }) State.reset).fault = faulted.fault := by decide

/-- The pins, at the default levels of 00_scope.md R8. -/
theorem test_pins : { on .o0 with dc := some .cmd }.dcPin = some .low ∧ { on .o0 with dc := some .data }.dcPin =
    some .high ∧ State.reset.rstPin = .high := by decide

/-! ### Witnesses: encoding and the step -/

theorem witness_DecodeOfEncode : Config.default.opcsDistinct = true ∧
    (Instr.circleQuad 255 255 255 15 0xFFFF).wf = true ∧
    encode Config.default (.circleQuad 255 255 255 15 0xFFFF) =
      .packet [0x20, 0xFF, 0xFF, 0xFF, 0x0F, 0xFF, 0xFF] := by decide

theorem witness_EncodeOfDecode :
    decodePacket [0x20, 0xFF, 0xFF, 0xFF, 0x0F, 0xFF, 0xFF, 0x01] =
      .ok (.circleQuad 255 255 255 15 0xFFFF, [0x01]) ∧
    decodeUnit Config.default ⟨.cmd, 0x3A⟩ = .ok .cColmod := by and_intros <;> rfl

/-- The first and last opcode bytes of each gap of the map. -/
theorem witness_IllegalPackets_opcode : ∀ b ∈ ([0x00, 0x09, 0x0F, 0x17, 0x1F, 0x26, 0xFF] : List Byte),
    (hosted [b]).hung = false ∧ (hosted [b]).fault = none ∧ (hosted [b]).bench = [] ∧ (hosted [b]).host = [.submit] ∧
    (hosted [b]).ops[(hosted [b]).pc]? = some [b] ∧
    (b.toNat = 0 ∨ (0x09 ≤ b.toNat ∧ b.toNat ≤ 0x0F) ∨ (0x17 ≤ b.toNat ∧ b.toNat ≤ 0x1F) ∨ 0x26 ≤ b.toNat) := by
  decide

theorem witness_IllegalPackets_short :
    (hosted [0x05, 0x01]).ops[(hosted [0x05, 0x01]).pc]? = some (Op.setOrient.code :: [0x01]) ∧
    (Op.setOrient.code :: [0x01]).length < Op.setOrient.length ∧ (hosted [0x05, 0x01]).hung = false ∧
    (hosted [0x05, 0x01]).fault = none ∧ (hosted [0x05, 0x01]).bench = [] ∧ (hosted [0x05, 0x01]).host = [.submit] := by
  decide

theorem witness_IllegalPackets_mask :
    (hosted [0x20, 1, 1, 1, 16]).ops[(hosted [0x20, 1, 1, 1, 16]).pc]? = some [0x20, 1, 1, 1, 16] ∧
    16 ≤ (16 : Byte).toNat ∧ (hosted [0x20, 1, 1, 1, 16]).hung = false ∧
    (hosted [0x20, 1, 1, 1, 16]).fault = none ∧ (hosted [0x20, 1, 1, 1, 16]).bench = [] ∧
    (hosted [0x20, 1, 1, 1, 16]).host = [.submit] := by decide

/-- The clause of a Host with no action pending. -/
theorem witness_IllegalPackets_noAction : ({ hosted [0x09] with host := [] } : State).host = [] ∧
    ({ hosted [0x09] with host := [] } : State).bench = [] ∧ ({ hosted [0x09] with host := [] } : State).hung = false ∧
    ({ hosted [0x09] with host := [] } : State).fault = none ∧
    ({ hosted [0x09] with host := [] } : State).ops[({ hosted [0x09] with host := [] } : State).pc]? = some [0x09] ∧
    0x09 ≤ (0x09 : Byte).toNat ∧ (0x09 : Byte).toNat ≤ 0x0F := by decide

theorem witness_StepRunsDecodedInstruction :
    (hosted [0x16]).hung = false ∧ (hosted [0x16]).fault = none ∧
    (hosted [0x16]).ops[(hosted [0x16]).pc]? = some [0x16] ∧ decodePacket [0x16] = .ok (.clear, []) ∧
    (hosted [0x16]).bench = [] ∧ (hosted [0x16]).host = [.submit] ∧
    ({ hosted [0x16] with host := [] } : State).host = [] ∧
    ({ on .o0 with bench := [⟨.data, 0x16⟩] } : State).bench = [⟨.data, 0x16⟩] ∧
    decodeUnit (on .o0).cfg ⟨.data, 0x16⟩ = .ok (.data 0x16) := by and_intros <;> rfl

theorem witness_StepRunsPlacedInstruction :
    ({ on .o0 with ops := [[0x01], [0x02]], pc := 1 } : State).hung = false ∧
    ({ on .o0 with ops := [[0x01], [0x02]], pc := 1 } : State).fault = none ∧ (on .o0).cfg.opcsDistinct = true ∧
    (Instr.circleQuad 1 1 1 15 0).wf = true ∧ 0 < [[(0x01 : Byte)], [0x02]].length ∧ 0 ≠ 1 := by decide

/-- The same for a bus unit, with one already waiting on the bench. -/
theorem witness_StepRunsPlacedInstruction_unit : ({ on .o0 with bench := [⟨.data, 1⟩] } : State).hung = false ∧
    ({ on .o0 with bench := [⟨.data, 1⟩] } : State).fault = none ∧ (Instr.data 0xFF).wf = true ∧
    encode ({ on .o0 with bench := [⟨.data, 1⟩] } : State).cfg (.data 0xFF) = .unit ⟨.data, 0xFF⟩ := by decide

/-- A step without a bench that changes T: PIXEL submitted by the Host. -/
theorem witness_HostPlacesNoUnit : (hosted [0x10, 127, 159, 0, 7]).bench = [] ∧
    step (hosted [0x10, 127, 159, 0, 7]) =
      .next (after (step (hosted [0x10, 127, 159, 0, 7])) (hosted [0x10, 127, 159, 0, 7])) ∧
    (after (step (hosted [0x10, 127, 159, 0, 7])) (hosted [0x10, 127, 159, 0, 7])).trace.length = 13 ∧
    (hosted [0x10, 127, 159, 0, 7]).trace = [] := ⟨rfl, rfl, by decide +kernel, rfl⟩

theorem witness_RecordedFaultIsFinal : faulted.fault = some ⟨.windowUnset, 0⟩ ∧
    exec .reset faulted = .next (run .reset faulted) ∧ step faulted = .next faulted := by and_intros <;> rfl

theorem witness_StalledTransferHangsForever :
    ({ on .o0 with stall := some 0 } : State).busOpen = true ∧ ({ on .o0 with stall := some 0 } : State).stall = some 0 ∧
    ({ on .o0 with stall := some 0 } : State).fault = none ∧
    receive Config.default .inactive ⟨.cmd, 0x2A⟩ (onCtl .o0) = .ok { onCtl .o0 with cmd := some .caset } := by decide

theorem witness_HostReads : ({ on .o0 with host := [.readSqrt], sqrt := some 255 } : State).hung = false ∧
    ({ on .o0 with host := [.readSqrt], sqrt := some 255 } : State).sqrt = some 255 ∧
    ({ on .o0 with host := [.readSqrt] } : State).sqrt = none ∧
    ({ on .o0 with host := [.readSqrt] } : State).hung = false ∧
    ({ on .o0 with host := [.readSqrt] } : State).fault = none ∧
    ({ on .o0 with host := [.readSqrt] } : State).bench = [] ∧ faulted.bench = [] ∧
    ({ faulted with host := [.readFault], busy := true } : State).hung = false := by decide

theorem witness_PcAndTraceOnlyAdvance :
    encode (on .o0).cfg (.isqrt 0) = .packet [0x08, 0, 0] ∧ (on .o0).fault = none ∧
    encode (on .o0).cfg (.data 7) = .unit ⟨.data, 7⟩ := by decide

/-! ### Witnesses: reset and the bus -/

theorem witness_ResetLineAndWaits : (on .o0).rst = .inactive ∧ ({ on .o0 with rst := .active } : State).rst = .active :=
  by decide

theorem witness_InitInstruction_open : ∀ p : Phase, (inPhase p).busOpen = true ∧ (inPhase p).stall = none ∧
    (inPhase p).cfg.opcsDistinct = true := by intro p; cases p <;> decide

theorem witness_InitInstruction_closed : State.reset.busOpen = false ∧ State.reset.fault = none := by decide

theorem witness_InitFailureModes : State.reset.cfg.opcsDistinct = true ∧ State.reset.fault = none ∧
    exec .init State.reset = .next (run .init State.reset) ∧ (run .init State.reset).fault ≠ none :=
  ⟨by decide, rfl, rfl, by decide⟩

theorem witness_InitTwiceIsInitOnce : (on .o270).busOpen = true ∧ (on .o270).stall = none ∧
    (on .o270).cfg.opcsDistinct = true := by decide

theorem witness_TransferOutcomes : State.reset.busOpen = false ∧ State.reset.fault = none ∧ (on .o0).busOpen = true ∧
    (on .o0).fault = none ∧ (on .o0).stall = none ∧
    receive (on .o0).cfg (on .o0).rst ⟨.data, 7⟩ (on .o0).ctl = .raised (onCtl .o0) (.paramError (.stray 7)) ∧
    receive (on .o0).cfg (on .o0).rst ⟨.cmd, 0x2A⟩ (on .o0).ctl = .ok { onCtl .o0 with cmd := some .caset } := by decide

theorem witness_ClosedBusSendsNothing : State.reset.busOpen = false ∧
    exec (.setOrient 90) State.reset = .next (run (.setOrient 90) State.reset) ∧
    Instr.setOrient 90 ≠ .reset ∧ Instr.setOrient 90 ≠ .init := ⟨rfl, rfl, by decide, by decide⟩

/-! ### Witnesses: the Controller -/

theorem witness_CommandsWithoutData : ∀ p : Phase, LinkUp (inPhase p) ∧ (inPhase p).ctl.closable = true ∧
    (inPhase p).cfg.opcsDistinct = true ∧ (inPhase p).ctl.phase = p :=
  fun p => ⟨opened_linkUp _ rfl, by cases p <;> rfl, (by decide : Config.default.opcsDistinct = true), rfl⟩

theorem witness_CommandsWithParametersStart : ∀ p : Phase, LinkUp (inPhase p) ∧ (inPhase p).ctl.closable = true ∧
    (inPhase p).cfg.opcsDistinct = true ∧ (inPhase p).ctl.phase = p :=
  fun p => ⟨opened_linkUp _ rfl, by cases p <;> rfl, (by decide : Config.default.opcsDistinct = true), rfl⟩

theorem witness_ParameterBytes_collect : LinkUp (taking .on .raset [1, 2]) ∧
    (taking .on .raset [1, 2]).ctl.cmd = some .raset ∧ (taking .on .raset [1, 2]).ctl.pbuf.length < 3 :=
  ⟨opened_linkUp _ rfl, rfl, by decide⟩

theorem witness_ParameterBytes_latch : LinkUp (taking .on .caset [0, 1, 0]) ∧ LinkUp (taking .on .raset [0, 1, 0]) ∧
    (taking .on .caset [0, 1, 0]).ctl.pbuf = [0, 1, 0] ∧ (taking .on .raset [0, 1, 0]).ctl.pbuf = [0, 1, 0] :=
  ⟨opened_linkUp _ rfl, opened_linkUp _ rfl, rfl, rfl⟩

theorem witness_ParameterBytes_single : LinkUp (taking .sleepOut .colmod []) ∧ LinkUp (taking .on .madctl []) ∧
    (taking .sleepOut .colmod []).ctl.pbuf = [] ∧ (0x05 : Byte) = (taking .sleepOut .colmod []).cfg.colmod16 ∧
    (taking .on .madctl []).cfg.orientCodesDistinct = true ∧
    (0xA0 : Byte) = orientCodeOf (taking .on .madctl []).cfg .o270 :=
  ⟨opened_linkUp _ rfl, opened_linkUp _ rfl, rfl, rfl, by decide, rfl⟩

theorem witness_RamwrStart_hypotheses : ∀ xs xe ys ye : Word, LinkUp (windowed .o90 xs xe ys ye) ∧
    (windowed .o90 xs xe ys ye).ctl.closable = true ∧ (windowed .o90 xs xe ys ye).cfg.opcsDistinct = true ∧
    (windowed .o90 xs xe ys ye).ctl.phase = .on ∧ (windowed .o90 xs xe ys ye).fault = none :=
  fun xs xe ys ye =>
    ⟨windowed_linkUp .o90 xs xe ys ye, rfl, (by decide : Config.default.opcsDistinct = true), rfl, rfl⟩

/-- Each clause at a boundary: no window; XE one below XS; XE at W(o); the last cell. -/
theorem witness_RamwrStart_clauses : LinkUp (on .o90) ∧ (on .o90).ctl.closable = true ∧ (on .o90).ctl.xs = none ∧
    (windowed .o90 5 4 0 0).ctl.xe = some 4 ∧ (4 : Word).toNat < (5 : Word).toNat ∧
    (windowed .o90 160 160 0 0).ctl.xe = some 160 ∧ frameW .o90 ≤ (160 : Word).toNat ∧
    (windowed .o90 159 159 127 127).ctl.xe = some 159 ∧ (159 : Word).toNat < frameW .o90 ∧
    (127 : Word).toNat < frameH .o90 := ⟨on_linkUp _, by decide⟩

theorem witness_PixelStreamBytes_high : LinkUp (streaming .o0 0 127 0 159 0 0 false none) ∧
    (streaming .o0 0 127 0 159 0 0 false none).ctl.cmd = some .ramwr ∧
    (streaming .o0 0 127 0 159 0 0 false none).ctl.hi = none := ⟨opened_linkUp _ rfl, rfl, rfl⟩

theorem witness_PixelStreamBytes_overrun : LinkUp (streaming .o0 0 0 0 0 0 0 true (some 0x12)) ∧
    (streaming .o0 0 0 0 0 0 0 true (some 0x12)).ctl.wpDone = true ∧
    (streaming .o0 0 0 0 0 0 0 true (some 0x12)).ctl.hi = some 0x12 ∧
    (streaming .o0 0 0 0 0 0 0 true (some 0x12)).fault = none := ⟨opened_linkUp _ rfl, rfl, rfl, rfl⟩

/-- The three moves of the pointer, over the whole frame at its last row: within the row, to the next row, at the
end. -/
theorem witness_PixelStreamBytes_low : ∀ x y : Word,
    LinkUp (streaming .o0 0 127 0 159 x y false (some 0x12)) ∧
    MapsWf (streaming .o0 0 127 0 159 x y false (some 0x12)).cfg ∧
    (streaming .o0 0 127 0 159 x y false (some 0x12)).ctl.wpX = some x ∧
    (streaming .o0 0 127 0 159 x y false (some 0x12)).ctl.xe = some 127 :=
  fun _ _ => ⟨opened_linkUp _ rfl, Config.default_mapsWf, rfl, rfl⟩

theorem witness_PixelStreamBytes_moves : ((126 : Word).toNat < (127 : Word).toNat ∧ (159 : Word).toNat < frameH .o0) ∧
    (¬ (127 : Word).toNat < (127 : Word).toNat ∧ (158 : Word).toNat < (159 : Word).toNat) ∧
    (¬ (127 : Word).toNat < (127 : Word).toNat ∧ ¬ (159 : Word).toNat < (159 : Word).toNat ∧
      (127 : Word).toNat < frameW .o0 ∧ (159 : Word).toNat < frameH .o0) := by decide

theorem witness_PhaseAdmission : LinkUp (inPhase .sleepOut) ∧ (inPhase .sleepOut).ctl.closable = true ∧
    (inPhase .sleepOut).cfg.opcsDistinct = true ∧ (inPhase .sleepOut).fault = none ∧
    admits .slpout (inPhase .sleepOut).ctl.phase = false := ⟨opened_linkUp _ rfl, rfl, by decide, rfl, by decide⟩

theorem witness_ResetAndSettleHold : ({ on .o0 with rst := .active } : State).busOpen = true ∧
    ({ on .o0 with rst := .active } : State).fault = none ∧
    (opened { onCtl .o0 with settle := some .slpout }).rst = .inactive ∧
    (opened { onCtl .o0 with settle := some .slpout }).ctl.settle = some .slpout := by decide

theorem witness_MalformedUnitsFault_data : LinkUp (on .o0) ∧ (on .o0).fault = none ∧ (on .o0).ctl.cmd = none ∧
    LinkUp (taking .on .caset [1, 2, 3, 4]) ∧
    (taking .on .caset [1, 2, 3, 4]).ctl.pbuf.length = paramCount .caset ∧ 0 < paramCount .caset ∧
    LinkUp (taking .sleepOut .colmod []) ∧ (0x06 : Byte) ≠ (taking .sleepOut .colmod []).cfg.colmod16 ∧
    LinkUp (taking .on .madctl []) ∧ ∀ o, (0x12 : Byte) ≠ orientCodeOf (taking .on .madctl []).cfg o :=
  ⟨on_linkUp _, rfl, rfl, opened_linkUp _ rfl, rfl, by decide, opened_linkUp _ rfl, by decide, opened_linkUp _ rfl,
    fun o => by cases o <;> decide⟩

theorem witness_MalformedUnitsFault_command : LinkUp (taking .on .caset [1, 2, 3]) ∧
    (taking .on .caset [1, 2, 3]).ctl.pbuf.length < paramCount .caset ∧
    LinkUp (streaming .o0 0 0 0 0 0 0 false (some 1)) ∧
    (streaming .o0 0 0 0 0 0 0 false (some 1)).ctl.hi ≠ none ∧ (on .o0).ctl.closable = true ∧
    ∀ k, (0x00 : Byte) ≠ opcOf (on .o0).cfg k :=
  ⟨opened_linkUp _ rfl, by decide, opened_linkUp _ rfl, by decide, rfl, fun k => by cases k <;> decide⟩

theorem witness_OnlyPixelDataWritesGram : encode (on .o0).cfg .cDispoff = .unit ⟨.cmd, 0x28⟩ ∧
    exec .cDispoff (on .o0) = .next (run .cDispoff (on .o0)) ∧ Instr.cDispoff ≠ .cSwreset ∧
    exec .cSwreset (on .o0) = .next (run .cSwreset (on .o0)) ∧ BlockInv (taking .sleepOut .colmod []) ∧
    exec (.data 5) (taking .sleepOut .colmod []) = .next (run (.data 5) (taking .sleepOut .colmod [])) ∧
    (taking .sleepOut .colmod []).ctl.phase ≠ .on :=
  ⟨rfl, rfl, by decide, rfl, colmod_inv, rfl, by decide⟩

/-- Each of the five changes of the phase happens. -/
theorem witness_PhaseMachine : (∀ p, BlockInv (inPhase p)) ∧ BlockInv (taking .sleepOut .colmod []) ∧
    (run .cSwreset (inPhase .on)).ctl.phase = .resetting ∧ (run .cSlpout (inPhase .resetting)).ctl.phase = .sleepOut ∧
    (run (.data 0x05) (taking .sleepOut .colmod [])).ctl.phase = .colorModeSet ∧
    (run .cDispon (inPhase .colorModeSet)).ctl.phase = .on ∧
    (run .cDispoff (inPhase .on)).ctl.phase = .colorModeSet := ⟨inPhase_inv, colmod_inv, by decide⟩

theorem witness_BusUnitFrames : encode (on .o0).cfg .cRamwr = .unit ⟨.cmd, 0x2C⟩ ∧
    (on .o0).cfg.opcsDistinct = true ∧ exec .cRamwr (windowed .o0 0 0 0 0) = .next (run .cRamwr (windowed .o0 0 0 0 0)) ∧
    Instr.cRamwr ≠ .cSwreset ∧ exec (.data 5) (taking .sleepOut .colmod []) =
      .next (run (.data 5) (taking .sleepOut .colmod [])) := ⟨rfl, by decide, rfl, by decide, rfl⟩

/-! ### Witnesses: the controller protocol -/

theorem witness_DrawingGate_others : gatedOpcode (.isqrt 9) = none ∧ State.reset.fault = none ∧
    exec (.isqrt 9) State.reset = .next (run (.isqrt 9) State.reset) := ⟨rfl, rfl, rfl⟩

theorem witness_DrawingGate : gatedOpcode (.roundRect 0 0 0 0 0 0) = some 0x22 ∧
    (∀ p ∈ [Phase.uninitialized, .resetting, .sleepOut, .colorModeSet],
      (inPhase p).ctl.phase ≠ .on ∧ (inPhase p).fault = none) := by decide

theorem witness_SetOrientResult : Drawing (on .o180) ∧ (inPhase .colorModeSet).ctl.phase ≠ .on ∧
    (inPhase .colorModeSet).fault = none ∧ ({ on .o0 with busOpen := false } : State).ctl.phase = .on ∧
    ({ on .o0 with busOpen := false } : State).fault = none ∧ (on .o180).cfg.opcsDistinct = true ∧
    exec (.setOrient 65535) (on .o180) = .next (run (.setOrient 65535) (on .o180)) :=
  ⟨on_drawing _, by decide, rfl, rfl, rfl, by decide, rfl⟩

/-- Its clauses at a boundary: one column too few, the first column outside, the whole frame. -/
theorem witness_SetWindowResult : Drawing (on .o90) ∧ (on .o90).ctl.phase = .on ∧ (on .o90).fault = none ∧
    (inPhase .colorModeSet).ctl.phase ≠ .on ∧ ((4 : Byte).toNat < (5 : Byte).toNat) ∧
    (frameW (on .o90).ctl.orient ≤ (160 : Byte).toNat) ∧
    ((159 : Byte).toNat < frameW (on .o90).ctl.orient ∧ (127 : Byte).toNat < frameH (on .o90).ctl.orient) ∧
    ({ on .o90 with busOpen := false } : State).busOpen = false :=
  ⟨on_drawing _, rfl, rfl, by decide, by decide, by decide, by decide, rfl⟩

/-- The sub-operation's clauses at a boundary: one column left of the frame, one row above it, one too few below 0, the
whole frame. -/
theorem witness_SetWindowResult_suboperation : ((-1 : Int) ≤ 0 ∧ (-1 : Int) < 0) ∧ ((-2 : Int) < -1) ∧
    WindowIn (on .o90).ctl.orient 0 0 159 127 ∧
    opSetWindow (-1) 0 0 0 (on .o0) = .stop { on .o0 with fault := some ⟨.outOfBounds (-1) 0 0 0, 0⟩ } ∧
    opSetWindow 0 (-1) 0 0 (on .o0) = .stop { on .o0 with fault := some ⟨.outOfBounds 0 (-1) 0 0, 0⟩ } :=
  ⟨by decide, by decide, by simp only [WindowIn]; decide, by decide, by decide⟩

theorem witness_WritePixelsResult_checks : (inPhase .resetting).ctl.phase ≠ .on ∧ (on .o0).ctl.xs = none ∧
    (windowed .o0 0 1 0 0).ctl.xe = some 1 ∧
    (int16 1 - int16 0 + 1) * (int16 0 - int16 0 + 1) < ((3 : Word).toNat : Int) ∧
    ((2 : Word).toNat : Int) ≤ (int16 1 - int16 0 + 1) * (int16 0 - int16 0 + 1) ∧
    ({ windowed .o0 0 1 0 0 with busOpen := false } : State).busOpen = false := by decide

/-- A window of the landscape frame after a change to the portrait one; and a whole frame, with a count of its whole
area. -/
theorem witness_WritePixelsResult_stream : Drawing (windowed .o0 128 128 0 0) ∧
    MapsWf (windowed .o0 128 128 0 0).cfg ∧ (windowed .o0 128 128 0 0).fault = none ∧ frameW .o0 ≤ (128 : Word).toNat ∧
    (1 : Word).toNat ≤ ((128 : Word).toNat - (128 : Word).toNat + 1) * ((0 : Word).toNat - (0 : Word).toNat + 1) ∧
    Drawing (windowed .o0 0 127 0 159) ∧ (127 : Word).toNat < frameW .o0 ∧ (159 : Word).toNat < frameH .o0 ∧
    (20480 : Word).toNat ≤ ((127 : Word).toNat - (0 : Word).toNat + 1) * ((159 : Word).toNat - (0 : Word).toNat + 1) :=
  ⟨windowed_drawing .o0 128 128 0 0, Config.default_mapsWf, rfl, by decide, by decide, windowed_drawing .o0 0 127 0 159,
    by decide, by decide, by decide⟩

theorem witness_WindowWriteUnitCounts : 0 < 1 := by decide

theorem witness_DrawingFrame : gatedOpcode (.pixel 0 0 7) = some 0x10 ∧ (∀ deg, Instr.pixel 0 0 7 ≠ .setOrient deg) ∧
    (on .o0).cfg.opcsDistinct = true ∧ exec (.pixel 0 0 7) (on .o0) = .next (run (.pixel 0 0 7) (on .o0)) ∧
    1 ∉ (drawnPositions (on .o0) (.pixel 0 0 7)).map (positionKey (on .o0).cfg (on .o0).ctl.orient) :=
  ⟨rfl, fun _ => by simp, by decide, rfl, by decide⟩

/-! ### Witnesses: geometry, each clause at a boundary of the frame -/

theorem witness_draws : (∀ o, Drawing (on o) ∧ MapsWf (on o).cfg ∧ (on o).fault = none) ∧
    (inPhase .colorModeSet).ctl.phase ≠ .on ∧ (inPhase .colorModeSet).fault = none ∧
    ({ on .o0 with busOpen := false } : State).busOpen = false ∧
    ({ on .o0 with busOpen := false } : State).ctl.phase = .on :=
  ⟨fun o => ⟨on_drawing o, on_mapsWf o, rfl⟩, by decide, rfl, rfl, rfl⟩

theorem witness_PixelResult : Drawing (on .o90) ∧ MapsWf (on .o90).cfg ∧
    (159 : Byte).toNat < frameW (on .o90).ctl.orient ∧ (127 : Byte).toNat < frameH (on .o90).ctl.orient ∧
    frameH (on .o90).ctl.orient ≤ (128 : Byte).toNat := ⟨on_drawing _, on_mapsWf _, by decide⟩

theorem witness_HlineResult : Drawing (on .o0) ∧ MapsWf (on .o0).cfg ∧ 0 < (128 : Byte).toNat ∧
    (0 : Byte).toNat + (128 : Byte).toNat ≤ frameW (on .o0).ctl.orient ∧
    (159 : Byte).toNat < frameH (on .o0).ctl.orient ∧
    frameW (on .o0).ctl.orient < (1 : Byte).toNat + (128 : Byte).toNat := ⟨on_drawing _, on_mapsWf _, by decide⟩

theorem witness_VlineResult : Drawing (on .o0) ∧ MapsWf (on .o0).cfg ∧ 0 < (160 : Byte).toNat ∧
    (127 : Byte).toNat < frameW (on .o0).ctl.orient ∧
    (0 : Byte).toNat + (160 : Byte).toNat ≤ frameH (on .o0).ctl.orient ∧
    frameH (on .o0).ctl.orient < (1 : Byte).toNat + (160 : Byte).toNat := ⟨on_drawing _, on_mapsWf _, by decide⟩

theorem witness_LinePointsProperties : (linePoints 0 0 5 2)[1]? = some (1, 0) ∧ (linePoints 0 0 5 2)[2]? = some (2, 1) ∧
    ((2 : Int) - 0).natAbs ≤ ((5 : Int) - 0).natAbs ∧ (linePoints 0 0 2 5)[1]? = some (0, 1) ∧
    (linePoints 0 0 2 5)[2]? = some (1, 2) ∧ ((2 : Int) - 0).natAbs ≤ ((5 : Int) - 0).natAbs := by decide +kernel

theorem witness_LineResult : Drawing (on .o0) ∧ MapsWf (on .o0).cfg ∧
    (127 : Byte).toNat < frameW (on .o0).ctl.orient ∧ (0 : Byte).toNat < frameW (on .o0).ctl.orient ∧
    (159 : Byte).toNat < frameH (on .o0).ctl.orient ∧ (0 : Byte).toNat < frameH (on .o0).ctl.orient :=
  ⟨on_drawing _, on_mapsWf _, by decide⟩

theorem witness_RectResult : Drawing (on .o270) ∧ MapsWf (on .o270).cfg ∧
    (159 : Byte).toNat < frameW (on .o270).ctl.orient ∧ (0 : Byte).toNat < frameW (on .o270).ctl.orient ∧
    (127 : Byte).toNat < frameH (on .o270).ctl.orient ∧ (0 : Byte).toNat < frameH (on .o270).ctl.orient :=
  ⟨on_drawing _, on_mapsWf _, by decide⟩

theorem witness_FillRectResult : Drawing (on .o0) ∧ MapsWf (on .o0).cfg ∧ (0 : Byte).toNat ≤ (127 : Byte).toNat ∧
    (0 : Byte).toNat ≤ (159 : Byte).toNat ∧ (127 : Byte).toNat < frameW (on .o0).ctl.orient ∧
    (159 : Byte).toNat < frameH (on .o0).ctl.orient ∧ (4 : Byte).toNat < (5 : Byte).toNat ∧
    frameW (on .o0).ctl.orient ≤ (128 : Byte).toNat := ⟨on_drawing _, on_mapsWf _, by decide⟩

theorem witness_ClearResult : (∀ o, Drawing (on o) ∧ MapsWf (on o).cfg) ∧ (inPhase .sleepOut).ctl.phase ≠ .on ∧
    ({ on .o90 with busOpen := false } : State).busOpen = false :=
  ⟨fun o => ⟨on_drawing o, on_mapsWf o⟩, by decide, rfl⟩

/-- The first plots of V44.7 and its first point outside. -/
theorem witness_PlottingStopsAtFirstPointOutside : Drawing (on .o0) ∧ MapsWf (on .o0).cfg ∧ (on .o0).fault = none ∧
    plottedPoints (.line 0 0 255 0 7) = some ((linePoints 0 0 255 0).take 128 ++ (128, 0) ::
      (linePoints 0 0 255 0).drop 129, 7) ∧
    (∀ q ∈ (linePoints 0 0 255 0).take 128, InFrame (on .o0).ctl.orient q) ∧ ¬ InFrame (on .o0).ctl.orient (128, 0) :=
  ⟨on_drawing _, on_mapsWf _, rfl, by decide +kernel, by simp only [InFrame]; decide +kernel,
    by simp only [InFrame]; decide⟩

/-- The first span of V44.15, the centreline of V44.33, a ROUND_RECT whose bottom edge leaves the frame, and one whose
left edge has no cell. -/
theorem witness_PlottingStopsAtFirstSpanOutside : Drawing (on .o0) ∧ MapsWf (on .o0).cfg ∧ (on .o0).fault = none ∧
    spanWindows (.filledCircle 0 0 1 7) = some ([] ++ ⟨0, -1, 0, 1⟩ :: [⟨0, -1, 0, 1⟩, ⟨1, 0, 1, 0⟩, ⟨-1, 0, -1, 0⟩], 7) ∧
    ¬ Window.In (on .o0).ctl.orient ⟨0, -1, 0, 1⟩ ∧
    spanWindows (.filledEllipse 0 5 2 2 7) = some ([] ++ ⟨-1, 5, 1, 5⟩ :: [⟨0, 4, 0, 4⟩, ⟨0, 6, 0, 6⟩], 7) ∧
    ¬ Window.In (on .o0).ctl.orient ⟨-1, 5, 1, 5⟩ ∧
    (∃ post, spanWindows (.roundRect 0 159 4 160 0 7) = some ([⟨0, 159, 4, 159⟩] ++ ⟨0, 160, 4, 160⟩ :: post, 7)) ∧
    Window.In (on .o0).ctl.orient ⟨0, 159, 4, 159⟩ ∧ ¬ Window.In (on .o0).ctl.orient ⟨0, 160, 4, 160⟩ ∧
    (∃ post, spanWindows (.roundRect 0 0 4 3 2 7) =
      some ([⟨2, 0, 2, 0⟩, ⟨2, 3, 2, 3⟩] ++ ⟨0, 2, 0, 1⟩ :: post, 7)) ∧
    ¬ Window.In (on .o0).ctl.orient ⟨0, 2, 0, 1⟩ :=
  ⟨on_drawing _, on_mapsWf _, rfl, by decide +kernel, by simp only [Window.In, WindowIn]; decide, by decide +kernel,
    by simp only [Window.In, WindowIn]; decide, ⟨_, rfl⟩, by simp only [Window.In, WindowIn]; decide,
    by simp only [Window.In, WindowIn]; decide, ⟨_, rfl⟩, by simp only [Window.In, WindowIn]; decide⟩

/-- The bus-closed clauses of the operations made of plots and spans: a state that meets them, and operands at the edge
of the frame. -/
theorem witness_busClosed : ({ on .o0 with busOpen := false } : State).ctl.phase = .on ∧
    ({ on .o0 with busOpen := false } : State).fault = none ∧
    ({ on .o0 with busOpen := false } : State).busOpen = false ∧
    (127 : Byte).toNat < frameW (on .o0).ctl.orient ∧ (159 : Byte).toNat < frameH (on .o0).ctl.orient ∧
    (100 : Byte).toNat + (59 : Byte).toNat < frameH (on .o0).ctl.orient ∧ (59 : Byte).toNat ≤ (100 : Byte).toNat ∧
    (100 : Byte).toNat + (119 : Byte).toNat / 2 < frameH (on .o0).ctl.orient ∧
    (127 : Byte).toNat / 2 ≤ (63 : Byte).toNat ∧
    (63 : Byte).toNat + (127 : Byte).toNat / 2 < frameW (on .o0).ctl.orient ∧
    0 < ((127 : Byte).toNat : Int) - (127 : Byte).toNat + 1 - 2 * (0 : Byte).toNat ∧
    circleQuadPoints (127 : Byte).toNat (159 : Byte).toNat (0 : Byte).toNat 8 = (127, 159) :: [(127, 159)] ∧
    InFrame (on .o0).ctl.orient (127, 159) :=
  ⟨rfl, rfl, rfl, by decide, by decide, by decide, by decide, by decide, by decide, by decide, by decide,
    by decide +kernel, by simp only [InFrame]; decide⟩

/-- 44_geometry_curves.md R254, R255 and R259 list `BusClosed`: a span at the edge of the frame with the bus closed. -/
theorem test_busClosed : info (run (.filledCircle 1 1 1 7) { on .o0 with busOpen := false }) =
      some (.busClosed .cmd 0x2A) ∧
    info (run (.roundRect 0 0 4 4 1 7) { on .o0 with busOpen := false }) = some (.busClosed .cmd 0x2A) ∧
    info (run (.filledEllipse 1 0 2 4 7) { on .o0 with busOpen := false }) = some (.busClosed .cmd 0x2A) := by
  decide +kernel

/-! ### Witnesses: curves -/

theorem witness_CircleQuadResult : Drawing (on .o0) ∧ MapsWf (on .o0).cfg ∧
    (∀ p ∈ circleQuadPoints (10 : Byte).toNat (10 : Byte).toNat (10 : Byte).toNat 15,
      InFrame (on .o0).ctl.orient p) ∧
    (∀ p ∈ circleQuadPoints (255 : Byte).toNat (255 : Byte).toNat (255 : Byte).toNat 0,
      InFrame (on .o0).ctl.orient p) ∧ (inPhase .sleepOut).ctl.phase ≠ .on :=
  ⟨on_drawing _, on_mapsWf _, by simp only [InFrame]; decide +kernel, by simp only [InFrame]; decide +kernel, by decide⟩

theorem witness_CircleResult : (on .o0).ctl.phase = .on ∧ (127 : Byte).toNat + 1 = frameW (on .o0).ctl.orient ∧
    (159 : Byte).toNat + 1 = frameH (on .o0).ctl.orient ∧ Drawing (on .o90) ∧ MapsWf (on .o90).cfg ∧
    (63 : Byte).toNat ≤ (63 : Byte).toNat ∧ (63 : Byte).toNat + (63 : Byte).toNat < frameW (on .o90).ctl.orient ∧
    (63 : Byte).toNat + (63 : Byte).toNat < frameH (on .o90).ctl.orient :=
  ⟨rfl, by decide, by decide, on_drawing _, on_mapsWf _, by decide⟩

theorem witness_CircleSymmetry : ((10 : Int) + 2, (10 : Int) + 0) ∈ circleQuadPoints 10 10 2 0x0F := by decide +kernel

/-- 44_geometry_curves.md R254: the top edge before the bottom edge outside the frame is sent and painted. -/
theorem test_round_rect_outside :
    info (run (.roundRect 0 159 4 160 0 7) (on .o0)) = some (.outOfBounds 0 160 4 160) ∧
    (run (.roundRect 0 159 4 160 0 7) (on .o0)).trace.length = 21 ∧
    (run (.roundRect 0 159 4 160 0 7) (on .o0)).ctl.gram.cell 4 159 = some 7 := by decide +kernel

/-- No cell left of the first inset edge; none of the third; one cell of each. -/
theorem witness_RoundRectResult : Drawing (on .o0) ∧ MapsWf (on .o0).cfg ∧ (on .o0).fault = none ∧
    ((3 : Byte).toNat : Int) - (0 : Byte).toNat + 1 - 2 * (2 : Byte).toNat ≤ 0 ∧
    0 < ((4 : Byte).toNat : Int) - (0 : Byte).toNat + 1 - 2 * (2 : Byte).toNat ∧
    (127 : Byte).toNat < frameW (on .o0).ctl.orient ∧ (159 : Byte).toNat < frameH (on .o0).ctl.orient ∧
    0 < ((127 : Byte).toNat : Int) - (0 : Byte).toNat + 1 - 2 * (63 : Byte).toNat ∧
    0 < ((159 : Byte).toNat : Int) - (0 : Byte).toNat + 1 - 2 * (63 : Byte).toNat ∧
    (inPhase .sleepOut).ctl.phase ≠ .on := ⟨on_drawing _, on_mapsWf _, by decide⟩

theorem witness_FilledCircleResult : Drawing (on .o0) ∧ MapsWf (on .o0).cfg ∧ (63 : Byte).toNat ≤ (64 : Byte).toNat ∧
    (64 : Byte).toNat + (63 : Byte).toNat < frameW (on .o0).ctl.orient ∧
    (64 : Byte).toNat + (63 : Byte).toNat < frameH (on .o0).ctl.orient ∧ (inPhase .sleepOut).ctl.phase ≠ .on :=
  ⟨on_drawing _, on_mapsWf _, by decide⟩

theorem witness_DiscCoversCircle : 2 < 256 ∧ ((12 : Int), (10 : Int)) ∈ circleQuadPoints 10 10 2 0x0F := by
  decide +kernel

theorem witness_EllipseResult : Drawing (on .o0) ∧ MapsWf (on .o0).cfg ∧ (on .o0).fault = none ∧
    (1 : Byte).toNat < 2 ∧ (inPhase .sleepOut).ctl.phase ≠ .on ∧ 2 ≤ (2 : Byte).toNat ∧
    (∀ p ∈ ellipsePoints ((2 : Byte).toNat / 2) ((0 : Byte).toNat / 2),
      ∀ q ∈ mirrorPoints (1 : Byte).toNat (0 : Byte).toNat p, InFrame (on .o0).ctl.orient q) :=
  ⟨on_drawing _, on_mapsWf _, rfl, by decide, by decide, by decide, by simp only [InFrame]; decide +kernel⟩

theorem witness_SpanIsLargest : (1 : Nat) ≤ 3 ∧ 3 * 3 * (4 * 4) + 5 * 5 * (1 * 1) ≤ 5 * 5 * (3 * 3) ∧ 4 ≤ 5 ∧
    0 < 3 ∧ 3 * 3 * (5 * 5) ≤ 5 * 5 * (3 * 3) ∧ 2 + 1 ≤ 3 ∧ 3 * 3 * (0 * 0) + 5 * 5 * ((2 + 1) * (2 + 1)) ≤ 5 * 5 * (3 * 3) := by
  decide

/-- The premise of the last clause at y = 0: the bound a is the largest x of the centreline. -/
theorem witness_SpanIsLargest_row : ∀ x : Nat, 3 * 3 * (x * x) + 5 * 5 * (0 * 0) ≤ 5 * 5 * (3 * 3) → x ≤ 5 := by
  intro x h
  refine Nat.le_of_not_lt fun hx => ?_
  have : 6 * 6 ≤ x * x := Nat.mul_le_mul (by omega) (by omega)
  omega

theorem witness_FilledEllipseResult : Drawing (on .o0) ∧ MapsWf (on .o0).cfg ∧
    (127 : Byte).toNat / 2 ≤ (63 : Byte).toNat ∧ (159 : Byte).toNat / 2 ≤ (79 : Byte).toNat ∧
    (63 : Byte).toNat + (127 : Byte).toNat / 2 < frameW (on .o0).ctl.orient ∧
    (79 : Byte).toNat + (159 : Byte).toNat / 2 < frameH (on .o0).ctl.orient ∧ 78 < (159 : Byte).toNat / 2 ∧
    (inPhase .sleepOut).ctl.phase ≠ .on := ⟨on_drawing _, on_mapsWf _, by decide⟩

theorem witness_LoopBoundsCutNothing : (0 : Nat) ≠ 0 ∨ 1 ≠ 0 := by decide

theorem witness_IsqrtInstruction : ({ State.reset with host := [.readSqrt] } : State).hung = false ∧
    ({ State.reset with host := [.readSqrt] } : State).fault = none ∧
    ({ State.reset with host := [.readSqrt] } : State).sqrt = none ∧
    ({ State.reset with host := [.readSqrt] } : State).bench = [] := by decide

theorem witness_HlineResult_suboperation : (on .o0).ctl.phase = .on ∧ (on .o0).fault = none ∧ (255 : Int) < 256 := by
  decide

theorem witness_RamwrStart_phase : LinkUp (inPhase .sleepOut) ∧ (inPhase .sleepOut).ctl.closable = true ∧
    (inPhase .sleepOut).cfg.opcsDistinct = true ∧ (inPhase .sleepOut).ctl.phase ≠ .on ∧
    (inPhase .sleepOut).fault = none := ⟨opened_linkUp _ rfl, rfl, by decide, by decide, rfl⟩

theorem witness_PixelStreamBytes_odd : LinkUp (streaming .o0 0 0 0 0 0 0 false (some 1)) ∧
    (streaming .o0 0 0 0 0 0 0 false (some 1)).ctl.cmd = some .ramwr ∧
    (streaming .o0 0 0 0 0 0 0 false (some 1)).ctl.hi ≠ none ∧
    (streaming .o0 0 0 0 0 0 0 false (some 1)).fault = none := ⟨opened_linkUp _ rfl, rfl, by decide, rfl⟩

theorem witness_TransferOutcomes_stall : ({ on .o0 with stall := some 0 } : State).busOpen = true ∧
    ({ on .o0 with stall := some 0 } : State).stall = some 0 ∧
    ({ on .o0 with stall := some 1 } : State).stall = some (0 + 1) ∧
    ({ on .o0 with stall := some 1 } : State).busOpen = true ∧
    receive Config.default .inactive ⟨.cmd, 0x2A⟩ (onCtl .o0) = .ok { onCtl .o0 with cmd := some .caset } := by decide

theorem witness_IsqrtProperties : 65535 ≤ 65535 ∧ 255 ≤ 255 ∧ 65536 ≤ 65536 := by decide

theorem witness_StepKeepsInv : BlockInv (inPhase .on) ∧ step (inPhase .on) = .next (inPhase .on) ∧
    BlockInv (inPhase .sleepOut) := ⟨inPhase_inv _, rfl, inPhase_inv _⟩

end Sys2Proof.Tests
end

section
/-! PROOFS. The drawing operations as sequences of window writes, said once for every law of runs that a window write and
a raise obey and that holds of one part after another. -/
namespace Sys2Proof.Machine

/-- A law `R ps s r` of the run `r` from the state `s` with the positions `ps`, in the form that carries it to every
operation with the drawing gate but SET_ORIENT. The positions of a window write matter only when its window is
well-formed: otherwise SET_WINDOW raises a fault (42_controller_protocol.md R200). -/
structure DrawLaw (R : List (Int × Int) → State → Run → Prop) : Prop where
  skip : ∀ s, R [] s (.ok s)
  raise : ∀ ps s f, R ps s (raiseStop s f)
  seq : ∀ {ps qs s r f}, R ps s r → (∀ t, R qs t (f t)) → R (ps ++ qs) s (r.andThen f)
  setWindow : ∀ x0 y0 x1 y1 s, R [] s (opSetWindow x0 y0 x1 y1 s)
  writePixels : ∀ c n s, R (drawnPositions s (.writePixels c n)) s (opWritePixels c (int16 n) s)
  window : ∀ {ps x0 y0 x1 y1 n} c s, (x0 ≤ x1 → y0 ≤ y1 → ps = firstPositions x0 y0 x1 n.toNat) →
    R ps s (windowWrite x0 y0 x1 y1 c n s)

/-- A horizontal span is the first row of its window, whatever its length (43_geometry_basic.md R223). -/
theorem hlinePositions_eq (x y len : Int) :
    hlinePositions (x, y, len) = firstPositions x y (x + len - 1) len.toNat := by
  have hw : (x + len - 1 - x + 1).toNat = len.toNat := by omega
  rw [firstPositions, hlinePositions, hw]
  refine List.map_congr_left fun k hk => ?_
  rw [nthPosition, Nat.mod_eq_of_lt (List.mem_range.1 hk), Nat.div_eq_of_lt (List.mem_range.1 hk)]
  simp

/-- A vertical span is the first column of its window, whatever its length (43_geometry_basic.md R224). -/
theorem vlinePositions_eq (x y len : Int) : vlinePositions (x, y, len) = firstPositions x y x len.toNat := by
  have hw : (x - x + 1).toNat = 1 := by omega
  rw [firstPositions, vlinePositions, hw]
  refine List.map_congr_left fun k _ => ?_
  rw [nthPosition, Nat.mod_one, Nat.div_one]
  simp

namespace DrawLaw

variable {R : List (Int × Int) → State → Run → Prop} (h : DrawLaw R)
include h

theorem gate (k : Op) {ps : List (Int × Int)} {s : State} {f : State → Run} (hf : R ps s (f s)) :
    R ps s ((Machine.gate k s).andThen f) := by
  unfold Machine.gate
  split
  · exact hf
  · exact h.raise ps s _

theorem all {α : Type} {f : α → State → Run} {positions : α → List (Int × Int)}
    (hf : ∀ a s, R (positions a) s (f a s)) (l : List α) (s : State) :
    R (l.flatMap positions) s (runAll f l s) := by
  induction l generalizing s with
  | nil => exact h.skip s
  | cons a l ih => exact h.seq (hf a s) ih

theorem opPixel (x y : Int) (c : Color) (s : State) : R [(x, y)] s (opPixel x y c s) :=
  h.gate _ (h.window c s fun _ _ => by simp [firstPositions, nthPosition, List.range_succ])

theorem plotAll (c : Color) (l : List (Int × Int)) (s : State) : R l s (plotAll c l s) := by
  have := h.all (f := fun p => Machine.opPixel p.1 p.2 c) (positions := fun p => [p])
    (fun p s => h.opPixel p.1 p.2 c s) l s
  rwa [List.flatMap_singleton'] at this

theorem opHline (p : Int × Int × Int) (c : Color) (s : State) :
    R (hlinePositions p) s (opHline p.1 p.2.1 p.2.2 c s) :=
  h.gate _ (h.window c s fun _ _ => hlinePositions_eq ..)

theorem opVline (p : Int × Int × Int) (c : Color) (s : State) :
    R (vlinePositions p) s (opVline p.1 p.2.1 p.2.2 c s) :=
  h.gate _ (h.window c s fun _ _ => vlinePositions_eq ..)

theorem opLine (x0 y0 x1 y1 : Int) (c : Color) (s : State) :
    R (linePoints x0 y0 x1 y1) s (opLine x0 y0 x1 y1 c s) :=
  h.gate _ (h.plotAll ..)

theorem opRect (x0 y0 x1 y1 : Int) (c : Color) (s : State) :
    R (linePoints x0 y0 x1 y0 ++ linePoints x0 y1 x1 y1 ++ linePoints x0 y0 x0 y1 ++ linePoints x1 y0 x1 y1) s
      (opRect x0 y0 x1 y1 c s) := by
  simp only [List.append_assoc]
  exact h.gate _ <| h.seq (h.opLine ..) fun _ => h.seq (h.opLine ..) fun _ => h.seq (h.opLine ..) fun _ =>
    h.opLine ..

theorem opFillRect (x0 y0 x1 y1 : Int) (c : Color) (s : State) :
    R (firstPositions x0 y0 x1 ((x1 - x0 + 1).toNat * (y1 - y0 + 1).toNat)) s (opFillRect x0 y0 x1 y1 c s) :=
  h.gate _ (h.window c s fun hx hy => by rw [Int.toNat_mul (by omega) (by omega)])

theorem opClear (s : State) :
    R (firstPositions 0 0 (Int.ofNat (frameW s.ctl.orient) - 1) (frameW s.ctl.orient * frameH s.ctl.orient)) s
      (opClear s) := by
  have := h.opFillRect 0 0 (Int.ofNat (frameW s.ctl.orient) - 1) (Int.ofNat (frameH s.ctl.orient) - 1)
    Config.black s
  simp only [Int.ofNat_eq_natCast, Int.sub_zero, Int.sub_add_cancel, Int.toNat_natCast] at this
  exact h.gate _ this

theorem opCircleQuad (cx cy : Int) (r : Nat) (m : Byte) (c : Color) (s : State) :
    R (circleQuadPoints cx cy r m) s (opCircleQuad cx cy r m c s) :=
  h.gate _ (h.plotAll ..)

theorem opRoundRect (x0 y0 x1 y1 : Int) (r : Nat) (c : Color) (s : State) :
    R ((roundRectRows x0 y0 x1 y1 r).flatMap hlinePositions ++ (roundRectColumns x0 y0 x1 y1 r).flatMap vlinePositions
      ++ roundRectCorners x0 y0 x1 y1 r) s (opRoundRect x0 y0 x1 y1 r c s) := by
  simp only [roundRectRows, roundRectColumns, roundRectCorners, List.flatMap_cons, List.flatMap_nil, List.append_nil,
    List.append_assoc]
  exact h.gate _ <| h.seq (h.opHline (_, _, _) ..) fun _ => h.seq (h.opHline (_, _, _) ..) fun _ =>
    h.seq (h.opVline (_, _, _) ..) fun _ => h.seq (h.opVline (_, _, _) ..) fun _ =>
    h.seq (h.opCircleQuad ..) fun _ => h.seq (h.opCircleQuad ..) fun _ => h.seq (h.opCircleQuad ..) fun _ =>
    h.opCircleQuad ..

theorem opEllipse (cx cy : Int) (w v : Byte) (c : Color) (s : State) :
    R ((ellipsePoints (semiAxis w) (semiAxis v)).flatMap (mirrorPoints cx cy)) s (opEllipse cx cy w v c s) := by
  refine h.gate _ ?_
  split
  · exact h.raise ..
  · exact h.plotAll ..

/-- Every operation with the drawing gate but SET_ORIENT is one run, and the law holds of it with the operation's own
positions. -/
theorem gated {i : Instr} {op : Byte} (hi : gatedOpcode i = some op) (ho : ∀ deg, i ≠ .setOrient deg) (s : State) :
    ∃ r, exec i s = complete r ∧ R (drawnPositions s i) s r := by
  cases i <;> simp only [gatedOpcode, reduceCtorEq] at hi <;> refine ⟨_, rfl, ?_⟩
  case setOrient deg => exact absurd rfl (ho deg)
  case setWindow => exact h.setWindow ..
  case writePixels => exact h.writePixels ..
  case pixel => exact h.opPixel ..
  case hline => exact h.opHline (_, _, _) ..
  case vline => exact h.opVline (_, _, _) ..
  case line => exact h.opLine ..
  case rect => exact h.opRect ..
  case fillRect => exact h.opFillRect ..
  case clear => exact h.opClear s
  case circleQuad => exact h.opCircleQuad ..
  case circle => exact h.gate _ (h.opCircleQuad ..)
  case roundRect => exact h.opRoundRect ..
  case filledCircle => exact h.gate _ (h.all (fun p s => h.opVline p _ s) _ s)
  case ellipse => exact h.opEllipse ..
  case filledEllipse => exact h.gate _ (h.all (fun p s => h.opHline p _ s) _ s)

end DrawLaw

/-! ### The frame -/

/-- The frame of a run that draws at the given positions: what drawing leaves is left, and every other cell. -/
def RunFrame (ps : List (Int × Int)) (s : State) (r : Run) : Prop :=
  s.cfg.opcsDistinct = true → DrawKept s r.state ∧ CellsKept ps s r.state

/-- The pc step of a whole operation is in the frame of drawing (10_state.md R24). -/
theorem DrawKept.advancePc {s t : State} (h : DrawKept s t) : DrawKept s t.advancePc where
  cfg := h.cfg
  ops := h.ops
  host := h.host
  reads := h.reads
  bench := h.bench
  busOpen := h.busOpen
  rst := h.rst
  sqrt := h.sqrt
  phase := h.phase
  settle := h.settle
  colmod := h.colmod
  orient := h.orient

/-- A part after another keeps the cells that neither draws. -/
theorem CellsKept.trans {ps qs : List (Int × Int)} {s t u : State} (h : CellsKept ps s t) (hd : DrawKept s t)
    (k : CellsKept qs t u) : CellsKept (ps ++ qs) s u := by
  intro a ha
  rw [List.map_append, List.mem_append, not_or] at ha
  obtain ⟨hp, hq⟩ := ha
  rw [k a (by rwa [hd.cfg, hd.orient]), h a hp]

/-- What is kept at the first positions of a list is kept at the whole list. -/
theorem CellsKept.append {ps : List (Int × Int)} {s t : State} (h : CellsKept ps s t) (qs : List (Int × Int)) :
    CellsKept (ps ++ qs) s t :=
  fun a ha => h a fun hm => ha (by rw [List.map_append]; exact List.mem_append_left _ hm)

/-- A run that leaves every cell has the frame, at whatever positions. -/
theorem RunFrame.of_gram {ps : List (Int × Int)} {s : State} {r : Run}
    (h : s.cfg.opcsDistinct = true → DrawKept s r.state ∧ r.state.ctl.gram = s.ctl.gram) : RunFrame ps s r :=
  fun hc => ⟨(h hc).1, fun a _ => by rw [(h hc).2]⟩

theorem RunFrame.raiseStop (ps : List (Int × Int)) (s : State) (f : FaultInfo) : RunFrame ps s (raiseStop s f) :=
  .of_gram fun _ => ⟨.raise s f, by simp [Machine.raiseStop]⟩

/-- A window write with a malformed window stops at the gate or at the check of SET_WINDOW, before any unit
(42_controller_protocol.md R200, R201). -/
theorem windowWrite_malformed {x0 y0 x1 y1 : Int} (hw : x1 < x0 ∨ y1 < y0) (c : Color) (n : Int) (s : State) :
    ∃ f, windowWrite x0 y0 x1 y1 c n s = raiseStop s f := by
  by_cases hp : s.ctl.phase = .on
  · exact ⟨_, by simp only [windowWrite, opSetWindow, gate_on hp, Run.andThen_ok, if_pos hw]; rfl⟩
  · exact ⟨_, by simp only [windowWrite, opSetWindow, gate_off hp]; rfl⟩

/-- The frame is carried from the window writes to the operations. -/
theorem runFrame_drawLaw : DrawLaw RunFrame where
  skip s := .of_gram fun _ => ⟨.refl s, rfl⟩
  raise := .raiseStop
  seq {ps qs s r f} hr hf hc := by
    obtain ⟨hd, hk⟩ := hr hc
    cases r with
    | stop t => exact ⟨hd, hk.append qs⟩
    | ok t =>
      obtain ⟨hd', hk'⟩ := hf t (by rw [show t.cfg = s.cfg from hd.cfg]; exact hc)
      exact ⟨hd.trans hd', hk.trans hd hk'⟩
  setWindow x0 y0 x1 y1 s := .of_gram fun hc => opSetWindow_kept hc x0 y0 x1 y1
  writePixels c n s hc := by
    obtain ⟨hd, hk⟩ := opWritePixels_kept hc c (int16 n)
    refine ⟨hd, fun a ha => hk a fun xs xe ys hxs hxe hys => ?_⟩
    simpa [drawnPositions, hxs, hxe, hys, int16] using ha
  window {ps x0 y0 x1 y1 n} c s hps := by
    by_cases hw : x1 < x0 ∨ y1 < y0
    · obtain ⟨f, hf⟩ := windowWrite_malformed hw c n s
      rw [hf]
      exact .raiseStop ps s f
    · rw [hps (by omega) (by omega)]
      exact fun hc => windowWrite_kept hc x0 y0 x1 y1 c n

/-- Settles O37: each operation is a sequence of window writes, and each of those has the frame. -/
theorem drawingFrame : Obligations.DrawingFrame := by
  unfold Obligations.DrawingFrame
  intro i op s t hi ho hc ht
  obtain ⟨r, hr, hframe⟩ := runFrame_drawLaw.gated hi ho s
  obtain ⟨hd, hk⟩ := hframe hc
  rw [hr] at ht
  rcases complete_cases ht with ⟨u, rfl, rfl⟩ | rfl
  · exact ⟨hd.advancePc, hk⟩
  · exact ⟨hd, hk⟩

end Sys2Proof.Machine
end

section
/-! PROOFS. How a run ends: T only grows and the pc stays; a run that goes through raised no fault, and one that stops
raised one or hangs. -/
namespace Sys2Proof.Machine

/-- What a run does to T, to the pc and to the fault record (10_state.md R24, R41, 60_exceptions.md R300, R306). -/
structure Advances (s : State) (r : Run) : Prop where
  trace : s.trace <+: r.state.trace
  pc : r.state.pc = s.pc
  through : s.fault = none → ∀ t, r = .ok t → t.fault = none
  stopped : s.fault = none → ∀ t, r = .stop t →
    (∃ f, t.fault = some ⟨f, s.pc⟩) ∨ (t.fault = none ∧ t.busy = true ∧ t.stall = some 0)

namespace Advances

/-- A change of other registers, which goes through. -/
theorem of_ok {s t : State} (ht : t.trace = s.trace) (hp : t.pc = s.pc) (hf : t.fault = s.fault) :
    Advances s (.ok t) where
  trace := ⟨[], (List.append_nil _).trans ht.symm⟩
  pc := hp
  through h u hu := by cases hu; rw [hf, h]
  stopped _ u hu := by cases hu

theorem raiseStop (s : State) (f : FaultInfo) : Advances s (raiseStop s f) where
  trace := by simp [Machine.raiseStop]
  pc := by simp [Machine.raiseStop]
  through _ t ht := by cases ht
  stopped h t ht := by cases ht; exact .inl ⟨f, by rw [State.raise_fault f h]⟩

/-- One transfer, whatever its outcome (40_bus_transport.md R124). -/
theorem xfer (u : BusUnit) (s : State) : Advances s (xfer u s) := by
  have hs := xfer_sent u s
  refine ⟨?_, hs.pc, fun h t ht => ?_, fun h t ht => ?_⟩
  · rcases hs.trace with h | h
    · exact ⟨[], (List.append_nil _).trans h.symm⟩
    · exact ⟨[u], h.symm⟩
  all_goals
    rcases xfer_cases u s with ⟨-, hx⟩ | ⟨-, c, f, -, hx⟩ | ⟨-, c, -, ⟨-, hx⟩ | ⟨hst, hx⟩ | ⟨n, -, hx⟩⟩ <;>
      rw [hx] at ht <;> cases ht
  · exact h
  · exact h
  · exact .inl ⟨_, by rw [State.raise_fault _ h]⟩
  · exact .inl ⟨f, by rw [State.raise_fault _ (by exact h)]; rfl⟩
  · exact .inr ⟨h, rfl, hst⟩

/-- One part after another. -/
theorem andThen {s : State} {r : Run} {f : State → Run} (hr : Advances s r) (hf : ∀ t, Advances t (f t)) :
    Advances s (r.andThen f) := by
  cases r with
  | stop t => exact hr
  | ok t =>
    have ht := hf t
    have hpc : t.pc = s.pc := hr.pc
    exact ⟨hr.trace.trans ht.trace, ht.pc.trans hpc, fun h => ht.through (hr.through h t rfl),
      fun h => hpc ▸ ht.stopped (hr.through h t rfl)⟩

theorem sendAll (us : List BusUnit) (s : State) : Advances s (sendAll us s) := by
  induction us generalizing s with
  | nil => exact .of_ok rfl rfl rfl
  | cons u us ih => exact (xfer u s).andThen ih

theorem gate (k : Op) {s : State} {f : State → Run} (hf : ∀ t, Advances t (f t)) :
    Advances s ((gate k s).andThen f) := by
  unfold Machine.gate
  split
  · exact hf s
  · exact raiseStop s _

theorem opSetWindow (x0 y0 x1 y1 : Int) (s : State) : Advances s (opSetWindow x0 y0 x1 y1 s) := by
  refine gate _ fun t => ?_
  split
  · exact raiseStop t _
  · split
    · exact raiseStop t _
    · exact sendAll _ t

theorem opWritePixels (c : Color) (n : Int) (s : State) : Advances s (opWritePixels c n s) := by
  refine gate _ fun t => ?_
  split
  · split
    · exact raiseStop t _
    · exact (xfer _ t).andThen fun u => by rw [repeatRun_pixels]; exact sendAll _ u
  · exact raiseStop t _

/-- The law is carried from the transfers to the operations. -/
theorem drawLaw : DrawLaw fun _ => Advances where
  skip _ := .of_ok rfl rfl rfl
  raise _ := raiseStop
  seq := andThen
  setWindow := opSetWindow
  writePixels c n := opWritePixels c (int16 n)
  window {_ x0 y0 x1 y1 n} c s _ := (opSetWindow x0 y0 x1 y1 s).andThen (opWritePixels c n)

/-- The reset steps send nothing and cannot fault (42_controller_protocol.md R190). -/
theorem opReset (s : State) : Advances s (.ok (opReset s)) := by
  rw [opReset_eq]
  exact .of_ok rfl rfl rfl

/-- INIT: the reset steps send nothing, and the wait only lifts the hold (42_controller_protocol.md R191). -/
theorem opInit (s : State) : Advances s (opInit s) := by
  refine (opReset s).andThen (f := fun t => (Machine.xfer (cmdUnit t.cfg .slpout) t).andThen _) fun t =>
    (xfer _ t).andThen fun u => ?_
  exact (of_ok (s := u) (t := wait .slpout u) rfl rfl rfl).andThen (sendAll _)

/-- Every engine operation is one run that advances (00_scope.md R12). -/
theorem packet {i : Instr} {s : State} {bytes : List Byte} (h : encode s.cfg i = .packet bytes) :
    ∃ r, exec i s = complete r ∧ Advances s r := by
  cases hi : gatedOpcode i with
  | some op =>
    by_cases ho : ∃ deg, i = .setOrient deg
    · obtain ⟨deg, rfl⟩ := ho
      exact ⟨_, rfl, gate _ fun t => sendAll _ t⟩
    · exact drawLaw.gated hi (fun deg hd => ho ⟨deg, hd⟩) s
  | none =>
    cases i <;> simp only [gatedOpcode, encode, reduceCtorEq] at hi h
    case busOpen => exact ⟨.ok _, rfl, .of_ok rfl rfl rfl⟩
    case busClose => exact ⟨.ok _, rfl, .of_ok rfl rfl rfl⟩
    case reset => exact ⟨.ok _, rfl, .opReset s⟩
    case init => exact ⟨_, rfl, opInit s⟩
    case isqrt => exact ⟨.ok _, rfl, .of_ok rfl rfl rfl⟩

end Advances

/-- Settles O11: a unit is one transfer, an engine operation one run with the pc step at its end. -/
theorem pcAndTraceOnlyAdvance : Obligations.PcAndTraceOnlyAdvance := by
  unfold Obligations.PcAndTraceOnlyAdvance
  intro i s
  cases he : encode s.cfg i with
  | unit u =>
    have hx := Advances.xfer u s
    exact ⟨_, exec_unit he, hx.trace, .inl hx.pc, fun _ _ => hx.pc, nofun⟩
  | packet bytes =>
    obtain ⟨r, hr, ha⟩ := Advances.packet he
    rw [hr]
    cases r with
    | ok t =>
      have hpc : t.advancePc.pc = s.pc + 1 := congrArg (· + 1) ha.pc
      exact ⟨_, rfl, ha.trace, .inr hpc, nofun, fun _ _ hf => .inl ⟨hpc, ha.through hf t rfl⟩⟩
    | stop t =>
      refine ⟨_, rfl, ha.trace, .inl ha.pc, nofun, fun _ _ hf => .inr ?_⟩
      rcases ha.stopped hf t rfl with hfault | hhang
      · exact .inl ⟨ha.pc, hfault⟩
      · exact .inr ⟨ha.pc, hhang⟩

end Sys2Proof.Machine
end

section
/-! PROOFS. The invariant of the block on the Controller's side: every unit the Controller receives keeps it, accepted or
not. -/
namespace Sys2Proof.Machine

/-- The part of `BlockInv` that speaks of the Controller. -/
structure CtlInv (cfg : Config) (c : Controller) : Prop where
  memory : Memory.wf c.gram
  decoder : DecoderInv c
  stream : StreamInv c
  phase : PhaseInv cfg c
  window : WindowInv c

@[simp] theorem CtlResult.ctl_ok (c : Controller) : (CtlResult.ok c).ctl = c := rfl

@[simp] theorem CtlResult.ctl_raised (c : Controller) (f : FaultInfo) : (CtlResult.raised c f).ctl = c := rfl

theorem BlockInv.ctlInv {s : State} (h : BlockInv s) : CtlInv s.cfg s.ctl :=
  ⟨h.memory, h.decoder, h.stream, h.phase, h.window⟩

variable {cfg : Config} {c d : Controller}

/-! ### The decoder and the phase -/

theorem decoderInv_of_none (hk : c.cmd = none) : DecoderInv c ↔ c.pbuf = [] ∧ c.hi = none := by
  simp [DecoderInv, hk]

theorem decoderInv_of_ramwr (hk : c.cmd = some .ramwr) : DecoderInv c ↔ c.pbuf = [] := by
  simp [DecoderInv, hk]

theorem decoderInv_of_params {k : Command} (hk : c.cmd = some k) (hr : k ≠ .ramwr) :
    DecoderInv c ↔ 0 < paramCount k ∧ c.pbuf.length ≤ paramCount k ∧ c.hi = none := by
  cases k with
  | ramwr => exact absurd rfl hr
  | swreset | slpout | dispoff | dispon | caset | raset | madctl | colmod => simp [DecoderInv, hk]

/-- With no pixel stream open nothing is asked of the window and the pointer. -/
theorem streamInv_of_ne (hk : c.cmd ≠ some .ramwr) : StreamInv c := fun h => absurd h hk

/-- The phase's part reads four registers alone. -/
theorem PhaseInv.of_same (h : PhaseInv cfg c) (hk : d.cmd = c.cmd) (hp : d.phase = c.phase)
    (hc : d.colmod = c.colmod) (hs : d.settle = c.settle) : PhaseInv cfg d where
  drawing := by rw [hk, hp]; exact h.drawing
  colmodCmd := by rw [hk, hp]; exact h.colmodCmd
  format := by rw [hp, hc]; exact h.format
  holdSleep := by rw [hs, hp]; exact h.holdSleep
  holdReset := by rw [hs, hp]; exact h.holdReset

/-- In phase On, with the pixel format set and no settle hold, every command but COLMOD may be in progress. -/
theorem PhaseInv.of_on (hp : c.phase = .on) (hs : c.settle = none) (hc : c.colmod = some cfg.colmod16)
    (hk : c.cmd ≠ some .colmod) : PhaseInv cfg c where
  drawing _ := hp
  colmodCmd h := absurd h hk
  format _ := hc
  holdSleep h := by simp [hs] at h
  holdReset h := by simp [hs] at h

/-- A Controller with no command in progress. -/
theorem CtlInv.of_idle (hk : c.cmd = none) (hb : c.pbuf = []) (hh : c.hi = none) (hm : Memory.wf c.gram)
    (hw : WindowInv c) (hf : c.phase = .colorModeSet ∨ c.phase = .on → c.colmod = some cfg.colmod16)
    (hs : c.settle = some .slpout → c.phase = .sleepOut)
    (hr : c.settle = some .rst ∨ c.settle = some .swreset → c.phase = .resetting) : CtlInv cfg c where
  memory := hm
  decoder := (decoderInv_of_none hk).2 ⟨hb, hh⟩
  stream := streamInv_of_ne (by simp [hk])
  phase := ⟨by simp [hk], by simp [hk], hf, hs, hr⟩
  window := hw

/-- The reset Controller meets the invariant, under any hold of a reset event (70_reset_and_hazards.md R340). -/
theorem CtlInv.of_reset {k : Option Settle} (hk : k ≠ some .slpout) :
    CtlInv cfg { Controller.powerOn with phase := .resetting, settle := k } :=
  .of_idle rfl rfl rfl Memory.wf_nil ⟨rfl, rfl⟩ (by simp) (fun h => absurd h hk) fun _ => rfl

/-- Lifting the settle hold keeps the invariant (40_bus_transport.md R126). -/
theorem CtlInv.settled (h : CtlInv cfg c) : CtlInv cfg { c with settle := none } where
  memory := h.memory
  decoder := h.decoder
  stream := h.stream
  phase := ⟨h.phase.drawing, h.phase.colmodCmd, h.phase.format, by simp, by simp⟩
  window := h.window

/-- Closing the command keeps the invariant (41_controller_commands.md R146). -/
theorem CtlInv.closed (h : CtlInv cfg c) : CtlInv cfg c.closed :=
  .of_idle rfl rfl rfl h.memory h.window h.phase.format h.phase.holdSleep h.phase.holdReset

/-- A phase step of a closed Controller with no settle hold (41_controller_commands.md R153, R154). -/
theorem CtlInv.setPhase (h : CtlInv cfg c) (hs : c.settle = none) {p : Phase}
    (hc : c.colmod = some cfg.colmod16) : CtlInv cfg { c.closed with phase := p } :=
  .of_idle rfl rfl rfl h.memory h.window (fun _ => hc) (by simp [Controller.closed, hs])
    (by simp [Controller.closed, hs])

/-! ### Command units -/

/-- A command that takes parameters, started in a closed Controller. -/
theorem CtlInv.taking (h : CtlInv cfg c) {k : Command} (hn : 0 < paramCount k)
    (hp : PhaseInv cfg { c.closed with cmd := some k }) : CtlInv cfg { c.closed with cmd := some k } where
  memory := h.memory
  decoder := (decoderInv_of_params (k := k) rfl (by rintro rfl; simp [paramCount] at hn)).2
    ⟨hn, Nat.zero_le _, rfl⟩
  stream := streamInv_of_ne (by simp only [ne_eq, Option.some.injEq]; rintro rfl; simp [paramCount] at hn)
  phase := hp
  window := h.window

/-- At the start of a pixel stream the pointer is at the window's start (41_controller_commands.md R159). -/
theorem streamInv_streamAt {v : Win} (hv : WindowHolds c v) (g : Memory) : StreamInv (c.streamAt v 0 g) := by
  intro _
  obtain ⟨e1, e2, e3, e4⟩ := hv.corner hv.xs hv.xe hv.ys hv.ye
  have hx := hv.inX
  have hy := hv.inY
  have hw := hv.w
  have hh := hv.h
  have hm : min v.y0 (v.y0 + v.h - 1) = v.y0 := by omega
  refine ⟨_, _, _, _, _, _, hv.xs, hv.xe, hv.ys, hv.ye, rfl, rfl, ?_⟩
  simp only [Nat.zero_mod, Nat.zero_div, Nat.add_zero, hm, Controller.streamAt]
  omega

/-- RAMWR keeps the invariant in phase On: it faults on the window, or it starts the stream
(41_controller_commands.md R159). -/
theorem startRamwr_ctlInv (h : CtlInv cfg c) (hs : c.settle = none) (hp : c.phase = .on) :
    CtlInv cfg (startRamwr c.closed).ctl := by
  cases hr : startRamwr c.closed with
  | raised d f =>
    have hd : d = c.closed := by
      unfold startRamwr at hr
      simp only at hr
      repeat' split at hr
      all_goals cases hr
      all_goals rfl
    exact hd ▸ h.closed
  | ok d =>
    obtain ⟨v, hv, rfl⟩ := startRamwr_eq_ok hr
    rw [CtlResult.ctl_ok]
    exact
      { memory := h.memory
        decoder := (decoderInv_of_ramwr rfl).2 rfl
        stream := streamInv_streamAt hv c.gram
        phase := .of_on hp hs (h.phase.format (.inr hp)) (by simp [Controller.streamAt])
        window := h.window }

/-- The start of a command in a phase that admits it keeps the invariant (41_controller_commands.md R149 to R162). -/
theorem startCommand_ctlInv (h : CtlInv cfg c) (hs : c.settle = none) {k : Command} (ha : admits k c.phase = true) :
    CtlInv cfg (startCommand k c.closed).ctl := by
  have onPhase : c.phase = .on → k ≠ .colmod → PhaseInv cfg { c.closed with cmd := some k } := fun hp hk =>
    .of_on hp hs (h.phase.format (.inr hp)) (by simpa using hk)
  cases k with
  | swreset => exact .of_reset (by simp)
  | slpout =>
    exact .of_idle rfl rfl rfl h.memory h.window (by simp [startCommand, startSlpout]) (fun _ => rfl)
      (by simp [startCommand, startSlpout])
  | dispoff =>
    have hp : c.phase = .on := by simpa [admits] using ha
    exact h.setPhase hs (h.phase.format (.inr hp))
  | dispon =>
    have hp : c.phase = .colorModeSet := by simpa [admits] using ha
    exact h.setPhase hs (h.phase.format (.inl hp))
  | colmod =>
    have hp : c.phase = .sleepOut := by simpa [admits] using ha
    exact h.taking (by decide)
      ⟨by simp, fun _ => .inl hp, h.phase.format, h.phase.holdSleep, h.phase.holdReset⟩
  | caset => exact h.taking (by decide) (onPhase (by simpa [admits] using ha) (by simp))
  | raset => exact h.taking (by decide) (onPhase (by simpa [admits] using ha) (by simp))
  | madctl => exact h.taking (by decide) (onPhase (by simpa [admits] using ha) (by simp))
  | ramwr => exact startRamwr_ctlInv h hs (by simpa [admits] using ha)

/-- A command byte keeps the invariant (41_controller_commands.md R144). -/
theorem commandByte_ctlInv (h : CtlInv cfg c) (hs : c.settle = none) (b : Byte) :
    CtlInv cfg (commandByte cfg b c).ctl := by
  unfold commandByte
  rcases closeCommand_cases c with hc | ⟨p, hc⟩
  · simp only [hc]
    split
    · exact h.closed
    · split
      · rename_i ha
        exact startCommand_ctlInv h hs ha
      · exact h.closed
  · simp only [hc]
    exact h

/-! ### Data units -/

/-- Writing the parameter list within its length, while a command takes parameters, keeps the invariant. -/
theorem CtlInv.setPbuf (h : CtlInv cfg c) {k : Command} (hk : c.cmd = some k) (hr : k ≠ .ramwr) {l : List Byte}
    (hl : l.length ≤ paramCount k) : CtlInv cfg { c with pbuf := l } where
  memory := h.memory
  decoder := by
    obtain ⟨hn, -, hh⟩ := (decoderInv_of_params hk hr).1 h.decoder
    exact (decoderInv_of_params (c := { c with pbuf := l }) hk hr).2 ⟨hn, hl, hh⟩
  stream := streamInv_of_ne (by simpa [hk] using hr)
  phase := h.phase.of_same rfl rfl rfl rfl
  window := h.window

/-- A latch keeps the invariant (41_controller_commands.md R152, R157, R158, R162). -/
theorem latch_ctlInv (h : CtlInv cfg c) (hs : c.settle = none) {k : Command} (hk : c.cmd = some k) :
    CtlInv cfg (latch cfg k c).ctl := by
  unfold latch
  split
  · unfold latchColmod
    split
    · rename_i hp
      rw [CtlResult.ctl_ok]
      exact
        { memory := h.memory
          decoder := h.decoder
          stream := streamInv_of_ne (by simp [hk])
          phase := ⟨by simp [hk], fun _ => .inr rfl, fun _ => congrArg some hp, by simp [hs], by simp [hs]⟩
          window := h.window }
    · exact h
  · unfold latchMadctl
    split
    · rw [CtlResult.ctl_ok]
      exact ⟨h.memory, h.decoder, streamInv_of_ne (by simp [hk]), h.phase.of_same rfl rfl rfl rfl, h.window⟩
    · exact h
  · exact ⟨h.memory, h.decoder, streamInv_of_ne (by simp [latchCaset, hk]), h.phase.of_same rfl rfl rfl rfl, rfl,
      h.window.2⟩
  · exact ⟨h.memory, h.decoder, streamInv_of_ne (by simp [latchRaset, hk]), h.phase.of_same rfl rfl rfl rfl,
      h.window.1, rfl⟩
  · exact h

/-- A parameter byte keeps the invariant (41_controller_commands.md R147). -/
theorem paramByte_ctlInv (h : CtlInv cfg c) (hs : c.settle = none) {k : Command} (hk : c.cmd = some k)
    (hr : k ≠ .ramwr) (b : Byte) : CtlInv cfg (paramByte cfg k b c).ctl := by
  obtain ⟨-, hl, -⟩ := (decoderInv_of_params hk hr).1 h.decoder
  unfold paramByte
  simp only
  split
  · exact h
  · have h' := h.setPbuf hk hr (l := c.pbuf ++ [b]) (by simp; omega)
    split
    · exact latch_ctlInv h' hs hk
    · exact h'

/-- Only the waiting high byte of a pixel stream changes. -/
theorem CtlInv.setHi (h : CtlInv cfg c) (hk : c.cmd = some .ramwr) (v : Option Byte) :
    CtlInv cfg { c with hi := v } where
  memory := h.memory
  decoder := (decoderInv_of_ramwr (c := { c with hi := v }) hk).2 ((decoderInv_of_ramwr hk).1 h.decoder)
  stream := h.stream
  phase := h.phase.of_same rfl rfl rfl rfl
  window := h.window

/-- `MemWrite` keeps the invariant (20_memory.md R63, R72). -/
theorem memWrite_ctlInv (h : CtlInv cfg c) (x y : Nat) (col : Color) : CtlInv cfg (memWrite cfg x y col c).ctl := by
  unfold memWrite
  simp only
  split
  · rename_i hin
    obtain ⟨-, -, hx, hy⟩ := hin
    exact ⟨Memory.wf_write _ _ _ h.memory (Memory.key_lt hx hy), h.decoder, h.stream,
      h.phase.of_same rfl rfl rfl rfl, h.window⟩
  · exact h

/-- The pointer of an open stream moves inside the window (20_memory.md R62). -/
theorem advancePointer_ctlInv (h : CtlInv cfg c) (hk : c.cmd = some .ramwr) :
    CtlInv cfg (advancePointer c).ctl := by
  obtain ⟨xs, xe, ys, ye, x, y, hxs, hxe, hys, hye, hx, hy, x0, x1, x2, y0, y1, y2⟩ := h.stream hk
  have moved : ∀ (x' y' : Word) (done : Bool), xs.toNat ≤ x'.toNat → x'.toNat ≤ xe.toNat → ys.toNat ≤ y'.toNat →
      y'.toNat ≤ ye.toNat → CtlInv cfg { c with wpX := some x', wpY := some y', wpDone := done } :=
    fun x' y' _ h1 h2 h3 h4 => ⟨h.memory, h.decoder,
      fun _ => ⟨xs, xe, ys, ye, x', y', hxs, hxe, hys, hye, rfl, rfl, h1, h2, x2, h3, h4, y2⟩,
      h.phase.of_same rfl rfl rfl rfl, h.window⟩
  simp only [advancePointer, hx, hy, hxs, hxe, hye]
  split
  · have hx' : (x + 1).toNat = x.toNat + 1 := by bv_omega
    simpa [hxs, hxe, hye, hy] using moved (x + 1) y c.wpDone (by omega) (by omega) y0 y1
  · split
    · have hy' : (y + 1).toNat = y.toNat + 1 := by bv_omega
      simpa [hxs, hxe, hye] using moved xs (y + 1) c.wpDone (Nat.le_refl _) (Nat.le_trans x0 x1) (by omega) (by omega)
    · simpa [hxs, hxe, hye, hy] using moved xs y true (Nat.le_refl _) (Nat.le_trans x0 x1) y0 y1

/-- A byte of a pixel stream keeps the invariant (41_controller_commands.md R160). -/
theorem pixelByte_ctlInv (h : CtlInv cfg c) (hk : c.cmd = some .ramwr) (b : Byte) :
    CtlInv cfg (pixelByte cfg b c).ctl := by
  unfold pixelByte
  simp only
  split
  · exact h.setHi hk (some b)
  · rename_i hb _
    have h' := h.setHi hk none
    split
    · exact h'
    · split
      · rename_i x y _ _
        have hm := memWrite_ctlInv h' x.toNat y.toNat (be16 hb b)
        rcases memWrite_cases cfg x.toNat y.toNat (be16 hb b) { c with hi := none } with hw | ⟨f, hw⟩
        · rw [hw] at hm ⊢
          exact advancePointer_ctlInv hm hk
        · rw [hw]
          exact h'
      · exact h'

/-- A data byte keeps the invariant (41_controller_commands.md R145). -/
theorem dataByte_ctlInv (h : CtlInv cfg c) (hs : c.settle = none) (b : Byte) : CtlInv cfg (dataByte cfg b c).ctl := by
  unfold dataByte
  split
  case h_1 => exact h
  case h_2 hk => exact paramByte_ctlInv h hs hk (by simp) b
  case h_3 hk => exact paramByte_ctlInv h hs hk (by simp) b
  case h_4 hk => exact paramByte_ctlInv h hs hk (by simp) b
  case h_5 hk => exact paramByte_ctlInv h hs hk (by simp) b
  case h_6 hk => exact pixelByte_ctlInv h hk b
  all_goals exact h

/-- Every unit the Controller receives keeps the invariant, accepted or not (41_controller_commands.md R140). -/
theorem receive_ctlInv (h : CtlInv cfg c) (rst : Level) (u : BusUnit) : CtlInv cfg (receive cfg rst u c).ctl := by
  unfold receive
  split
  · exact h
  · split
    · exact h
    · rename_i hs
      split
      · exact commandByte_ctlInv h hs u.byte
      · exact dataByte_ctlInv h hs u.byte

end Sys2Proof.Machine
end

section
/-! PROOFS. The invariant of the block: every transfer, every raise and every operation keeps it, so every step does;
and it holds at power-on. -/
namespace Sys2Proof.Machine

/-- After a raise a fault is recorded (60_exceptions.md R300). -/
theorem State.raise_isSome (s : State) (f : FaultInfo) : (s.raise f).fault.isSome = true := by
  cases h : s.fault with
  | none => rw [State.raise_fault f h]; rfl
  | some r => rw [State.raise_sticky f h, h]; rfl

/-- After a transfer the flag is up only if a fault or a stall stopped it (40_bus_transport.md R124, R128). -/
theorem xfer_busy (u : BusUnit) (s : State) (hb : (xfer u s).state.busy = true) :
    (xfer u s).state.fault.isSome = true ∨ (xfer u s).state.stall = some 0 := by
  rcases xfer_cases u s with ⟨-, h⟩ | ⟨-, c, f, -, h⟩ | ⟨-, c, -, ⟨-, h⟩ | ⟨hst, h⟩ | ⟨n, -, h⟩⟩ <;> rw [h] at hb ⊢
  · exact .inl (State.raise_isSome s _)
  · exact .inl (State.raise_isSome _ f)
  · cases hb
  · exact .inr hst
  · cases hb

namespace BlockInv

variable {s : State}

/-- The invariant from its part for the Controller and its parts for the Engine. -/
theorem of_ctlInv (hl : Legal s.cfg) (hc : CtlInv s.cfg s.ctl) (hr : s.rst = .inactive)
    (hb : s.busy = true → s.fault.isSome = true ∨ s.stall = some 0) (hf : ∀ r, s.fault = some r → r.opIndex = s.pc) :
    BlockInv s :=
  ⟨hl, hc.memory, hc.decoder, hc.stream, hc.phase, hc.window, hr, hb, hf⟩

theorem raise (h : BlockInv s) (f : FaultInfo) : BlockInv (s.raise f) := by
  have hrec : ∀ r, (s.raise f).fault = some r → r.opIndex = (s.raise f).pc := by
    obtain ⟨q, hq, -, hrec⟩ := s.raise_eq f
    rw [hq]
    exact fun r hr => (hrec r hr).elim (h.fault r) id
  exact .of_ctlInv (by simpa using h.legal) (by simpa using h.ctlInv) (by simpa using h.rst)
    (fun _ => .inl (s.raise_isSome f)) hrec

theorem xfer (h : BlockInv s) (u : BusUnit) : BlockInv (xfer u s).state := by
  have hs := xfer_sent u s
  have hc : CtlInv s.cfg (Machine.xfer u s).state.ctl := by
    rcases hs.ctl with e | e <;> rw [e]
    · exact h.ctlInv
    · exact receive_ctlInv h.ctlInv s.rst u
  refine .of_ctlInv (by rw [hs.cfg]; exact h.legal) (by rw [hs.cfg]; exact hc) (hs.rst.trans h.rst) (xfer_busy u s) ?_
  intro r hr
  rw [hs.pc]
  exact (hs.record r hr).elim (h.fault r) id

/-- Inside an operation the pc stays, whatever the transfers and the raises. -/
theorem stable (n : Nat) : Stable fun s => BlockInv s ∧ s.pc = n where
  xfer u s h := ⟨h.1.xfer u, (xfer_sent u s).pc.trans h.2⟩
  raise f s h := ⟨h.1.raise f, by simpa using h.2⟩

/-- The pc step of an operation that raised no fault (10_state.md R24). -/
theorem advancePc (h : BlockInv s) (hf : s.fault = none) : BlockInv s.advancePc :=
  .of_ctlInv h.legal h.ctlInv h.rst h.busy (by simp [hf])

theorem setBusOpen (h : BlockInv s) (v : Bool) : BlockInv (s.setBusOpen v) :=
  .of_ctlInv h.legal h.ctlInv h.rst h.busy h.fault

theorem setSqrt (h : BlockInv s) (v : Byte) : BlockInv (s.setSqrt v) :=
  .of_ctlInv h.legal h.ctlInv h.rst h.busy h.fault

theorem setHost (h : BlockInv s) (l : List HostAction) : BlockInv (s.setHost l) :=
  .of_ctlInv h.legal h.ctlInv h.rst h.busy h.fault

theorem setBench (h : BlockInv s) (l : List BusUnit) : BlockInv (s.setBench l) :=
  .of_ctlInv h.legal h.ctlInv h.rst h.busy h.fault

theorem logRead (h : BlockInv s) (r : ReadResult) : BlockInv (s.logRead r) :=
  .of_ctlInv h.legal h.ctlInv h.rst h.busy h.fault

theorem wait_slpout (h : BlockInv s) : BlockInv (wait .slpout s) :=
  .of_ctlInv h.legal h.ctlInv.settled h.rst h.busy h.fault

theorem opReset (h : BlockInv s) : BlockInv (opReset s) := by
  rw [opReset_eq]
  exact .of_ctlInv h.legal (.of_reset (k := none) (by simp)) rfl h.busy h.fault

/-! ### Operations -/

/-- Every engine operation is one run, which keeps the invariant and the pc before the pc step. -/
theorem packet (h : BlockInv s) {i : Instr} {bytes : List Byte} (he : encode s.cfg i = .packet bytes) :
    ∃ r, exec i s = complete r ∧ BlockInv r.state ∧ r.state.pc = s.pc := by
  cases hi : gatedOpcode i with
  | some op => exact (stable s.pc).gated hi ⟨h, rfl⟩
  | none =>
    cases i <;> simp only [gatedOpcode, encode, reduceCtorEq] at hi he
    case busOpen => exact ⟨.ok _, rfl, h.setBusOpen true, rfl⟩
    case busClose => exact ⟨.ok _, rfl, h.setBusOpen false, rfl⟩
    case reset => exact ⟨.ok _, rfl, h.opReset, (Advances.opReset s).pc⟩
    case init => exact ⟨_, rfl, (stable s.pc).opInit (fun _ hu => ⟨hu.1.wait_slpout, hu.2⟩)
      ⟨h.opReset, (Advances.opReset s).pc⟩⟩
    case isqrt => exact ⟨.ok _, rfl, h.setSqrt _, rfl⟩

/-- Every instruction keeps the invariant from a state with no fault recorded: the pc steps only when the operation
raised none, so a recorded fault names the operation the pc stands at. -/
theorem exec (h : BlockInv s) (hf : s.fault = none) {i : Instr} {t : State} (ht : exec i s = .next t) :
    BlockInv t := by
  cases he : encode s.cfg i with
  | unit u =>
    rw [exec_unit he, Host.Outcome.next.injEq] at ht
    exact ht ▸ h.xfer u
  | packet bytes =>
    obtain ⟨r, hr, hinv, hpc⟩ := h.packet he
    obtain ⟨t', ht', -, -, -, hend⟩ := pcAndTraceOnlyAdvance i s
    obtain rfl : t' = t := by rw [ht', Host.Outcome.next.injEq] at ht; exact ht
    rcases complete_cases (hr ▸ ht) with ⟨u, rfl, rfl⟩ | rfl
    · have hstep : u.advancePc.pc = s.pc + 1 := congrArg (· + 1) hpc
      rcases hend bytes he hf with ⟨-, hnone⟩ | ⟨hstay, -⟩ | ⟨hstay, -⟩
      · exact hinv.advancePc hnone
      · omega
      · omega
    · exact hinv

end BlockInv

/-! ### Steps -/

/-- What a fetch hands over meets the invariant, and an instruction is run only with no fault recorded. -/
def Fetched.Inv : Fetched → Prop
  | .done s => BlockInv s
  | .run _ s => BlockInv s ∧ s.fault = none

namespace BlockInv

variable {s : State}

theorem fetchPacket (h : BlockInv s) : (fetchPacket s).Inv := by
  unfold Machine.fetchPacket
  split
  · exact h
  · rename_i hf
    split
    · exact h
    · split
      · exact ⟨h, hf⟩
      · exact h.raise _

theorem fetchUnit (h : BlockInv s) (u : BusUnit) : (fetchUnit u s).Inv := by
  unfold Machine.fetchUnit
  split
  · exact h
  · rename_i hf
    split
    · exact ⟨h, hf⟩
    · exact h.xfer u

theorem hostReadSqrt (h : BlockInv s) : BlockInv (hostReadSqrt s) := by
  unfold Machine.hostReadSqrt
  split
  · exact h.logRead _
  · exact h.raise _

theorem fetchHost (h : BlockInv s) : (fetchHost s).Inv := by
  unfold Machine.fetchHost
  split
  · exact h.fetchPacket
  · exact (h.setHost _).fetchPacket
  · exact (h.setHost _).hostReadSqrt
  · exact (h.setHost _).logRead _

theorem fetch (h : BlockInv s) : (fetch s).Inv := by
  unfold Machine.fetch
  split
  · exact h
  · split
    · exact (h.setBench _).fetchUnit _
    · exact h.fetchHost

end BlockInv

/-- Settles O60: a step is a fetch, which keeps the invariant, and at most one instruction, which keeps it too. -/
theorem stepKeepsInv : Obligations.StepKeepsInv := by
  unfold Obligations.StepKeepsInv
  intro s t h ht
  have hfetch := h.fetch
  unfold step at ht
  cases hx : fetch s with
  | done u =>
    simp only [hx, Host.Outcome.next.injEq] at ht hfetch
    exact ht ▸ hfetch
  | run i u =>
    simp only [hx] at ht hfetch
    obtain ⟨hu, hf⟩ := hfetch
    exact hu.exec hf ht

/-- Settles O59: at power-on no command is in progress, the flag is down and the parameters are the legal defaults. -/
theorem invAtPowerOn : Obligations.InvAtPowerOn := by
  unfold Obligations.InvAtPowerOn
  exact .of_ctlInv Config.default_legal
    (.of_idle rfl rfl rfl State.reset_memory_wf ⟨rfl, rfl⟩ (by simp [State.reset, Controller.powerOn]) nofun
      (by simp [State.reset, Controller.powerOn])) rfl nofun nofun

end Sys2Proof.Machine
end

section
/-! PROOFS. Every instruction decodes from its own encoding. -/
namespace Sys2Proof.Laws.RoundTrip

/-- The round trip of every instruction, from the lemma of its constructor. -/
theorem all : ∀ i : Instr, Statement i
  | .busOpen => busOpen
  | .busClose => busClose
  | .reset => reset
  | .init => init
  | .setOrient deg => setOrient deg
  | .setWindow x0 y0 x1 y1 => setWindow x0 y0 x1 y1
  | .writePixels c n => writePixels c n
  | .isqrt v => isqrt v
  | .pixel x y c => pixel x y c
  | .hline x y len c => hline x y len c
  | .vline x y len c => vline x y len c
  | .line x0 y0 x1 y1 c => line x0 y0 x1 y1 c
  | .rect x0 y0 x1 y1 c => rect x0 y0 x1 y1 c
  | .fillRect x0 y0 x1 y1 c => fillRect x0 y0 x1 y1 c
  | .clear => clear
  | .circleQuad cx cy r m c => circleQuad cx cy r m c
  | .circle cx cy r c => circle cx cy r c
  | .roundRect x0 y0 x1 y1 r c => roundRect x0 y0 x1 y1 r c
  | .filledCircle cx cy r c => filledCircle cx cy r c
  | .ellipse cx cy w h c => ellipse cx cy w h c
  | .filledEllipse cx cy w h c => filledEllipse cx cy w h c
  | .cSwreset => cSwreset
  | .cSlpout => cSlpout
  | .cDispoff => cDispoff
  | .cDispon => cDispon
  | .cCaset => cCaset
  | .cRaset => cRaset
  | .cRamwr => cRamwr
  | .cMadctl => cMadctl
  | .cColmod => cColmod
  | .data b => data b

end Sys2Proof.Laws.RoundTrip

namespace Sys2Proof.Machine

/-- A well-formed instruction that is encoded as a packet decodes from it, with nothing left. -/
theorem decodePacket_encode {cfg : Config} {i : Instr} {bytes : List Byte} (hc : cfg.opcsDistinct = true)
    (hw : i.wf = true) (he : encode cfg i = .packet bytes) : decodePacket bytes = .ok (i, []) := by
  simpa using (Laws.RoundTrip.all i cfg hc hw).2 bytes [] he

/-- A well-formed instruction that is encoded as a unit decodes from it. -/
theorem decodeUnit_encode {cfg : Config} {i : Instr} {u : BusUnit} (hc : cfg.opcsDistinct = true)
    (hw : i.wf = true) (he : encode cfg i = .unit u) : decodeUnit cfg u = .ok i := by
  simpa [he, decode] using (Laws.RoundTrip.all i cfg hc hw).1

end Sys2Proof.Machine
end

section
/-! PROOFS. What everything an instruction is made of keeps, every instruction keeps. -/
namespace Sys2Proof.Machine

/-- A property that everything an instruction is made of keeps: the transfers and the raises, the register writes, the
reset steps, the wait of INIT and the pc step. -/
structure Kept (P : State → Prop) : Prop extends Stable P where
  advancePc : ∀ s, P s → P s.advancePc
  setBusOpen : ∀ v s, P s → P (s.setBusOpen v)
  setSqrt : ∀ v s, P s → P (s.setSqrt v)
  opReset : ∀ s, P s → P (opReset s)
  settled : ∀ s, P s → P (wait .slpout s)

namespace Kept

variable {P : State → Prop} (h : Kept P) {i : Instr} {s t : State}
include h

/-- Every engine operation is one run, which keeps the property. -/
theorem packet {bytes : List Byte} (he : encode s.cfg i = .packet bytes) (hs : P s) :
    ∃ r, exec i s = complete r ∧ P r.state := by
  cases hi : gatedOpcode i with
  | some op => exact h.gated hi hs
  | none =>
    cases i <;> simp only [gatedOpcode, encode, reduceCtorEq] at hi he
    case busOpen => exact ⟨.ok _, rfl, h.setBusOpen true s hs⟩
    case busClose => exact ⟨.ok _, rfl, h.setBusOpen false s hs⟩
    case reset => exact ⟨.ok _, rfl, h.opReset s hs⟩
    case init => exact ⟨_, rfl, h.opInit h.settled (h.opReset s hs)⟩
    case isqrt => exact ⟨.ok _, rfl, h.setSqrt _ s hs⟩

/-- Every instruction keeps the property: a unit is one transfer, an engine operation a run and perhaps the pc step. -/
theorem exec (hs : P s) (ht : exec i s = .next t) : P t := by
  cases he : encode s.cfg i with
  | unit u =>
    rw [exec_unit he, Host.Outcome.next.injEq] at ht
    exact ht ▸ h.xfer u s hs
  | packet bytes =>
    obtain ⟨r, hr, hp⟩ := h.packet he hs
    rcases complete_cases (hr ▸ ht) with ⟨u, rfl, rfl⟩ | rfl
    · exact h.advancePc u hp
    · exact hp

end Kept

/-- A recorded fault is kept (10_state.md R39). -/
theorem kept_fault (r : FaultRecord) : Kept fun s => s.fault = some r where
  xfer u s := (xfer_sent u s).fault r
  raise f s h := by rw [State.raise_sticky f h, h]
  advancePc _ h := h
  setBusOpen _ _ h := h
  setSqrt _ _ h := h
  opReset s h := by rw [opReset_eq, h]
  settled _ h := h

/-- The bench is kept: no instruction takes a unit from it or puts one there (log entry 9). -/
theorem kept_bench (l : List BusUnit) : Kept fun s => s.bench = l where
  xfer u s h := (xfer_sent u s).bench.trans h
  raise f s h := by simpa using h
  advancePc _ h := h
  setBusOpen _ _ h := h
  setSqrt _ _ h := h
  opReset s h := by rw [opReset_eq, h]
  settled _ h := h

end Sys2Proof.Machine
end

section
/-! PROOFS. The step: what it fetches, case by case; what a step that runs no instruction leaves; and which steps run
one. -/
namespace Sys2Proof.Machine

variable {s u : State} {i : Instr}

/-! ### What is fetched -/

theorem step_of_done (h : fetch s = .done u) : step s = .next u := by rw [step, h]

theorem step_of_run (h : fetch s = .run i u) : step s = exec i u := by rw [step, h]

theorem fetch_hung (h : s.hung = true) : fetch s = .done s := by rw [fetch, if_pos h]

theorem fetch_bench {v : BusUnit} {rest : List BusUnit} (hh : s.hung = false) (hb : s.bench = v :: rest) :
    fetch s = fetchUnit v (s.setBench rest) := by
  simp [fetch, hh, hb]

theorem fetch_noBench (hh : s.hung = false) (hb : s.bench = []) : fetch s = fetchHost s := by
  simp [fetch, hh, hb]

theorem fetchHost_noAction (h : s.host = []) : fetchHost s = fetchPacket s := by simp [fetchHost, h]

section
variable {rest : List HostAction}

theorem fetchHost_submit (h : s.host = .submit :: rest) : fetchHost s = fetchPacket (s.setHost rest) := by
  simp [fetchHost, h]

theorem fetchHost_readSqrt (h : s.host = .readSqrt :: rest) : fetchHost s = .done (hostReadSqrt (s.setHost rest)) := by
  simp [fetchHost, h]

theorem fetchHost_readFault (h : s.host = .readFault :: rest) :
    fetchHost s = .done (hostReadFault (s.setHost rest)) := by
  simp [fetchHost, h]

end

theorem fetchPacket_faulted {r : FaultRecord} (h : s.fault = some r) : fetchPacket s = .done s := by
  simp [fetchPacket, h]

theorem fetchUnit_faulted {r : FaultRecord} (v : BusUnit) (h : s.fault = some r) : fetchUnit v s = .done s := by
  simp [fetchUnit, h]

theorem fetchPacket_decoded {bytes r : List Byte} (hf : s.fault = none) (ho : s.ops[s.pc]? = some bytes)
    (hd : decodePacket bytes = .ok (i, r)) : fetchPacket s = .run i s := by
  simp [fetchPacket, hf, ho, hd]

theorem fetchUnit_decoded {v : BusUnit} (hf : s.fault = none) (hd : decodeUnit s.cfg v = .ok i) :
    fetchUnit v s = .run i s := by
  simp [fetchUnit, hf, hd]

theorem hostReadSqrt_set {v : Byte} (h : s.sqrt = some v) : hostReadSqrt s = s.logRead (.sqrt v) := by
  simp [hostReadSqrt, h]

theorem hostReadSqrt_unset (h : s.sqrt = none) : hostReadSqrt s = s.raise (.unsetRead .sqrt) := by
  simp [hostReadSqrt, h]

/-! ### Steps that run no instruction -/

/-- What a step that runs no instruction leaves: the Engine's registers that no transfer writes, the Controller and T, a
recorded fault, and the bench but for units taken from it. -/
structure Untouched (s t : State) : Prop where
  pc : t.pc = s.pc
  ctl : t.ctl = s.ctl
  trace : t.trace = s.trace
  sqrt : t.sqrt = s.sqrt
  busOpen : t.busOpen = s.busOpen
  rst : t.rst = s.rst
  fault : ∀ r, s.fault = some r → t.fault = some r
  bench : t.bench <:+ s.bench

namespace Untouched

theorem refl (s : State) : Untouched s s := ⟨rfl, rfl, rfl, rfl, rfl, rfl, fun _ h => h, List.suffix_rfl⟩

/-- A Host action that is used up first changes none of these. -/
theorem setHost {l : List HostAction} (h : Untouched (s.setHost l) u) : Untouched s u :=
  ⟨h.pc, h.ctl, h.trace, h.sqrt, h.busOpen, h.rst, h.fault, h.bench⟩

/-- The bench's first unit is used up. -/
theorem setBench {v : BusUnit} {l : List BusUnit} (hb : s.bench = v :: l) : Untouched s (s.setBench l) :=
  ⟨rfl, rfl, rfl, rfl, rfl, rfl, fun _ h => h, hb ▸ List.suffix_cons v l⟩

theorem logRead (s : State) (r : ReadResult) : Untouched s (s.logRead r) :=
  ⟨rfl, rfl, rfl, rfl, rfl, rfl, fun _ h => h, List.suffix_rfl⟩

theorem raise (s : State) (f : FaultInfo) : Untouched s (s.raise f) := by
  obtain ⟨r, hr, hkeep, -⟩ := s.raise_eq f
  rw [hr]
  exact ⟨rfl, rfl, rfl, rfl, rfl, rfl, hkeep, List.suffix_rfl⟩

theorem hostReadSqrt (s : State) : Untouched s (hostReadSqrt s) := by
  unfold Machine.hostReadSqrt
  split
  · exact logRead s _
  · exact raise s _

end Untouched

/-- The Engine takes no packet: a fault is recorded, the stream has ended, or the packet is illegal; or it takes the
packet at the pc, with no fault recorded (10_state.md R24, R39, 30_encoding.md R104). -/
theorem fetchPacket_cases (s : State) :
    (∃ u, fetchPacket s = .done u ∧ Untouched s u) ∨
    (s.fault = none ∧ ∃ bytes i r, s.ops[s.pc]? = some bytes ∧ decodePacket bytes = .ok (i, r) ∧
      fetchPacket s = .run i s) := by
  cases hf : s.fault with
  | some r => exact .inl ⟨s, fetchPacket_faulted hf, .refl s⟩
  | none =>
    cases ho : s.ops[s.pc]? with
    | none => exact .inl ⟨s, by simp [fetchPacket, hf, ho], .refl s⟩
    | some bytes =>
      cases hd : decodePacket bytes with
      | error e => exact .inl ⟨_, by simp [fetchPacket, hf, ho, hd], .raise s (.illegalOp bytes)⟩
      | ok d => exact .inr ⟨rfl, bytes, d.1, d.2, rfl, hd, fetchPacket_decoded hf ho hd⟩

/-- The Host submits an operation that the Engine runs, or it does nothing to the block but a read or a raise
(10_state.md R21). -/
theorem fetchHost_cases (s : State) :
    (∃ u, fetchHost s = .done u ∧ Untouched s u) ∨
    (s.fault = none ∧ (s.host = [] ∨ ∃ rest, s.host = .submit :: rest) ∧
      ∃ bytes i r, s.ops[s.pc]? = some bytes ∧ decodePacket bytes = .ok (i, r) ∧
        fetchHost s = .run i (s.setHost s.host.tail)) := by
  cases hh : s.host with
  | nil =>
    have hself : s.setHost [] = s := by rw [← hh]; rfl
    rw [fetchHost_noAction hh, List.tail_nil, hself]
    exact (fetchPacket_cases s).imp_right fun ⟨hf, hrun⟩ => ⟨hf, .inl rfl, hrun⟩
  | cons a rest =>
    cases a with
    | submit =>
      rw [fetchHost_submit hh]
      exact (fetchPacket_cases (s.setHost rest)).imp (fun ⟨u, hu, h⟩ => ⟨u, hu, h.setHost⟩)
        fun ⟨hf, hrun⟩ => ⟨hf, .inr ⟨rest, rfl⟩, hrun⟩
    | readSqrt => exact .inl ⟨_, fetchHost_readSqrt hh, (Untouched.hostReadSqrt (s.setHost rest)).setHost⟩
    | readFault => exact .inl ⟨_, fetchHost_readFault hh, (Untouched.logRead (s.setHost rest) _).setHost⟩

/-- With a fault recorded nothing is run, from the Host or from the bench (10_state.md R39). -/
theorem fetch_faulted {r : FaultRecord} (hf : s.fault = some r) : ∃ u, fetch s = .done u ∧ Untouched s u := by
  have hh : s.hung = false := by simp [State.hung, hf]
  cases hb : s.bench with
  | cons v rest => exact ⟨_, (fetch_bench hh hb).trans (fetchUnit_faulted v hf), .setBench hb⟩
  | nil =>
    rcases fetchHost_cases s with ⟨u, hu, h⟩ | ⟨hnone, -⟩
    · exact ⟨u, (fetch_noBench hh hb).trans hu, h⟩
    · cases hf.symm.trans hnone

/-! ### Which steps run an instruction -/

/-- Without a bench a step is the Host's: it runs the packet at the pc, accepted with no fault recorded, or it runs no
instruction (10_state.md R20, R21). -/
theorem step_noBench_cases (hb : s.bench = []) :
    (∃ u, step s = .next u ∧ Untouched s u) ∨
    (s.fault = none ∧ (s.host = [] ∨ ∃ rest, s.host = .submit :: rest) ∧
      ∃ bytes i r, s.ops[s.pc]? = some bytes ∧ decodePacket bytes = .ok (i, r) ∧
        step s = exec i (s.setHost s.host.tail)) := by
  cases hh : s.hung with
  | true => exact .inl ⟨s, step_of_done (fetch_hung hh), .refl s⟩
  | false =>
    have hfetch : fetch s = fetchHost s := fetch_noBench hh hb
    rcases fetchHost_cases s with ⟨u, hu, h⟩ | ⟨hf, hhost, bytes, i, r, ho, hd, hrun⟩
    · exact .inl ⟨u, step_of_done (hfetch.trans hu), h⟩
    · exact .inr ⟨hf, hhost, bytes, i, r, ho, hd, step_of_run (hfetch.trans hrun)⟩

/-- A packet that the Host submits, or that stands at the pc of a Host with no action pending, is run. -/
theorem step_packet {bytes r : List Byte} (hh : s.hung = false) (hf : s.fault = none) (hb : s.bench = [])
    (ho : s.ops[s.pc]? = some bytes) (hd : decodePacket bytes = .ok (i, r)) :
    (s.host = [] → step s = exec i s) ∧ ∀ rest, s.host = .submit :: rest → step s = exec i (s.setHost rest) := by
  refine ⟨fun h => step_of_run ?_, fun rest h => step_of_run ?_⟩
  · rw [fetch_noBench hh hb, fetchHost_noAction h]
    exact fetchPacket_decoded hf ho hd
  · rw [fetch_noBench hh hb, fetchHost_submit h]
    exact fetchPacket_decoded (s := s.setHost rest) hf ho hd

/-- A unit of the bench is run. -/
theorem step_unit {v : BusUnit} {rest : List BusUnit} (hh : s.hung = false) (hf : s.fault = none)
    (hb : s.bench = v :: rest) (hd : decodeUnit s.cfg v = .ok i) : step s = exec i (s.setBench rest) :=
  step_of_run ((fetch_bench hh hb).trans (fetchUnit_decoded (s := s.setBench rest) hf hd))

/-! ### Placing an encoding -/

theorem getElem?_placeAt_same (p : List Byte) (k : Nat) (l : List (List Byte)) : (placeAt p k l)[k]? = some p := by
  induction k generalizing l with
  | zero => cases l <;> rfl
  | succ k ih => cases l <;> exact ih _

theorem getElem?_placeAt_other (p : List Byte) {j k : Nat} {l : List (List Byte)} (hj : j < l.length) (hjk : j ≠ k) :
    (placeAt p k l)[j]? = l[j]? := by
  induction l generalizing j k with
  | nil => cases hj
  | cons q l ih =>
    cases k with
    | zero =>
      obtain ⟨j, rfl⟩ := Nat.exists_eq_succ_of_ne_zero hjk
      rfl
    | succ k =>
      cases j with
      | zero => rfl
      | succ j => exact ih (Nat.lt_of_succ_lt_succ hj) (fun h => hjk (congrArg _ h))

/-- A packet placed at the pc is the one the next step submits, and the Host's own actions stay behind it. -/
theorem step_place_packet {bytes r : List Byte} (hh : s.hung = false) (hf : s.fault = none)
    (hd : decodePacket bytes = .ok (i, r)) :
    step (s.place (.packet bytes)) = exec i ((s.place (.packet bytes)).setHost s.host) := by
  have hrun := step_packet (s := s.place (.packet bytes)) hh hf rfl (getElem?_placeAt_same bytes s.pc s.ops) hd
  cases h : s.host with
  | nil =>
    have hnil : (s.place (.packet bytes)).host = [] := by simp [State.place, h]
    rw [hrun.1 hnil, ← hnil]
    rfl
  | cons a rest => exact hrun.2 (a :: rest) (by simp [State.place, h])

/-- A unit placed on the bench is the one the next step runs, from the state without it. -/
theorem step_place_unit {v : BusUnit} (hh : s.hung = false) (hf : s.fault = none) (hd : decodeUnit s.cfg v = .ok i) :
    step (s.place (.unit v)) = exec i s :=
  step_unit (s := s.place (.unit v)) hh hf rfl hd

/-- Placing an encoding leaves every other packet of the Host's stream. -/
theorem getElem?_place_ops (e : Encoded) {k : Nat} (hk : k < s.ops.length) (hpc : k ≠ s.pc) :
    (s.place e).ops[k]? = s.ops[k]? := by
  cases e with
  | packet bytes => exact getElem?_placeAt_other bytes hk hpc
  | unit v => rfl

end Sys2Proof.Machine
end

section
/-! PROOFS. The obligations about the step, the Host and the fault record. -/
namespace Sys2Proof.Machine

/-- Settles O6: the placed encoding decodes to the instruction, and the step fetches it. -/
theorem stepRunsPlacedInstruction : Obligations.StepRunsPlacedInstruction := by
  unfold Obligations.StepRunsPlacedInstruction
  intro s i hh hf hc hw
  exact ⟨fun bytes he => step_place_packet hh hf (decodePacket_encode hc hw he),
    fun u he => step_place_unit hh hf (decodeUnit_encode hc hw he), fun k hk hpc => getElem?_place_ops _ hk hpc⟩

/-- Settles O7: without a bench a step is the Host's; it runs the packet at the pc or leaves T and the Controller. -/
theorem hostPlacesNoUnit : Obligations.HostPlacesNoUnit := by
  unfold Obligations.HostPlacesNoUnit
  refine ⟨fun a => by cases a <;> simp, rfl, fun s t hb ht => ?_⟩
  rcases step_noBench_cases hb with ⟨u, hu, h⟩ | ⟨hf, hhost, bytes, i, r, ho, hd, hrun⟩
  · obtain rfl : u = t := by simpa [hu] using ht
    exact ⟨List.suffix_nil.1 (hb ▸ h.bench), fun hchange => by simp [h.trace, h.ctl] at hchange⟩
  · exact ⟨(kept_bench []).exec (s := s.setHost s.host.tail) hb (hrun ▸ ht),
      fun _ => ⟨hf, hhost, bytes, i, r, ho, hd, hrun⟩⟩

/-- Settles O8: every instruction keeps a recorded fault, and with one recorded a step runs none. -/
theorem recordedFaultIsFinal : Obligations.RecordedFaultIsFinal := by
  unfold Obligations.RecordedFaultIsFinal
  refine ⟨rfl, fun i s t r hf ht => (kept_fault r).exec hf ht, fun s t r hf ht => ?_⟩
  obtain ⟨u, hu, h⟩ := fetch_faulted hf
  rw [step_of_done hu, Host.Outcome.next.injEq] at ht
  subst ht
  exact ⟨h.fault r hf, h.pc, h.ctl, h.trace, h.sqrt, h.busOpen, h.rst⟩

/-- Settles O5: a submitted packet and a bench unit are each fetched and run. -/
theorem stepRunsDecodedInstruction : Obligations.StepRunsDecodedInstruction := by
  unfold Obligations.StepRunsDecodedInstruction
  intro s i hh hf
  exact ⟨fun bytes r hb ho hd => step_packet hh hf hb ho hd, fun u rest hb hd => step_unit hh hf hb hd⟩

/-- Settles O10: a Host action that reads is the whole step. -/
theorem hostReads : Obligations.HostReads := by
  unfold Obligations.HostReads
  intro s rest hh hb
  refine ⟨fun v h hv => step_of_done ?_, fun h hv hf => step_of_done ?_, fun h => step_of_done ?_⟩
  · rw [fetch_noBench hh hb, fetchHost_readSqrt h, hostReadSqrt_set (s := s.setHost rest) hv]
    rfl
  · rw [fetch_noBench hh hb, fetchHost_readSqrt h, hostReadSqrt_unset (s := s.setHost rest) hv,
      State.raise_fault (s := s.setHost rest) _ hf]
    rfl
  · rw [fetch_noBench hh hb, fetchHost_readFault h]
    rfl

end Sys2Proof.Machine
end

section
/-! PROOFS. A unit over a link that is up, a parameter byte as an instruction, and the obligation about the parameters'
latches. -/
namespace Sys2Proof.Machine

variable {s : State} {i : Instr} {b : Byte} {k : Command} {c : Controller}

/-- A bus unit that the Controller accepts over a link that is up completes its transfer (40_bus_transport.md R124). -/
theorem exec_unit_linkUp {u : BusUnit} (hl : LinkUp s) (he : encode s.cfg i = .unit u)
    (hr : receive s.cfg .inactive u s.ctl = .ok c) : exec i s = .next ((s.carry u).setCtl c) := by
  rw [exec_unit he, xfer_ok hl.busOpen hl.stall (hl.rst.symm ▸ hr), Run.state_ok]

/-- A parameter byte before the last, as an instruction (41_controller_commands.md R147). -/
theorem exec_data_param_more (hl : LinkUp s) (hk : s.ctl.cmd = some k) (hn : s.ctl.pbuf.length + 1 < paramCount k) :
    exec (.data b) s = .next ((s.carry ⟨.data, b⟩).setCtl { s.ctl with pbuf := s.ctl.pbuf ++ [b] }) :=
  exec_unit_linkUp hl rfl ((receive_param hl.settle hk (by omega)).trans (paramByte_more hn))

/-- The last parameter byte, as an instruction, where the latch goes through (41_controller_commands.md R147). -/
theorem exec_data_param_last {ps : List Byte} (hl : LinkUp s) (hk : s.ctl.cmd = some k) (hp : s.ctl.pbuf = ps)
    (hn : ps.length + 1 = paramCount k) (hlatch : latch s.cfg k { s.ctl with pbuf := ps ++ [b] } = .ok c) :
    exec (.data b) s = .next ((s.carry ⟨.data, b⟩).setCtl c) := by
  subst hp
  exact exec_unit_linkUp hl rfl
    ((receive_param hl.settle hk (by omega)).trans ((paramByte_last hn).trans hlatch))

/-- COLMOD latches `COLMOD_16` and the phase becomes ColorModeSet (41_controller_commands.md R152). -/
theorem latchColmod_colmod16 {cfg : Config} (h : b = cfg.colmod16) :
    latchColmod cfg b c = .ok { c with colmod := some b, phase := .colorModeSet } :=
  if_pos h

/-- MADCTL latches the orientation of a code (41_controller_commands.md R158). -/
theorem latchMadctl_orientCodeOf {cfg : Config} (h : cfg.orientCodesDistinct = true) (o : Orient) :
    latchMadctl cfg (orientCodeOf cfg o) c = .ok { c with orient := o } := by
  rw [latchMadctl, orientOf_orientCodeOf h]

/-- Settles O23: a byte before the last is collected, and the last one goes to its command's latch. -/
theorem parameterBytes : Obligations.ParameterBytes := by
  unfold Obligations.ParameterBytes
  intro s b hl
  refine ⟨fun hk hn => ?_, fun p0 p1 p2 hk hp => ?_, fun p0 p1 p2 hk hp => ?_, fun hk hp hb => ?_,
    fun o hk hp hc hb => ?_⟩
  · have hn4 : s.ctl.pbuf.length + 1 < 4 := Nat.succ_lt_succ hn
    exact hk.elim (exec_data_param_more hl · hn4) (exec_data_param_more hl · hn4)
  · exact exec_data_param_last hl hk hp rfl rfl
  · exact exec_data_param_last hl hk hp rfl rfl
  · exact exec_data_param_last hl hk hp rfl (latchColmod_colmod16 hb)
  · subst hb
    exact exec_data_param_last hl hk hp rfl (latchMadctl_orientCodeOf hc o)

end Sys2Proof.Machine
end

section
/-! PROOFS. What decodes is an encoding, and what does not decode raises `IllegalOp`: the obligations about the
encoding. -/
namespace Sys2Proof.Machine

/-- Settles O2: the round trip of each constructor. -/
theorem decodeOfEncode : Obligations.DecodeOfEncode := by
  unfold Obligations.DecodeOfEncode
  exact Laws.RoundTrip.all

/-! ### What decodes -/

/-- The fields that decode are those the encoder writes after the opcode, as many as the format has, and what follows
them comes back unread (30_encoding.md R100, R101, R103). -/
theorem encode_of_decodeFields (cfg : Config) {k : Op} {fields rest : List Byte} {i : Instr}
    (h : decodeFields k fields = .ok (i, rest)) :
    i.wf = true ∧ ∃ fs, encode cfg i = .packet (k.code :: fs) ∧ fs.length + 1 = k.length ∧ fields = fs ++ rest := by
  unfold decodeFields at h
  split at h
  -- CIRCLE_QUAD, whose mask is checked
  case h_16 =>
    split at h
    · rename_i hm
      cases h
      exact ⟨decide_eq_true hm, _, rfl, rfl, by simp⟩
    · cases h
  -- a short packet
  case h_22 => cases h
  all_goals
    cases h
    exact ⟨rfl, _, rfl, rfl, by simp⟩

/-- A packet that decodes starts with the encoding of its instruction (30_encoding.md R100, R104). -/
theorem encode_of_decodePacket (cfg : Config) {bytes rest : List Byte} {i : Instr}
    (h : decodePacket bytes = .ok (i, rest)) :
    i.wf = true ∧ ∃ packet, encode cfg i = .packet packet ∧ bytes = packet ++ rest := by
  cases bytes with
  | nil => cases h
  | cons op fields =>
    rw [decodePacket] at h
    cases hk : opOf op with
    | none => rw [hk] at h; cases h
    | some k =>
      rw [hk] at h
      obtain ⟨hw, fs, he, -, rfl⟩ := encode_of_decodeFields cfg h
      exact ⟨hw, _, he, by rw [code_of_opOf hk, List.cons_append]⟩

/-- A command's instruction is encoded as the command's unit (30_encoding.md R91). -/
theorem encode_instr (cfg : Config) (k : Command) : encode cfg k.instr = .unit ⟨.cmd, opcOf cfg k⟩ := by
  cases k <;> rfl

theorem wf_instr (k : Command) : k.instr.wf = true := by cases k <;> rfl

/-- A unit that decodes is the encoding of its instruction (30_encoding.md R90, R92). -/
theorem encode_of_decodeUnit {cfg : Config} {u : BusUnit} {i : Instr} (h : decodeUnit cfg u = .ok i) :
    i.wf = true ∧ encode cfg i = .unit u := by
  obtain ⟨dc, b⟩ := u
  cases dc with
  | data => cases h; exact ⟨rfl, rfl⟩
  | cmd =>
    simp only [decodeUnit] at h
    cases hk : commandOf cfg b with
    | none => rw [hk] at h; cases h
    | some k =>
      rw [hk] at h
      cases h
      exact ⟨wf_instr k, by rw [encode_instr, opcOf_of_commandOf hk]⟩

/-- Settles O3: the fields that decode are the encoder's, and the opcode and the command byte are read back. -/
theorem encodeOfDecode : Obligations.EncodeOfDecode := by
  unfold Obligations.EncodeOfDecode
  exact ⟨fun cfg _ _ _ => encode_of_decodePacket cfg, fun _ _ _ => encode_of_decodeUnit⟩

/-! ### What does not decode -/

/-- No operation has an opcode in the gaps of the map (30_encoding.md R102, R104 item 1). -/
theorem opOf_unassigned {op : Byte}
    (h : op.toNat = 0 ∨ (0x09 ≤ op.toNat ∧ op.toNat ≤ 0x0F) ∨ (0x17 ≤ op.toNat ∧ op.toNat ≤ 0x1F) ∨
      0x26 ≤ op.toNat) : opOf op = none := by
  cases hk : opOf op with
  | none => rfl
  | some k =>
    rw [← code_of_opOf hk] at h
    cases k <;> simp [Op.code] at h

/-- A packet with an unassigned opcode does not decode (30_encoding.md R104 item 1). -/
theorem decodePacket_unassigned {op : Byte} (h : opOf op = none) (fields : List Byte) :
    decodePacket (op :: fields) = .error (.unknownOpcode op) := by
  simp [decodePacket, h]

/-- A packet shorter than its opcode's format does not decode (30_encoding.md R104 item 2). -/
theorem decodePacket_short {k : Op} {fields : List Byte} (h : (k.code :: fields).length < k.length) :
    ∃ e, decodePacket (k.code :: fields) = .error e := by
  rw [Laws.RoundTrip.decodePacket_code]
  cases hd : decodeFields k fields with
  | error e => exact ⟨e, rfl⟩
  | ok d =>
    obtain ⟨-, fs, -, hlen, rfl⟩ := encode_of_decodeFields Config.default (i := d.1) (rest := d.2) hd
    simp only [List.length_cons, List.length_append] at h
    omega

/-- A CIRCLE_QUAD packet with reserved mask bits set does not decode, whether or not its colour is there
(30_encoding.md R103, R104 item 3). -/
theorem decodePacket_reservedMask (cx cy r : Byte) {m : Byte} (hm : 16 ≤ m.toNat) (fields : List Byte) :
    ∃ e, decodePacket (0x20 :: cx :: cy :: r :: m :: fields) = .error e := by
  rw [show (0x20 : Byte) = Op.code .circleQuad from rfl, Laws.RoundTrip.decodePacket_code]
  match fields with
  | [] | [_] => exact ⟨_, rfl⟩
  | h :: l :: rest => exact ⟨_, if_neg (Nat.not_lt.2 hm)⟩

/-- The Engine refuses a packet that does not decode (30_encoding.md R104, 60_exceptions.md R300). -/
theorem fetchPacket_illegal {s : State} {bytes : List Byte} {e : DecodeError} (hf : s.fault = none)
    (ho : s.ops[s.pc]? = some bytes) (hd : decodePacket bytes = .error e) :
    fetchPacket s = .done { s with fault := some ⟨.illegalOp bytes, s.pc⟩ } := by
  simp [fetchPacket, hf, ho, hd, State.raise]

/-- A step that submits a packet which does not decode raises `IllegalOp` and uses up the submission. -/
theorem step_illegal {s : State} {bytes : List Byte} {e : DecodeError} (hh : s.hung = false) (hf : s.fault = none)
    (hb : s.bench = []) (ho : s.ops[s.pc]? = some bytes) (hd : decodePacket bytes = .error e) :
    (s.host = [] → step s = .next { s with fault := some ⟨.illegalOp bytes, s.pc⟩ }) ∧
      ∀ rest, s.host = .submit :: rest →
        step s = .next { s with host := rest, fault := some ⟨.illegalOp bytes, s.pc⟩ } := by
  refine ⟨fun h => step_of_done ?_, fun rest h => step_of_done ?_⟩
  · rw [fetch_noBench hh hb, fetchHost_noAction h]
    exact fetchPacket_illegal hf ho hd
  · rw [fetch_noBench hh hb, fetchHost_submit h]
    exact fetchPacket_illegal (s := s.setHost rest) hf ho hd

/-- Settles O4: each of the three kinds does not decode, and such a packet is refused by the step that submits it. -/
theorem illegalPacketsRaiseIllegalOp : Obligations.IllegalPacketsRaiseIllegalOp := by
  unfold Obligations.IllegalPacketsRaiseIllegalOp
  intro s bytes hh hf hb ho hkind
  have hd : ∃ e, decodePacket bytes = .error e := by
    rcases hkind with ⟨op, fields, rfl, hop⟩ | ⟨k, fields, rfl, hlen⟩ | ⟨cx, cy, r, m, fields, rfl, hm⟩
    · exact ⟨_, decodePacket_unassigned (opOf_unassigned hop) fields⟩
    · exact decodePacket_short hlen
    · exact decodePacket_reservedMask cx cy r hm fields
  obtain ⟨e, hd⟩ := hd
  exact step_illegal hh hf hb ho hd

/-- Settles O1: the decoder is run on the nine words. -/
theorem sampleWordsDecode : Obligations.SampleWordsDecode := by
  unfold Obligations.SampleWordsDecode
  and_intros <;> rfl

end Sys2Proof.Machine
end

section
/-! PROOFS. The integer square root is the square root rounded down (45_isqrt.md R290), and with it the points of a
circle lie around its centre (44_geometry_curves.md R252). -/
namespace Sys2Proof.Machine

section
variable {r bit : Byte} {n : Nat}

/-- A candidate bit is clear in a root found so far, which is a multiple of the next higher power of two. -/
theorem and_candidate (hbit : bit.toNat = 2 ^ n) (hr : 2 ^ (n + 1) ∣ r.toNat) : r &&& bit = 0 := by
  obtain ⟨q, hq⟩ := hr
  apply BitVec.eq_of_toNat_eq
  apply Nat.eq_of_testBit_eq
  intro j
  have hzero : (0 : Byte).toNat.testBit j = false := Nat.zero_testBit j
  rw [BitVec.toNat_and, hq, hbit, Nat.testBit_and, Nat.testBit_two_pow, Nat.testBit_two_pow_mul, hzero]
  by_cases hj : n = j
  · have hlow : ¬ j ≥ n + 1 := by omega
    simp only [hlow, decide_false, Bool.false_and]
  · simp only [hj, decide_false, Bool.and_false]

/-- Setting a candidate bit adds its value. -/
theorem toNat_or_candidate (hbit : bit.toNat = 2 ^ n) (hr : 2 ^ (n + 1) ∣ r.toNat) :
    (r ||| bit).toNat = r.toNat + 2 ^ n := by
  obtain ⟨q, hq⟩ := hr
  rw [BitVec.toNat_or, hq, hbit, Nat.two_pow_add_eq_or_of_lt (Nat.pow_lt_pow_succ (by decide))]

/-- Clearing a candidate bit again gives the root found so far. -/
theorem or_candidate_clear (h : r &&& bit = 0) : (r ||| bit) &&& ~~~bit = r := by
  ext i hi
  have hi' : (r[i] && bit[i]) = false := by simp [← BitVec.getElem_and, h]
  rw [BitVec.getElem_and, BitVec.getElem_or, BitVec.getElem_not]
  exact (by decide : ∀ a b : Bool, (a && b) = false → ((a || b) && !b) = a) _ _ hi'

/-- The loop keeps the root of v between r and r + 2ⁿ, where n mask bits are still to come; the root found so far is a
multiple of 2ⁿ, so that each candidate bit adds its value. -/
theorem isqrtLoop_bounds {v : Nat} (hbit : bit.toNat = 2 ^ n / 2) (hr : 2 ^ n ∣ r.toNat)
    (hlo : r.toNat * r.toNat ≤ v) (hhi : v < (r.toNat + 2 ^ n) * (r.toNat + 2 ^ n)) :
    (isqrtLoop v n r bit).toNat * (isqrtLoop v n r bit).toNat ≤ v ∧
      v < ((isqrtLoop v n r bit).toNat + 1) * ((isqrtLoop v n r bit).toNat + 1) := by
  induction n generalizing r bit with
  | zero => exact ⟨hlo, hhi⟩
  | succ n ih =>
    have hpow : (2 : Nat) ^ (n + 1) = 2 ^ n + 2 ^ n := by rw [Nat.pow_succ, Nat.mul_two]
    have hbit' : bit.toNat = 2 ^ n := by omega
    have hne : bit ≠ 0 := by rintro rfl; exact absurd hbit' (Nat.ne_of_lt (Nat.two_pow_pos n))
    have hdvd : 2 ^ n ∣ r.toNat := Nat.dvd_trans (Nat.pow_dvd_pow 2 n.le_succ) hr
    have hor := toNat_or_candidate hbit' hr
    have hshift : (bit >>> 1).toNat = 2 ^ n / 2 := by
      rw [BitVec.toNat_ushiftRight, hbit', Nat.shiftRight_eq_div_pow, Nat.pow_one]
    simp only [isqrtLoop, if_neg hne]
    split
    · rename_i hbig
      rw [or_candidate_clear (and_candidate hbit' hr)]
      exact ih hshift hdvd hlo (hor ▸ hbig)
    · rename_i hsmall
      refine ih hshift (hor ▸ Nat.dvd_add hdvd (Nat.dvd_refl _)) (Nat.not_lt.1 hsmall) ?_
      rw [hor, Nat.add_assoc, ← hpow]
      exact hhi

/-- `isqrt` of a 16-bit number is its square root rounded down (45_isqrt.md R290). -/
theorem isqrt_bounds {v : Nat} (h : v < 65536) :
    (isqrt v).toNat * (isqrt v).toNat ≤ v ∧ v < ((isqrt v).toNat + 1) * ((isqrt v).toNat + 1) :=
  isqrtLoop_bounds (n := 8) rfl (Nat.dvd_zero _) (Nat.zero_le v) h

end

/-! ### The points of a circle -/

section
variable {r x y : Nat} {cx cy : Int} {p : Int × Int}

/-- The height of a circle of a byte's radius is the root rounded down (44_geometry_curves.md R252). -/
theorem circleHeight_bounds (hr : r ≤ 255) (x : Nat) :
    circleHeight r x * circleHeight r x ≤ r * r - x * x ∧
      r * r - x * x < (circleHeight r x + 1) * (circleHeight r x + 1) := by
  have hsq : r * r ≤ 255 * 255 := Nat.mul_le_mul hr hr
  exact isqrt_bounds (by omega)

theorem circleHeight_le (hr : r ≤ 255) (x : Nat) : circleHeight r x ≤ r :=
  Nat.mul_self_le_mul_self_iff.1 (Nat.le_trans (circleHeight_bounds hr x).1 (Nat.sub_le ..))

theorem circleHeight_zero (hr : r ≤ 255) : circleHeight r 0 = r := by
  have hlt := (circleHeight_bounds hr 0).2
  rw [Nat.zero_mul, Nat.sub_zero] at hlt
  exact Nat.le_antisymm (circleHeight_le hr 0) (Nat.le_of_lt_succ (Nat.mul_self_lt_mul_self_iff.1 hlt))

theorem circleBound_le (r : Nat) : circleBound r ≤ r := Nat.min_le_left ..

/-- The positions at most r columns and r rows from (cx, cy). -/
def Within (r : Nat) (cx cy : Int) (p : Int × Int) : Prop :=
  cx - r ≤ p.1 ∧ p.1 ≤ cx + r ∧ cy - r ≤ p.2 ∧ p.2 ≤ cy + r

theorem Within.inFrame {o : Orient} (h : Within r cx cy p) (hx0 : r ≤ cx) (hy0 : r ≤ cy)
    (hx : cx + r < frameW o) (hy : cy + r < frameH o) : InFrame o p := by
  obtain ⟨h1, h2, h3, h4⟩ := h
  simp only [InFrame, Int.ofNat_eq_natCast]
  omega

/-- The signs of a quadrant are 1 or -1 (44_geometry_curves.md R250). -/
theorem quadrant_signs (q : Nat) :
    ((quadrant q).1 = 1 ∨ (quadrant q).1 = -1) ∧ ((quadrant q).2 = 1 ∨ (quadrant q).2 = -1) := by
  unfold quadrant
  split <;> simp

theorem within_of_mem_quadrantPoints {q : Nat} (hx : x ≤ r) (hy : y ≤ r) (h : p ∈ quadrantPoints cx cy x y q) :
    Within r cx cy p := by
  obtain ⟨h1, h2⟩ := quadrant_signs q
  simp only [quadrantPoints, List.mem_cons, List.not_mem_nil, or_false] at h
  rcases h with rfl | rfl <;> rcases h1 with h1 | h1 <;> rcases h2 with h2 | h2 <;>
    simp only [Within, h1, h2] <;> omega

/-- The points of CIRCLE_QUAD lie at most r columns and r rows from the centre (44_geometry_curves.md R252). -/
theorem within_of_mem_circleQuadPoints {m : Byte} (hr : r ≤ 255) (h : p ∈ circleQuadPoints cx cy r m) :
    Within r cx cy p := by
  simp only [circleQuadPoints, List.mem_flatMap, List.mem_range] at h
  obtain ⟨x, hx, q, -, hp⟩ := h
  exact within_of_mem_quadrantPoints (Nat.le_trans (Nat.le_of_lt_succ hx) (circleBound_le r)) (circleHeight_le hr x) hp

/-- A list made of equally many elements for each element of another. -/
theorem length_flatMap_const {α β : Type} {f : α → List β} {n : Nat} (h : ∀ a, (f a).length = n) (l : List α) :
    (l.flatMap f).length = l.length * n := by
  induction l with
  | nil => exact (Nat.zero_mul n).symm
  | cons a l ih => rw [List.flatMap_cons, List.length_append, h, ih, List.length_cons, Nat.succ_mul, Nat.add_comm]

/-- CIRCLE_QUAD has two points per step and mask bit set (44_geometry_curves.md R252). -/
theorem length_circleQuadPoints (cx cy : Int) (r : Nat) (m : Byte) :
    (circleQuadPoints cx cy r m).length = (circleBound r + 1) * (((List.range 4).filter (maskBit m)).length * 2) := by
  rw [circleQuadPoints, length_flatMap_const fun _ => length_flatMap_const (n := 2) (fun _ => rfl) _, List.length_range]

/-- All four mask bits select the quadrants in order (44_geometry_curves.md R250). -/
theorem filter_maskBit_all : (List.range 4).filter (maskBit 0x0F) = [0, 1, 2, 3] := by decide

/-- The first point of a circle is the one r rows below the centre (44_geometry_curves.md R252). -/
theorem circleQuadPoints_first (cx cy : Int) (hr : r ≤ 255) :
    ∃ l, circleQuadPoints cx cy r 0x0F = (cx, cy + r) :: l := by
  rw [circleQuadPoints, filter_maskBit_all, List.range_succ_eq_map]
  simp [quadrantPoints, quadrant, circleHeight_zero hr]

end

end Sys2Proof.Machine
end

section
/-! PROOFS. Plotting: the units of a list of points, and the first point with the bus closed; then the obligation about
CIRCLE and CLEAR. -/
namespace Sys2Proof.Machine

variable {s : State}

/-- A list of plots sends 13 units per point (42_controller_protocol.md R206, 43_geometry_basic.md R221). -/
theorem length_flatMap_plotUnits (cfg : Config) (c : Color) (ps : List (Int × Int)) :
    (ps.flatMap (plotUnits cfg c)).length = ps.length * 13 :=
  length_flatMap_const (f := plotUnits cfg c) (n := 13) (fun _ => rfl) ps

/-! ### With the bus closed -/

/-- A window write in the frame faults on its first unit, CASET, with the bus closed (40_bus_transport.md R124). -/
theorem windowWrite_closed {x0 y0 x1 y1 : Int} (hp : s.ctl.phase = .on) (hb : s.busOpen = false)
    (hw : WindowIn s.ctl.orient x0 y0 x1 y1) (c : Color) (n : Int) :
    windowWrite x0 y0 x1 y1 c n s = .stop (s.raise (.busClosed .cmd s.cfg.opcCaset)) := by
  obtain ⟨hx0, hx, hX, hy0, hy, hY⟩ := hw
  rw [windowWrite, opSetWindow, gate_on hp, Run.andThen_ok, if_neg (by omega), if_neg (by omega), windowUnits,
    List.cons_append, List.cons_append, List.cons_append, sendAll, runAll_cons, xfer_closed hb]
  rfl

/-- A plot in the frame faults on its first unit with the bus closed, and so does a list that starts with it. -/
theorem plotAll_closed {p : Int × Int} (hp : s.ctl.phase = .on) (hb : s.busOpen = false)
    (hin : InFrame s.ctl.orient p) (c : Color) (l : List (Int × Int)) :
    plotAll c (p :: l) s = .stop (s.raise (.busClosed .cmd s.cfg.opcCaset)) := by
  obtain ⟨hx0, hX, hy0, hY⟩ := hin
  rw [plotAll, runAll_cons, opPixel, gate_on hp, Run.andThen_ok,
    windowWrite_closed hp hb ⟨hx0, Int.le_refl _, hX, hy0, Int.le_refl _, hY⟩, Run.andThen_stop]

/-! ### CIRCLE and CLEAR -/

/-- In phase On CIRCLE is CIRCLE_QUAD with all four mask bits (44_geometry_curves.md R253). -/
theorem opCircle_on (hp : s.ctl.phase = .on) (cx cy : Int) (r : Nat) (c : Color) :
    opCircle cx cy r c s = opCircleQuad cx cy r 0x0F c s := by
  rw [opCircle, gate_on hp, Run.andThen_ok]

/-- In phase On CIRCLE plots its points (44_geometry_curves.md R252, R253). -/
theorem opCircle_plots (hp : s.ctl.phase = .on) (cx cy : Int) (r : Nat) (c : Color) :
    opCircle cx cy r c s = plotAll c (circleQuadPoints cx cy r 0x0F) s := by
  rw [opCircle_on hp, opCircleQuad, gate_on hp, Run.andThen_ok]

/-- In phase On CLEAR is FILL_RECT of the whole frame in BLACK (43_geometry_basic.md R229). -/
theorem opClear_on (hp : s.ctl.phase = .on) {w h : Byte} (hw : w.toNat + 1 = frameW s.ctl.orient)
    (hh : h.toNat + 1 = frameH s.ctl.orient) : opClear s = opFillRect 0 0 (int8 w) (int8 h) Config.black s := by
  rw [opClear, gate_on hp, Run.andThen_ok, ← hw, ← hh]
  simp [int8]

/-- With the bus closed CIRCLE faults at its first point. -/
theorem opCircle_closed (hp : s.ctl.phase = .on) (hb : s.busOpen = false) {cx cy : Int} {r : Nat} (hr : r ≤ 255)
    (hin : InFrame s.ctl.orient (cx, cy + r)) (c : Color) :
    opCircle cx cy r c s = .stop (s.raise (.busClosed .cmd s.cfg.opcCaset)) := by
  obtain ⟨l, hl⟩ := circleQuadPoints_first cx cy hr
  rw [opCircle_plots hp, hl, plotAll_closed hp hb hin]

/-- A CIRCLE in the frame completes (44_geometry_curves.md R253). -/
theorem opCircle_drew (h : Drawing s) (hm : MapsWf s.cfg) {cx cy : Int} {r : Nat} (hr : r ≤ 255) (hx0 : r ≤ cx)
    (hy0 : r ≤ cy) (hx : cx + r < frameW s.ctl.orient) (hy : cy + r < frameH s.ctl.orient) (c : Color) :
    ∃ t, opCircle cx cy r c s = .ok t ∧ Drew 0 s t ((circleQuadPoints cx cy r 0x0F).flatMap (plotUnits s.cfg c))
      (circleQuadPoints cx cy r 0x0F) c := by
  rw [opCircle_plots h.phase]
  exact plotAll_drew c _ h hm fun _ hp => (within_of_mem_circleQuadPoints hr hp).inFrame hx0 hy0 hx hy

/-- Settles O48: in phase On CIRCLE plots the points of CIRCLE_QUAD with all four mask bits, and CLEAR is the FILL_RECT
it calls. -/
theorem circleResult : Obligations.CircleResult := by
  unfold Obligations.CircleResult
  refine ⟨fun s cx cy r c hp => congrArg complete (opCircle_on hp ..),
    fun s hp w h hw hh => congrArg complete (opClear_on hp hw hh), fun s cx cy r c hp hf hb hx hy => ?_,
    fun s cx cy r c hd hm hx0 hy0 hx hy => ?_⟩
  · have hin : InFrame s.ctl.orient (int8 cx, int8 cy + r.toNat) := by
      simp only [InFrame, int8, Int.ofNat_eq_natCast]
      omega
    refine (congrArg complete (opCircle_closed hp hb (Nat.le_of_lt_succ r.isLt) hin c)).trans ?_
    rw [complete_stop, State.raise_fault _ hf]
  · obtain ⟨u, hu, hdrew⟩ := opCircle_drew hd hm (cx := int8 cx) (cy := int8 cy) (Nat.le_of_lt_succ r.isLt)
      (Int.ofNat_le.2 hx0) (Int.ofNat_le.2 hy0) (Int.ofNat_lt.2 hx) (Int.ofNat_lt.2 hy) c
    obtain ⟨t, ht, hdrew⟩ := complete_drew hu hdrew
    refine ⟨t, _, _, ht, hdrew, rfl, rfl, ?_⟩
    rw [length_flatMap_plotUnits, length_circleQuadPoints, filter_maskBit_all]
    simp only [List.length_cons, List.length_nil]
    omega

end Sys2Proof.Machine
end

section
/-! PROOFS. The bus transport (40_bus_transport.md): the outcomes of a transfer with the Bus's count, a hang, the reset
line and the waits, a closed bus, and the frame of a bus unit. -/
namespace Sys2Proof.Machine

variable {s : State} {u : BusUnit} {c : Controller}

/-! ### The Bus's count of transfers -/

/-- A transfer that the Bus still completes counts it down (40_bus_transport.md R128; log entry 5). -/
theorem xfer_counted {n : Nat} (hb : s.busOpen = true) (hst : s.stall = some (n + 1))
    (hr : receive s.cfg s.rst u s.ctl = .ok c) : xfer u s = .ok { (s.carry u).setCtl c with stall := some n } := by
  rcases xfer_cases u s with ⟨hb', -⟩ | ⟨-, d, f, hr', -⟩ | ⟨-, d, hr', ⟨hst', -⟩ | ⟨hst', -⟩ | ⟨m, hst', hx⟩⟩
  · cases hb.symm.trans hb'
  · cases hr.symm.trans hr'
  · cases hst.symm.trans hst'
  · cases hst.symm.trans hst'
  · cases hr.symm.trans hr'
    cases hst.symm.trans hst'
    exact hx

/-- A transfer that the Bus never completes stops with the unit sent and taken and the flag set
(40_bus_transport.md R128, 60_exceptions.md R306). -/
theorem xfer_stalled (hb : s.busOpen = true) (hst : s.stall = some 0) (hr : receive s.cfg s.rst u s.ctl = .ok c) :
    xfer u s = .stop (((s.startTransfer u).setCtl c).receiveByte) := by
  rcases xfer_cases u s with ⟨hb', -⟩ | ⟨-, d, f, hr', -⟩ | ⟨-, d, hr', ⟨hst', -⟩ | ⟨-, hx⟩ | ⟨m, hst', -⟩⟩
  · cases hb.symm.trans hb'
  · cases hr.symm.trans hr'
  · cases hst.symm.trans hst'
  · cases hr.symm.trans hr'
    exact hx
  · cases hst.symm.trans hst'

/-- Settles O19: each clause is one case of a transfer, its state written out. -/
theorem transferOutcomes : Obligations.TransferOutcomes := by
  unfold Obligations.TransferOutcomes
  intro s u
  refine ⟨fun hb hf => ?_, fun c f hb hf hr => ?_, fun c hb hst hr => xfer_ok hb hst hr,
    fun c n hb hst hr => xfer_counted hb hst hr, fun c hb hst hr => xfer_stalled hb hst hr⟩
  · rw [xfer_closed hb, State.raise_fault _ hf]
  · rw [xfer_raised hb hr, State.raise_fault (s := (s.startTransfer u).setCtl c) f hf]
    rfl

/-! ### A hang -/

/-- A state that a step leaves as it is, every run leaves as it is. -/
theorem run_of_step_self {M : Host.Core} {s : M.State} (h : M.step s = .next s) (n : Nat) : M.run n s = .next s := by
  induction n with
  | zero => rfl
  | succ n ih => simp only [Host.Core.run, h, ih]

/-- No run leaves a hang (40_bus_transport.md R128, 60_exceptions.md R306). -/
theorem run_hung (h : s.hung = true) (n : Nat) : core.run n s = .next s :=
  run_of_step_self (M := core) (step_of_done (fetch_hung h)) n

/-- Settles O9: the stalled transfer leaves a hang, and no run leaves a hang. -/
theorem stalledTransferHangsForever : Obligations.StalledTransferHangsForever := by
  unfold Obligations.StalledTransferHangsForever
  intro s u c hb hst hf hr
  have hhung : (((s.startTransfer u).setCtl c).receiveByte).hung = true := by simp [State.hung, hf]
  exact ⟨_, xfer_stalled hb hst hr, rfl, hf, rfl, rfl, rfl, run_hung hhung⟩

/-! ### The reset line and the waits -/

/-- Driving the level the line has changes nothing (40_bus_transport.md R127). -/
theorem driveRst_same {level : Level} (h : s.rst = level) : driveRst level s = s := by
  subst h
  unfold driveRst
  cases s.rst <;> rfl

/-- The edge to the active level (70_reset_and_hazards.md R341). -/
theorem driveRst_active (h : s.rst = .inactive) :
    driveRst .active s = { s with rst := .active, ctl := { controllerReset s.ctl with settle := none } } := by
  simp only [driveRst, h]
  rfl

/-- The edge to the inactive level (70_reset_and_hazards.md R342). -/
theorem driveRst_inactive (h : s.rst = .active) :
    driveRst .inactive s = { s with rst := .inactive, ctl := { controllerReset s.ctl with settle := some .rst } } := by
  simp only [driveRst, h]
  rfl

/-- Settles O13: the four levels and edges by the line's level, and the four waits. -/
theorem resetLineAndWaits : Obligations.ResetLineAndWaits := by
  unfold Obligations.ResetLineAndWaits
  exact ⟨fun _ h => ⟨driveRst_active h, driveRst_same h⟩, fun _ h => ⟨driveRst_inactive h, driveRst_same h⟩,
    fun _ => ⟨rfl, rfl, rfl, rfl⟩, fun _ => rfl⟩

/-! ### Opening and closing the bus -/

/-- BUS_OPEN sets the register and steps the pc (40_bus_transport.md R120). -/
theorem exec_busOpen (s : State) : exec .busOpen s = .next (s.setBusOpen true).advancePc := rfl

/-- BUS_CLOSE clears the register and steps the pc (40_bus_transport.md R122). -/
theorem exec_busClose (s : State) : exec .busClose s = .next (s.setBusOpen false).advancePc := rfl

/-- Settles O18: each operation writes one register and steps the pc. -/
theorem busOpenAndClose : Obligations.BusOpenAndClose := by
  unfold Obligations.BusOpenAndClose
  exact ⟨fun _ => ⟨rfl, rfl⟩, fun s => ⟨exec_busOpen s, exec_busClose s⟩⟩

/-! ### A closed bus -/

/-- While the bus is closed the transfers and the raises leave T and the Controller (40_bus_transport.md R124). -/
theorem stable_closed (l : List BusUnit) (c : Controller) :
    Stable fun t => t.busOpen = false ∧ t.trace = l ∧ t.ctl = c where
  xfer u s h := by
    obtain ⟨hb, hl, hc⟩ := h
    have hs := xfer_sent u s
    obtain ⟨htrace, hctl⟩ := hs.closed hb
    exact ⟨hs.busOpen.trans hb, htrace.trans hl, hctl.trans hc⟩
  raise f s h := by simpa using h

/-- With the bus closed INIT stops at its first unit, after the reset steps (42_controller_protocol.md R191). -/
theorem opInit_closed (hb : s.busOpen = false) :
    opInit s = .stop ((opReset s).raise (.busClosed .cmd s.cfg.opcSlpout)) := by
  have hb' : (opReset s).busOpen = false := by rw [opReset_eq]; exact hb
  have hcfg : (opReset s).cfg = s.cfg := by rw [opReset_eq]
  simp only [opInit, xfer_closed hb', Run.andThen_stop, hcfg]
  rfl

/-- Every engine operation is one run, which sends nothing over a closed bus and leaves the Controller, but for the
reset steps of RESET and INIT. -/
theorem packet_closed {i : Instr} {bytes : List Byte} (he : encode s.cfg i = .packet bytes) (hb : s.busOpen = false) :
    ∃ r, exec i s = complete r ∧ r.state.trace = s.trace ∧
      (i ≠ .reset → i ≠ .init → r.state.ctl = s.ctl) := by
  cases hi : gatedOpcode i with
  | some op =>
    obtain ⟨r, hr, -, htrace, hctl⟩ := (stable_closed s.trace s.ctl).gated hi ⟨hb, rfl, rfl⟩
    exact ⟨r, hr, htrace, fun _ _ => hctl⟩
  | none =>
    cases i <;> simp only [gatedOpcode, encode, reduceCtorEq] at hi he
    case busOpen => exact ⟨.ok _, rfl, rfl, fun _ _ => rfl⟩
    case busClose => exact ⟨.ok _, rfl, rfl, fun _ _ => rfl⟩
    case isqrt => exact ⟨.ok _, rfl, rfl, fun _ _ => rfl⟩
    case reset => exact ⟨.ok _, rfl, by simp [opReset_eq], fun h => absurd rfl h⟩
    case init => exact ⟨_, rfl, by simp [opInit_closed hb, opReset_eq], fun _ h => absurd rfl h⟩

/-- Settles O20: a unit is one transfer, which sends nothing over a closed bus; an engine operation is one run. -/
theorem closedBusSendsNothing : Obligations.ClosedBusSendsNothing := by
  unfold Obligations.ClosedBusSendsNothing
  intro i s t hb ht
  cases he : encode s.cfg i with
  | unit u =>
    rw [exec_unit he, Host.Outcome.next.injEq] at ht
    obtain ⟨htrace, hctl⟩ := (xfer_sent u s).closed hb
    exact ht ▸ ⟨htrace, fun _ _ => hctl⟩
  | packet bytes =>
    obtain ⟨r, hr, hrun⟩ := packet_closed he hb
    rcases complete_cases (hr ▸ ht) with ⟨v, rfl, rfl⟩ | rfl
    · exact hrun
    · exact hrun

/-! ### The frame of a bus unit -/

/-- The instructions encoded as units are the nine commands and DATA (30_encoding.md R90, R91). -/
theorem encode_unit_cases {cfg : Config} {i : Instr} (h : encode cfg i = .unit u) :
    (∃ k : Command, i = k.instr ∧ u = cmdUnit cfg k) ∨ ∃ b, i = .data b ∧ u = dataUnit b := by
  cases i <;> simp only [encode, Encoded.unit.injEq, reduceCtorEq] at h <;> subst h
  case data b => exact .inr ⟨b, rfl, rfl⟩
  case cSwreset => exact .inl ⟨.swreset, rfl, rfl⟩
  case cSlpout => exact .inl ⟨.slpout, rfl, rfl⟩
  case cDispoff => exact .inl ⟨.dispoff, rfl, rfl⟩
  case cDispon => exact .inl ⟨.dispon, rfl, rfl⟩
  case cCaset => exact .inl ⟨.caset, rfl, rfl⟩
  case cRaset => exact .inl ⟨.raset, rfl, rfl⟩
  case cRamwr => exact .inl ⟨.ramwr, rfl, rfl⟩
  case cMadctl => exact .inl ⟨.madctl, rfl, rfl⟩
  case cColmod => exact .inl ⟨.colmod, rfl, rfl⟩

/-- No command is a data unit. -/
theorem instr_ne_data (k : Command) (b : Byte) : k.instr ≠ .data b := by cases k <;> simp [Command.instr]

/-- What the transfer of a command other than SWRESET leaves of the Controller, whatever its outcome. -/
theorem xfer_command_kept (hc : s.cfg.opcsDistinct = true) {k : Command} (hk : k ≠ .swreset) :
    CommandKept k s.ctl (xfer (cmdUnit s.cfg k) s).state.ctl := by
  rcases (xfer_sent (cmdUnit s.cfg k) s).ctl with h | h <;> rw [h]
  · exact .refl k s.ctl
  · exact receive_command_kept hc hk s.rst s.ctl

/-- What the transfer of a data unit leaves of the Controller, whatever its outcome. -/
theorem xfer_data_kept (b : Byte) : DataKept s.cfg s.ctl (xfer (dataUnit b) s).state.ctl := by
  rcases (xfer_sent (dataUnit b) s).ctl with h | h <;> rw [h]
  · exact .refl s.cfg s.ctl
  · exact receive_data_kept s.cfg s.rst b s.ctl

/-- Settles O31: a unit is one transfer, which leaves the Engine's registers; of the Controller a command leaves what
its unit leaves, and a data unit what its byte leaves. -/
theorem busUnitFrames : Obligations.BusUnitFrames := by
  unfold Obligations.BusUnitFrames
  intro i u s t he hc ht
  rw [exec_unit he, Host.Outcome.next.injEq] at ht
  subst ht
  have hs := xfer_sent u s
  refine ⟨hs.toEngineKept, hs.pc, hs.trace, ?_⟩
  rcases encode_unit_cases he with ⟨k, rfl, rfl⟩ | ⟨b, rfl, rfl⟩
  · have hother {j : Command} (h : k.instr ≠ j.instr) : k ≠ j := mt (congrArg _) h
    refine ⟨fun hk _ => ?_, fun b hb => absurd hb (instr_ne_data k b)⟩
    have hkept := xfer_command_kept hc (hother (j := .swreset) hk)
    exact ⟨hkept.colmod, hkept.orient, hkept.xs, hkept.xe, hkept.ys, hkept.ye, hkept.gram,
      fun h => hkept.settle (hother (j := .slpout) h),
      fun h h' h'' => hkept.phase (hother (j := .slpout) h) (hother (j := .dispon) h') (hother (j := .dispoff) h''),
      fun h => hkept.pointer (hother (j := .ramwr) h)⟩
  · have hkept := xfer_data_kept (s := s) b
    exact ⟨fun _ h => absurd rfl (h b), fun _ _ => ⟨hkept.settle, hkept.cmd, hkept.format, hkept.orient,
      hkept.columns, hkept.rows, hkept.stream, hkept.cells⟩⟩

end Sys2Proof.Machine
end

section
/-! PROOFS. The Controller's commands (41_controller_commands.md): what a refused unit leaves, which units are refused,
the units that start a command, and the obligations about them. -/
namespace Sys2Proof.Machine

variable {s : State} {u : BusUnit} {i : Instr} {k : Command} {c d : Controller} {f : FaultInfo} {b : Byte}
  {cfg : Config}

/-! ### A refused unit -/

/-- What a unit on which the Controller raises f leaves, with no fault recorded before: the record, the Controller that
its rule left, the unit in T, and the pc where it was (40_bus_transport.md R124, 60_exceptions.md R300). -/
structure Refused (u : BusUnit) (d : Controller) (f : FaultInfo) (s t : State) : Prop where
  fault : t.fault = some ⟨f, s.pc⟩
  ctl : t.ctl = d
  trace : t.trace = s.trace ++ [u]
  pc : t.pc = s.pc

/-- The transfer of a unit on which the Controller raises (40_bus_transport.md R124). -/
theorem xfer_refused (hb : s.busOpen = true) (hf : s.fault = none)
    (hr : receive s.cfg s.rst u s.ctl = .raised d f) : ∃ t, xfer u s = .stop t ∧ Refused u d f s t := by
  refine ⟨_, xfer_raised hb hr, ?_⟩
  rw [State.raise_fault (s := (s.startTransfer u).setCtl d) f hf]
  exact ⟨rfl, rfl, rfl, rfl⟩

theorem LinkUp.xfer_refused (hl : LinkUp s) (hf : s.fault = none)
    (hr : receive s.cfg .inactive u s.ctl = .raised d f) : ∃ t, xfer u s = .stop t ∧ Refused u d f s t :=
  Machine.xfer_refused hl.busOpen hf (hl.rst.symm ▸ hr)

/-- The same for the unit's instruction. -/
theorem LinkUp.exec_refused (hl : LinkUp s) (hf : s.fault = none) (he : encode s.cfg i = .unit u)
    (hr : receive s.cfg .inactive u s.ctl = .raised d f) : ∃ t, exec i s = .next t ∧ Refused u d f s t := by
  obtain ⟨t, ht, h⟩ := hl.xfer_refused hf hr
  exact ⟨t, by rw [exec_unit he, ht, Run.state_stop], h⟩

/-- While a settle hold is pending every unit is refused (41_controller_commands.md R143). -/
theorem receive_settling {q : Settle} (h : c.settle = some q) (u : BusUnit) :
    receive cfg .inactive u c = .raised c (.settleViolation q u.dc u.byte) := by
  simp only [receive, h]

/-- Settles O27: the reset line is checked first, then the settle hold; either refuses every unit. -/
theorem resetAndSettleHold : Obligations.ResetAndSettleHold := by
  unfold Obligations.ResetAndSettleHold
  intro s u hb hf
  refine ⟨fun hrst => ?_, fun q hrst hs => ?_⟩
  · obtain ⟨t, ht, h⟩ := xfer_refused (d := s.ctl) (f := .resetActive u.dc u.byte) hb hf (by rw [hrst]; rfl)
    exact ⟨t, ht, h.fault, h.ctl, h.trace⟩
  · obtain ⟨t, ht, h⟩ := xfer_refused hb hf (hrst.symm ▸ receive_settling hs u)
    exact ⟨t, ht, h.fault, h.ctl, h.trace⟩

/-! ### Commands that start -/

/-- A command that the phase admits, over a link that is up, goes through as its start does
(41_controller_commands.md R144). -/
theorem LinkUp.exec_command (hl : LinkUp s) (hcl : s.ctl.closable = true) (hc : s.cfg.opcsDistinct = true)
    (ha : admits k s.ctl.phase = true) (hk : startCommand k s.ctl.closed = .ok c) :
    exec k.instr s = .next ((s.carry (cmdUnit s.cfg k)).setCtl c) :=
  exec_unit_linkUp hl (encode_instr s.cfg k) ((receive_command hc hl.settle hcl ha).trans hk)

/-- Settles O21: each of the four starts in the phases of its row of the table. -/
theorem commandsWithoutData : Obligations.CommandsWithoutData := by
  unfold Obligations.CommandsWithoutData
  intro s hl hcl hc
  refine ⟨hl.exec_command (k := .swreset) hcl hc rfl rfl, fun hp => ?_, fun hp => ?_, fun hp => ?_⟩
  · exact hl.exec_command (k := .slpout) hcl hc (by simp [admits, hp]) rfl
  · exact hl.exec_command (k := .dispon) hcl hc (by simp [admits, hp]) rfl
  · exact hl.exec_command (k := .dispoff) hcl hc (by simp [admits, hp]) rfl

/-- Settles O22: each of the four starts in the phase that admits it. -/
theorem commandsWithParametersStart : Obligations.CommandsWithParametersStart := by
  unfold Obligations.CommandsWithParametersStart
  intro s hl hcl hc
  refine ⟨fun hp => ⟨?_, ?_, ?_⟩, fun hp => ?_⟩
  · exact hl.exec_command (k := .caset) hcl hc (by simp [admits, hp]) rfl
  · exact hl.exec_command (k := .raset) hcl hc (by simp [admits, hp]) rfl
  · exact hl.exec_command (k := .madctl) hcl hc (by simp [admits, hp]) rfl
  · exact hl.exec_command (k := .colmod) hcl hc (by simp [admits, hp]) rfl

/-! ### Phase admission -/

@[simp] theorem Controller.closed_phase (c : Controller) : c.closed.phase = c.phase := rfl

@[simp] theorem Controller.closed_orient (c : Controller) : c.closed.orient = c.orient := rfl

/-- A command outside its phases is refused with the last command closed
(41_controller_commands.md R144, R149). -/
theorem receive_notAdmitted (hc : cfg.opcsDistinct = true) (hs : c.settle = none) (hcl : c.closable = true)
    (ha : admits k c.phase = false) :
    receive cfg .inactive (cmdUnit cfg k) c = .raised c.closed (.orderViolation k c.phase) := by
  simp [receive, hs, cmdUnit, commandByte, closeCommand_of_closable hcl, commandOf_opcOf hc, ha]

theorem LinkUp.exec_notAdmitted (hl : LinkUp s) (hcl : s.ctl.closable = true) (hc : s.cfg.opcsDistinct = true)
    (hf : s.fault = none) (ha : admits k s.ctl.phase = false) :
    ∃ t, exec k.instr s = .next t ∧
      Refused (cmdUnit s.cfg k) s.ctl.closed (.orderViolation k s.ctl.phase) s t :=
  hl.exec_refused hf (encode_instr s.cfg k) (receive_notAdmitted hc hl.settle hcl ha)

/-- Settles O26: the table is that of `admits`, and a command outside it is refused. -/
theorem phaseAdmission : Obligations.PhaseAdmission := by
  unfold Obligations.PhaseAdmission
  refine ⟨fun p => by simp [admits], fun s k hl hcl hc hf ha => ?_⟩
  obtain ⟨t, ht, h⟩ := hl.exec_notAdmitted hcl hc hf ha
  exact ⟨t, ht, h.fault, h.ctl, h.trace, h.pc⟩

/-! ### RAMWR -/

/-- RAMWR without a latched window is refused (41_controller_commands.md R159). -/
theorem startRamwr_unset (h : c.xs = none ∨ c.xe = none ∨ c.ys = none ∨ c.ye = none) :
    startRamwr c = .raised c .windowUnset := by
  unfold startRamwr
  split
  · simp_all
  · rfl

/-- RAMWR over a latched window: its two checks in order, and the pointer at (XS, YS)
(41_controller_commands.md R159). -/
theorem startRamwr_latched {xs xe ys ye : Word} (hxs : c.xs = some xs) (hxe : c.xe = some xe) (hys : c.ys = some ys)
    (hye : c.ye = some ye) :
    startRamwr c =
      if xe.toNat < xs.toNat ∨ ye.toNat < ys.toNat then
        .raised c (.malformedWindow (int16 xs) (int16 ys) (int16 xe) (int16 ye))
      else if frameW c.orient ≤ xe.toNat ∨ frameH c.orient ≤ ye.toNat then
        .raised c (.outOfBounds (int16 xs) (int16 ys) (int16 xe) (int16 ye))
      else .ok { c with cmd := some .ramwr, wpX := some xs, wpY := some ys, wpDone := false, hi := none } := by
  simp only [startRamwr, hxs, hxe, hys, hye, int16, Int.ofNat_eq_natCast, Int.ofNat_lt, Int.ofNat_le]

/-- Settles O24: the phase is checked by the table of phases, the window by RAMWR's own start. -/
theorem ramwrStart : Obligations.RamwrStart := by
  unfold Obligations.RamwrStart
  refine ⟨fun _ => rfl, fun s hl hcl hc hp hf => ?_, fun s hl hcl hc hp hf => ?_⟩
  · obtain ⟨t, ht, h⟩ := hl.exec_notAdmitted (k := .ramwr) hcl hc hf (by simp [admits, hp])
    exact ⟨t, ht, h.fault, h.ctl, h.trace⟩
  have ha : admits .ramwr s.ctl.phase = true := by simp [admits, hp]
  have refused {f : FaultInfo} (hk : startRamwr s.ctl.closed = .raised s.ctl.closed f) :
      ∃ t, exec .cRamwr s = .next t ∧ t.fault = some ⟨f, s.pc⟩ ∧ t.ctl = s.ctl.closed ∧
        t.trace = s.trace ++ [⟨.cmd, s.cfg.opcRamwr⟩] := by
    obtain ⟨t, ht, h⟩ := hl.exec_refused hf (encode_instr s.cfg .ramwr)
      ((receive_command hc hl.settle hcl ha).trans hk)
    exact ⟨t, ht, h.fault, h.ctl, h.trace⟩
  refine ⟨fun hunset => refused (startRamwr_unset hunset), fun xs xe ys ye hxs hxe hys hye => ?_⟩
  have hstart := startRamwr_latched (c := s.ctl.closed) hxs hxe hys hye
  rw [Controller.closed_orient] at hstart
  refine ⟨fun hbad => ?_, fun hx hy hout => ?_, fun hx hy hinX hinY => ?_⟩
  · rw [if_pos hbad] at hstart
    exact refused hstart
  · rw [if_neg (by omega), if_pos hout] at hstart
    exact refused hstart
  · rw [if_neg (by omega), if_neg (by omega)] at hstart
    exact hl.exec_command (k := .ramwr) hcl hc ha hstart

/-! ### Malformed units -/

/-- A command that lacks parameter bytes cannot be closed (41_controller_commands.md R146). -/
theorem closeCommand_incomplete (hk : c.cmd = some k) (hn : c.pbuf.length < paramCount k) :
    closeCommand c = .raised c (.paramError (.incomplete k)) := by
  simp [closeCommand, hk, hn]

/-- A pixel stream with a waiting high byte cannot be closed (41_controller_commands.md R146). -/
theorem closeCommand_oddPixelByte (hk : c.cmd = some .ramwr) (hh : c.hi ≠ none) :
    closeCommand c = .raised c (.paramError .oddPixelByte) := by
  simp [closeCommand, hk, paramCount, hh]

/-- A command byte that finds a command it cannot close is refused (41_controller_commands.md R144). -/
theorem receive_notClosed (hs : c.settle = none) (h : closeCommand c = .raised c f) (b : Byte) :
    receive cfg .inactive ⟨.cmd, b⟩ c = .raised c f := by
  simp only [receive, hs, commandByte, h]

/-- A byte that is none of the nine stands for no command (30_encoding.md R92). -/
theorem commandOf_unknown (h : ∀ k, b ≠ opcOf cfg k) : commandOf cfg b = none := by
  cases hk : commandOf cfg b with
  | none => rfl
  | some k => exact absurd (opcOf_of_commandOf hk).symm (h k)

/-- An unknown command byte is refused with the last command closed (41_controller_commands.md R148). -/
theorem receive_unknownCommand (hs : c.settle = none) (hcl : c.closable = true) (h : ∀ k, b ≠ opcOf cfg k) :
    receive cfg .inactive ⟨.cmd, b⟩ c = .raised c.closed (.unknownCommand b) := by
  simp only [receive, hs, commandByte, closeCommand_of_closable hcl, commandOf_unknown h]

/-- A data byte with no command in progress is refused (41_controller_commands.md R145). -/
theorem receive_stray (hs : c.settle = none) (hk : c.cmd = none) (b : Byte) :
    receive cfg .inactive (dataUnit b) c = .raised c (.paramError (.stray b)) := by
  simp only [receive, hs, dataUnit, dataByte, hk]

/-- A byte too many is refused (41_controller_commands.md R147). -/
theorem paramByte_extra (h : c.pbuf.length = paramCount k) (b : Byte) :
    paramByte cfg k b c = .raised c (.paramError (.extra k b)) := by
  simp [paramByte, h]

/-- The byte of a command that takes one parameter goes to its latch (41_controller_commands.md R147). -/
theorem receive_onlyParam (hs : c.settle = none) (hk : c.cmd = some k) (hp : c.pbuf = []) (hn : paramCount k = 1) :
    receive cfg .inactive (dataUnit b) c = latch cfg k { c with pbuf := [b] } := by
  rw [receive_param hs hk (by omega), paramByte_last (by simp [hp, hn]), hp, List.nil_append]

/-- A byte that is not `COLMOD_16` is not latched (41_controller_commands.md R152). -/
theorem latch_colmod_wrong (hp : c.pbuf = [b]) (hb : b ≠ cfg.colmod16) :
    latch cfg .colmod c = .raised c (.paramError (.colmod b)) := by
  simp only [latch, hp, latchColmod, if_neg hb]

/-- A byte that is no orientation code selects none (41_controller_commands.md R158). -/
theorem orientOf_unknown (h : ∀ o, b ≠ orientCodeOf cfg o) : orientOf cfg b = none := by
  simp [orientOf, (h _).symm]

/-- A byte that is no orientation code is not latched (41_controller_commands.md R158). -/
theorem latch_madctl_wrong (hp : c.pbuf = [b]) (hb : ∀ o, b ≠ orientCodeOf cfg o) :
    latch cfg .madctl c = .raised c (.paramError (.madctl b)) := by
  simp only [latch, hp, latchMadctl, orientOf_unknown hb]

/-- Settles O28: each malformed unit is refused by the check that its clause names. -/
theorem malformedUnitsFault : Obligations.MalformedUnitsFault := by
  unfold Obligations.MalformedUnitsFault
  intro s b hl hf
  have hs := hl.settle
  refine ⟨fun hk => ?stray, fun k hk _ hn hpos => ?extra, fun hk hp hb => ?colmod, fun hk hp hb => ?madctl,
    fun k hk hn => ?incomplete, fun hk hh => ?odd, fun hcl hb => ?unknown⟩
  case stray =>
    obtain ⟨t, ht, h⟩ := hl.xfer_refused hf (receive_stray hs hk b)
    exact ⟨t, ht, h.fault, h.ctl⟩
  case extra =>
    obtain ⟨t, ht, h⟩ := hl.xfer_refused hf ((receive_param hs hk hpos).trans (paramByte_extra hn b))
    exact ⟨t, ht, h.fault, h.ctl⟩
  case colmod =>
    obtain ⟨t, ht, h⟩ := hl.xfer_refused hf ((receive_onlyParam hs hk hp rfl).trans (latch_colmod_wrong rfl hb))
    exact ⟨t, ht, h.fault, by rw [h.ctl], by rw [h.ctl]⟩
  case madctl =>
    obtain ⟨t, ht, h⟩ := hl.xfer_refused hf ((receive_onlyParam hs hk hp rfl).trans (latch_madctl_wrong rfl hb))
    exact ⟨t, ht, h.fault, by rw [h.ctl]⟩
  case incomplete =>
    obtain ⟨t, ht, h⟩ := hl.xfer_refused hf (receive_notClosed hs (closeCommand_incomplete hk hn) b)
    exact ⟨t, ht, h.fault, h.ctl⟩
  case odd =>
    obtain ⟨t, ht, h⟩ := hl.xfer_refused hf (receive_notClosed hs (closeCommand_oddPixelByte hk hh) b)
    exact ⟨t, ht, h.fault, h.ctl⟩
  case unknown =>
    obtain ⟨t, ht, h⟩ := hl.xfer_refused hf (receive_unknownCommand hs hcl hb)
    exact ⟨t, ht, h.fault, h.ctl⟩

end Sys2Proof.Machine
end

section
/-! PROOFS. The bytes of a pixel stream (41_controller_commands.md R160), the units that write the display memory (R161)
and the phase machine (R155). -/
namespace Sys2Proof.Machine

variable {s t : State} {i : Instr} {k : Command} {c : Controller} {b h : Byte} {cfg : Config}

/-! ### The bytes of a pixel stream -/

/-- A high byte waits (41_controller_commands.md R160). -/
theorem pixelByte_high (hh : c.hi = none) : pixelByte cfg b c = .ok { c with hi := some b } := by
  simp only [pixelByte, hh]

/-- A pixel after the last cell of the window is refused (41_controller_commands.md R160). -/
theorem pixelByte_overrun (hh : c.hi = some h) (hd : c.wpDone = true) :
    pixelByte cfg b c = .raised { c with hi := none } (.windowOverrun (.pixel (be16 h b))) := by
  simp only [pixelByte, hh, hd, if_true]

/-- The pointer moves along the row, then to the start of the next row, then the window is exhausted
(20_memory.md R62). -/
theorem advancePointer_set {x y xs xe ye : Word} (hx : c.wpX = some x) (hy : c.wpY = some y) (hxs : c.xs = some xs)
    (hxe : c.xe = some xe) (hye : c.ye = some ye) :
    advancePointer c =
      if x.toNat < xe.toNat then .ok { c with wpX := some (x + 1) }
      else if y.toNat < ye.toNat then .ok { c with wpX := some xs, wpY := some (y + 1) }
      else .ok { c with wpX := some xs, wpDone := true } := by
  simp only [advancePointer, hx, hy, hxs, hxe, hye]

/-- Settles O25: a byte goes to `pixelByte`, and after a low byte the pointer's move is the one its place in the window
selects. -/
theorem pixelStreamBytes : Obligations.PixelStreamBytes := by
  unfold Obligations.PixelStreamBytes
  intro s b hl hk
  refine ⟨fun hh => ?_, fun h hh hd hf => ?_, fun hh hf => ?_, fun h x y xs xe ys ye hm hh hd hx hy hxs hxe hys hye
    hfx hfy => ?_⟩
  · exact exec_unit_linkUp hl rfl ((receive_pixel hl.settle hk).trans (pixelByte_high hh))
  · obtain ⟨t, ht, hr⟩ := hl.exec_refused (i := .data b) hf rfl
      ((receive_pixel hl.settle hk).trans (pixelByte_overrun hh hd))
    exact ⟨t, ht, hr.fault, by rw [hr.ctl], hr.trace⟩
  · obtain ⟨t, ht, hr⟩ := hl.xfer_refused hf (receive_notClosed hl.settle (closeCommand_oddPixelByte hk hh) b)
    exact ⟨t, ht, hr.fault, hr.ctl⟩
  · have hlow := (receive_pixel (b := b) hl.settle hk).trans
      ((pixelByte_low hm hh hd hx hy hfx hfy).trans (advancePointer_set hx hy hxs hxe hye))
    refine ⟨fun hcol => ?_, fun hcol hrow => ?_, fun hcol hrow => ?_⟩
    · rw [if_pos hcol] at hlow
      exact exec_unit_linkUp hl rfl hlow
    · rw [if_neg hcol, if_pos hrow] at hlow
      exact exec_unit_linkUp hl rfl hlow
    · rw [if_neg hcol, if_neg hrow] at hlow
      exact exec_unit_linkUp hl rfl hlow

/-! ### The units that write the display memory -/

/-- SWRESET is refused with every cell left, or it resets them all (41_controller_commands.md R150). -/
theorem receive_swreset_cases (hc : cfg.opcsDistinct = true) (rst : Level) (c : Controller) :
    (∃ d f, receive cfg rst (cmdUnit cfg .swreset) c = .raised d f ∧ d.gram = c.gram) ∨
      ∃ d, receive cfg rst (cmdUnit cfg .swreset) c = .ok d ∧ d.gram = [] := by
  rcases receive_command_cases hc .swreset rst c with ⟨f, hr⟩ | ⟨f, hr⟩ | ⟨-, -, -, hr⟩
  · exact .inl ⟨_, f, hr, rfl⟩
  · exact .inl ⟨_, f, hr, rfl⟩
  · exact .inr ⟨_, hr, rfl⟩

/-- The transfer of SWRESET leaves every cell with a fault recorded, or resets them all with no new fault. -/
theorem xfer_swreset (hc : s.cfg.opcsDistinct = true) :
    ((xfer (cmdUnit s.cfg .swreset) s).state.fault ≠ none ∧
      (xfer (cmdUnit s.cfg .swreset) s).state.ctl.gram = s.ctl.gram) ∨
    ((xfer (cmdUnit s.cfg .swreset) s).state.fault = s.fault ∧
      (xfer (cmdUnit s.cfg .swreset) s).state.ctl.gram = []) := by
  have hfault (u : State) (f : FaultInfo) : (u.raise f).fault ≠ none :=
    Option.isSome_iff_ne_none.1 (u.raise_isSome f)
  have hreceive := receive_swreset_cases hc s.rst s.ctl
  rcases xfer_cases (cmdUnit s.cfg .swreset) s with ⟨-, hx⟩ | ⟨-, d, f, hr, hx⟩ | ⟨-, d, hr, hx⟩
  · rw [hx]
    exact .inl ⟨hfault s _, by rw [Run.state_stop, State.raise_ctl]⟩
  · rcases hreceive with ⟨d', f', hr', hg⟩ | ⟨d', hr', -⟩ <;> cases hr.symm.trans hr'
    rw [hx]
    exact .inl ⟨hfault _ f, by rw [Run.state_stop, State.raise_ctl]; exact hg⟩
  · rcases hreceive with ⟨d', f', hr', -⟩ | ⟨d', hr', hg⟩ <;> cases hr.symm.trans hr'
    rcases hx with ⟨-, hx⟩ | ⟨-, hx⟩ | ⟨n, -, hx⟩ <;> rw [hx] <;> exact .inr ⟨rfl, hg⟩

/-- Settles O29: a command but SWRESET leaves every cell, and so does a data unit outside a pixel stream, which the
invariant allows in phase On alone. -/
theorem onlyPixelDataWritesGram : Obligations.OnlyPixelDataWritesGram := by
  unfold Obligations.OnlyPixelDataWritesGram
  refine ⟨fun s t i u hc he ht hi hdata => ?_, fun s t hc ht => ?_, fun s t b hinv ht hp => ?_⟩
  · rw [exec_unit he, Host.Outcome.next.injEq] at ht
    subst ht
    rcases encode_unit_cases he with ⟨k, rfl, rfl⟩ | ⟨b, rfl, rfl⟩
    · exact (xfer_command_kept hc (mt (congrArg Command.instr) (a := k = .swreset) hi)).gram
    · exact ((xfer_data_kept b).stream (hdata b rfl)).1
  · rw [← Host.Outcome.next.inj ht]
    exact (xfer_swreset hc).imp_right fun ⟨hf, hg⟩ => ⟨hf, fun a => congrArg (Memory.read · a) hg⟩
  · have hcmd : s.ctl.cmd ≠ some .ramwr := fun hk => hp (hinv.phase.drawing (.inr (.inr (.inl hk))))
    rw [← Host.Outcome.next.inj ht]
    exact ((xfer_data_kept b).stream hcmd).1

/-! ### The phase machine -/

/-- A command unit that changes the phase has started its command, in a phase that admits it. -/
theorem xfer_command_phase (hc : s.cfg.opcsDistinct = true)
    (hne : (xfer (cmdUnit s.cfg k) s).state.ctl.phase ≠ s.ctl.phase) :
    admits k s.ctl.phase = true ∧ (xfer (cmdUnit s.cfg k) s).state.ctl = (startCommand k s.ctl.closed).ctl := by
  rcases (xfer_sent (cmdUnit s.cfg k) s).ctl with hsame | htaken
  · exact absurd (congrArg Controller.phase hsame) hne
  rcases receive_command_cases hc k s.rst s.ctl with ⟨f, hr⟩ | ⟨f, hr⟩ | ⟨-, -, ha, hr⟩ <;> rw [hr] at htaken
  · exact absurd (congrArg Controller.phase htaken) hne
  · exact absurd (congrArg Controller.phase htaken) hne
  · exact ⟨ha, htaken⟩

/-- A data unit goes to the byte's rule over an inactive reset line with no settle hold, and is refused otherwise
(41_controller_commands.md R140). -/
theorem receive_data_cases (cfg : Config) (rst : Level) (b : Byte) (c : Controller) :
    (∃ f, receive cfg rst (dataUnit b) c = .raised c f) ∨ receive cfg rst (dataUnit b) c = dataByte cfg b c := by
  cases rst with
  | active => exact .inl ⟨_, rfl⟩
  | inactive =>
    cases hs : c.settle with
    | some q => exact .inl ⟨_, receive_settling hs _⟩
    | none => exact .inr (by simp only [receive, hs, dataUnit])

/-- COLMOD's parameter changes the phase to ColorModeSet, and only `COLMOD_16` does (41_controller_commands.md R152). -/
theorem paramByte_colmod_phase (cfg : Config) (b : Byte) (c : Controller) :
    (paramByte cfg .colmod b c).ctl.phase = c.phase ∨
      (b = cfg.colmod16 ∧ (paramByte cfg .colmod b c).ctl.phase = .colorModeSet) := by
  unfold paramByte
  simp only
  split
  · exact .inl rfl
  · split
    · rename_i hlast
      have hp : c.pbuf = [] := by simpa [paramCount] using hlast
      rw [hp, List.nil_append]
      by_cases hb : b = cfg.colmod16
      · exact .inr ⟨hb, by simp only [latch, latchColmod_colmod16 hb, CtlResult.ctl_ok]⟩
      · exact .inl (by rw [latch_colmod_wrong rfl hb, CtlResult.ctl_raised])
    · exact .inl rfl

/-- A data unit changes the phase only as COLMOD's parameter, and then to ColorModeSet. -/
theorem xfer_data_phase (hne : (xfer (dataUnit b) s).state.ctl.phase ≠ s.ctl.phase) :
    b = s.cfg.colmod16 ∧ s.ctl.cmd = some .colmod ∧ (xfer (dataUnit b) s).state.ctl.phase = .colorModeSet := by
  have hk : s.ctl.cmd = some .colmod :=
    Decidable.byContradiction fun hk => hne ((xfer_data_kept b).format hk).1
  rcases (xfer_sent (dataUnit b) s).ctl with hsame | htaken
  · exact absurd (congrArg Controller.phase hsame) hne
  rcases receive_data_cases s.cfg s.rst b s.ctl with ⟨f, hr⟩ | hr <;> rw [hr] at htaken
  · exact absurd (congrArg Controller.phase htaken) hne
  · have hbyte : dataByte s.cfg b s.ctl = paramByte s.cfg .colmod b s.ctl := by simp only [dataByte, hk]
    rw [hbyte] at htaken
    rw [htaken] at hne ⊢
    rcases paramByte_colmod_phase s.cfg b s.ctl with hphase | ⟨hb, hphase⟩
    · exact absurd hphase hne
    · exact ⟨hb, hk, hphase⟩

theorem runAll_singleton {α : Type} (f : α → State → Run) (a : α) (s : State) : runAll f [a] s = f a s :=
  Run.andThen_id (f a s)

/-- SET_ORIENT sends MADCTL and its parameter, which leave the phase (42_controller_protocol.md R194). -/
theorem opSetOrient_phase (hc : s.cfg.opcsDistinct = true) (deg : Word) :
    (opSetOrient deg s).state.ctl.phase = s.ctl.phase := by
  unfold opSetOrient gate
  split
  · rw [Run.andThen_ok, sendAll, runAll_cons]
    have hkept := xfer_command_kept hc (k := .madctl) (by simp)
    have hphase := hkept.phase (by simp) (by simp) (by simp)
    cases hx : xfer (cmdUnit s.cfg .madctl) s with
    | stop u =>
      rw [hx] at hphase
      exact hphase
    | ok u =>
      rw [hx] at hphase
      have hcmd : u.ctl.cmd = some .madctl := by rw [← CtlResult.ok.inj (xfer_command_ok hc hx)]
      rw [Run.andThen_ok, runAll_singleton]
      exact ((xfer_data_kept _).format (by simp [hcmd])).1.trans hphase
  · simp [raiseStop]

/-- An engine operation that completes or stops leaves the Controller that its run left. -/
theorem complete_ctl {r : Run} (h : complete r = .next t) : t.ctl = r.state.ctl := by
  rcases complete_cases h with ⟨u, rfl, rfl⟩ | rfl <;> rfl

/-- Every engine operation but RESET and INIT leaves the phase. -/
theorem exec_packet_phase (hc : s.cfg.opcsDistinct = true) {bytes : List Byte} (he : encode s.cfg i = .packet bytes)
    (hreset : i ≠ .reset) (hinit : i ≠ .init) (ht : exec i s = .next t) : t.ctl.phase = s.ctl.phase := by
  cases hi : gatedOpcode i with
  | some op =>
    by_cases ho : ∃ deg, i = .setOrient deg
    · obtain ⟨deg, rfl⟩ := ho
      rw [complete_ctl ht]
      exact opSetOrient_phase hc deg
    · exact (drawingFrame i op s t hi (not_exists.1 ho) hc ht).1.phase
  | none =>
    cases i <;> simp only [gatedOpcode, encode, reduceCtorEq] at hi he
    case reset => exact absurd rfl hreset
    case init => exact absurd rfl hinit
    case busOpen | busClose | isqrt => cases ht; rfl

/-- Settles O30: only a command that starts and COLMOD's parameter change the phase, and the invariant says in which
phases COLMOD takes its parameter. -/
theorem phaseMachine : Obligations.PhaseMachine := by
  unfold Obligations.PhaseMachine
  intro i s t hinv ht hreset hinit hne
  have hc : s.cfg.opcsDistinct = true := Config.wf_opcs hinv.legal.1
  cases he : encode s.cfg i with
  | packet bytes => exact absurd (exec_packet_phase hc he hreset hinit ht) hne
  | unit u =>
    rw [exec_unit he, Host.Outcome.next.injEq] at ht
    subst ht
    rcases encode_unit_cases he with ⟨k, rfl, rfl⟩ | ⟨b, rfl, rfl⟩
    · obtain ⟨ha, hctl⟩ := xfer_command_phase hc hne
      cases k with
      | swreset => exact .inl ⟨rfl, by rw [hctl]; rfl⟩
      | slpout => exact .inr (.inl ⟨rfl, by simpa [admits] using ha, by rw [hctl]; rfl⟩)
      | dispon => exact .inr (.inr (.inr (.inl ⟨rfl, by simpa [admits] using ha, by rw [hctl]; rfl⟩)))
      | dispoff => exact .inr (.inr (.inr (.inr ⟨rfl, by simpa [admits] using ha, by rw [hctl]; rfl⟩)))
      | caset | raset | ramwr | madctl | colmod =>
        exact absurd ((xfer_command_kept hc (by simp)).phase (by simp) (by simp) (by simp)) hne
    · obtain ⟨rfl, hk, hphase⟩ := xfer_data_phase hne
      refine .inr (.inr (.inl ⟨rfl, hk, ?_, hphase⟩))
      exact (hinv.phase.colmodCmd hk).resolve_right fun h => hne (hphase.trans h.symm)

end Sys2Proof.Machine
end

section
/-! PROOFS. RESET and INIT (42_controller_protocol.md R190, R191): the reset steps as an instruction, and the four units
of INIT. -/
namespace Sys2Proof.Machine

variable {s : State} {cfg : Config} {c : Controller}

/-- Settles O14: the reset steps write the reset line and the Controller alone, and the operation steps the pc. -/
theorem resetInstruction : Obligations.ResetInstruction := by
  unfold Obligations.ResetInstruction
  exact ⟨fun _ => rfl, fun s => congrArg (fun t => complete (.ok t)) (opReset_eq s)⟩

/-- The units of INIT after SLPOUT take the Controller from SleepOut to On (42_controller_protocol.md R191). -/
theorem feed_colmodDispon (hc : cfg.opcsDistinct = true) (hs : c.settle = none) (hcl : c.closable = true)
    (hp : c.phase = .sleepOut) :
    feed cfg [cmdUnit cfg .colmod, dataUnit cfg.colmod16, cmdUnit cfg .dispon] c =
      .ok { c.closed with phase := .on, colmod := some cfg.colmod16 } := by
  have hcolmod := receive_command (k := .colmod) hc hs hcl (by simp [admits, hp])
  have hformat : receive cfg .inactive (dataUnit cfg.colmod16) { c.closed with cmd := some .colmod, pbuf := [] } =
      .ok { c.closed with
        cmd := some .colmod, pbuf := [cfg.colmod16], colmod := some cfg.colmod16, phase := .colorModeSet } := by
    rw [receive_onlyParam (k := .colmod) (by exact hs) rfl rfl rfl]
    exact latchColmod_colmod16 rfl
  refine (feed_cons_ok hcolmod).trans ((feed_cons_ok hformat).trans ?_)
  rw [feed_singleton]
  exact receive_command (k := .dispon) hc hs rfl rfl

/-- With the bus open and no stall INIT completes, from every phase (42_controller_protocol.md R191). -/
theorem opInit_ok (hb : s.busOpen = true) (hst : s.stall = none) (hc : s.cfg.opcsDistinct = true) :
    opInit s = .ok (((opReset s).carryAll [cmdUnit s.cfg .slpout, cmdUnit s.cfg .colmod, dataUnit s.cfg.colmod16,
      cmdUnit s.cfg .dispon]).setCtl { Controller.powerOn with phase := .on, colmod := some s.cfg.colmod16 }) := by
  simp only [opInit, opReset_eq]
  have hslpout := xfer_ok (u := cmdUnit s.cfg .slpout)
    (s := { s with rst := .inactive, ctl := { Controller.powerOn with phase := .resetting } }) hb hst
    (receive_command (k := .slpout) hc rfl rfl rfl)
  rw [hslpout, Run.andThen_ok]
  exact sendAll_ok hb hst rfl (feed_colmodDispon hc rfl rfl rfl)

/-- Settles O15: after the reset steps INIT's four units go through, or the first of them finds the bus closed. -/
theorem initInstruction : Obligations.InitInstruction := by
  unfold Obligations.InitInstruction
  refine ⟨fun _ => rfl, fun s hb hst hc => ?_, fun s hb hf => ?_⟩
  · refine (congrArg complete (opInit_ok hb hst hc)).trans ?_
    simp [opReset_eq, State.carry, State.setCtl, State.advancePc, Controller.powerOn, cmdUnit, dataUnit, opcOf]
  · refine (congrArg complete (opInit_closed hb)).trans ?_
    rw [complete_stop, opReset_eq, State.raise_fault _ (by exact hf)]
    rfl

end Sys2Proof.Machine
end

section
/-! PROOFS. The drawing gate (42_controller_protocol.md R207): every operation that has it starts with it, and nothing
else raises `NotOn`. -/
namespace Sys2Proof.Machine

variable {s t : State} {i : Instr} {op : Byte}

/-! ### The operations with the gate -/

/-- Every operation with the drawing gate runs the gate of its own opcode first. -/
theorem exec_gated (hi : gatedOpcode i = some op) (s : State) :
    ∃ k f, exec i s = complete ((gate k s).andThen f) ∧ k.code = op := by
  cases i <;> cases hi <;> exact ⟨_, _, rfl, rfl⟩

/-- Outside phase On an operation with the drawing gate raises `NotOn` and does nothing else. -/
theorem exec_notOn (hi : gatedOpcode i = some op) (hp : s.ctl.phase ≠ .on) (hf : s.fault = none) :
    exec i s = .next { s with fault := some ⟨.notOn op, s.pc⟩ } := by
  obtain ⟨k, f, hexec, rfl⟩ := exec_gated hi s
  rw [hexec, gate_off hp, Run.andThen_stop, complete_stop, State.raise_fault _ hf]

/-! ### What the Controller raises -/

/-- The answer is no `NotOn`, which the Controller never raises. -/
def CtlResult.NoNotOn : CtlResult → Prop
  | .ok _ => True
  | .raised _ f => ∀ op, f ≠ .notOn op

theorem startCommand_noNotOn (k : Command) (c : Controller) : (startCommand k c).NoNotOn := by
  cases k with
  | ramwr =>
    simp only [startCommand, startRamwr]
    repeat' split
    all_goals simp [CtlResult.NoNotOn]
  | swreset | slpout | dispoff | dispon | caset | raset | madctl | colmod => trivial

theorem commandByte_noNotOn (cfg : Config) (b : Byte) (c : Controller) : (commandByte cfg b c).NoNotOn := by
  unfold commandByte
  rcases closeCommand_cases c with hcl | ⟨p, hcl⟩ <;> rw [hcl]
  · simp only
    split
    · simp [CtlResult.NoNotOn]
    · split
      · exact startCommand_noNotOn _ _
      · simp [CtlResult.NoNotOn]
  · simp [CtlResult.NoNotOn]

theorem latch_noNotOn (cfg : Config) (k : Command) (c : Controller) : (latch cfg k c).NoNotOn := by
  unfold latch
  split
  · unfold latchColmod
    split <;> simp [CtlResult.NoNotOn]
  · unfold latchMadctl
    split <;> simp [CtlResult.NoNotOn]
  all_goals trivial

theorem paramByte_noNotOn (cfg : Config) (k : Command) (b : Byte) (c : Controller) :
    (paramByte cfg k b c).NoNotOn := by
  unfold paramByte
  simp only
  split
  · simp [CtlResult.NoNotOn]
  · split
    · exact latch_noNotOn cfg k _
    · trivial

theorem memWrite_noNotOn (cfg : Config) (x y : Nat) (col : Color) (c : Controller) :
    (memWrite cfg x y col c).NoNotOn := by
  unfold memWrite
  simp only
  split <;> simp [CtlResult.NoNotOn]

theorem advancePointer_noNotOn (c : Controller) : (advancePointer c).NoNotOn := by
  unfold advancePointer
  repeat' split
  all_goals simp [CtlResult.NoNotOn]

theorem pixelByte_noNotOn (cfg : Config) (b : Byte) (c : Controller) : (pixelByte cfg b c).NoNotOn := by
  unfold pixelByte
  simp only
  split
  · trivial
  · split
    · simp [CtlResult.NoNotOn]
    · split
      · rename_i h _ _ _ _ x y _ _
        have hwrite := memWrite_noNotOn cfg x.toNat y.toNat (be16 h b) { c with hi := none }
        split
        · exact advancePointer_noNotOn _
        · rename_i hm
          rwa [hm] at hwrite
      · simp [CtlResult.NoNotOn]

theorem dataByte_noNotOn (cfg : Config) (b : Byte) (c : Controller) : (dataByte cfg b c).NoNotOn := by
  unfold dataByte
  split
  · simp [CtlResult.NoNotOn]
  · exact paramByte_noNotOn ..
  · exact paramByte_noNotOn ..
  · exact paramByte_noNotOn ..
  · exact paramByte_noNotOn ..
  · exact pixelByte_noNotOn ..
  all_goals trivial

/-- The Controller never raises `NotOn` (41_controller_commands.md R140). -/
theorem receive_noNotOn (cfg : Config) (rst : Level) (u : BusUnit) (c : Controller) :
    (receive cfg rst u c).NoNotOn := by
  unfold receive
  split
  · simp [CtlResult.NoNotOn]
  · split
    · simp [CtlResult.NoNotOn]
    · split
      · exact commandByte_noNotOn ..
      · exact dataByte_noNotOn ..

/-! ### The instructions without the gate -/

/-- The fault record is no `NotOn`. -/
def State.NoNotOn (s : State) : Prop := ∀ op n, s.fault ≠ some ⟨.notOn op, n⟩

/-- A raise of another fault records no `NotOn`. -/
theorem State.NoNotOn.raise {f : FaultInfo} (h : s.NoNotOn) (hf : ∀ op, f ≠ .notOn op) : (s.raise f).NoNotOn := by
  cases hs : s.fault with
  | some r => rwa [State.raise_sticky f hs]
  | none =>
    rw [State.raise_fault f hs]
    intro op n hrec
    cases hrec
    exact hf op rfl

/-- A transfer records no `NotOn`: it raises `BusClosed` or what the Controller raises (40_bus_transport.md R124). -/
theorem xfer_noNotOn (u : BusUnit) (h : s.NoNotOn) : (xfer u s).state.NoNotOn := by
  rcases xfer_cases u s with ⟨-, hx⟩ | ⟨-, c, f, hr, hx⟩ | ⟨-, c, -, ⟨-, hx⟩ | ⟨-, hx⟩ | ⟨n, -, hx⟩⟩ <;> rw [hx]
  · exact h.raise (by simp)
  · have hf := receive_noNotOn s.cfg s.rst u s.ctl
    rw [hr] at hf
    exact State.NoNotOn.raise (s := (s.startTransfer u).setCtl c) h hf
  all_goals exact h

/-- INIT records no `NotOn`: its transfers record none (42_controller_protocol.md R191). -/
theorem opInit_noNotOn (h : s.NoNotOn) : (opInit s).state.NoNotOn := by
  have hreset : (opReset s).NoNotOn := by
    rw [opReset_eq]
    exact h
  exact andThen_induct (P := State.NoNotOn) (xfer_noNotOn _ hreset) fun t ht =>
    runAll_induct (fun u _ _ hv => xfer_noNotOn u hv) (wait .slpout t) ht

/-- An instruction without the drawing gate records no `NotOn`. -/
theorem exec_noNotOn (hi : gatedOpcode i = none) (h : s.NoNotOn) (ht : exec i s = .next t) : t.NoNotOn := by
  cases he : encode s.cfg i with
  | unit u =>
    rw [exec_unit he, Host.Outcome.next.injEq] at ht
    exact ht ▸ xfer_noNotOn u h
  | packet bytes =>
    cases i <;> simp only [gatedOpcode, encode, reduceCtorEq] at hi he
    case busOpen | busClose | isqrt => cases ht; exact h
    case reset =>
      cases ht
      simpa [State.NoNotOn, opReset_eq] using h
    case init =>
      have hrun := opInit_noNotOn h
      rcases complete_cases ht with ⟨u, hu, rfl⟩ | hu <;> rw [hu] at hrun <;> exact hrun

/-- Settles O32: an operation with the gate starts with it, and only the gate raises `NotOn`. -/
theorem drawingGate : Obligations.DrawingGate := by
  unfold Obligations.DrawingGate
  refine ⟨fun i op s hi hp hf => exec_notOn hi hp hf, fun i s t op n hi hf ht => ?_⟩
  exact exec_noNotOn hi (by simp [State.NoNotOn, hf]) ht op n

end Sys2Proof.Machine
end

section
/-! PROOFS. SET_ORIENT (42_controller_protocol.md R194, R195): its two units, and its frame whatever its outcome. -/
namespace Sys2Proof.Machine

variable {s t : State} {cfg : Config} {c d e : Controller} {o : Orient}

/-! ### The units that go through -/

/-- MADCTL and the code of an orientation select it (41_controller_commands.md R158). -/
theorem feed_madctl (hcfg : cfg.wf = true) (hs : c.settle = none) (hcl : c.closable = true) (hp : c.phase = .on) :
    feed cfg [cmdUnit cfg .madctl, dataUnit (orientCodeOf cfg o)] c =
      .ok { c with orient := o, cmd := some .madctl, pbuf := [orientCodeOf cfg o], hi := none } := by
  have hmadctl := receive_command (k := .madctl) (Config.wf_opcs hcfg) hs hcl (by simp [admits, hp])
  refine (feed_cons_ok hmadctl).trans ?_
  rw [feed_singleton, receive_onlyParam (k := .madctl) (by exact hs) rfl rfl rfl]
  exact latchMadctl_orientCodeOf (Config.wf_orientCodes hcfg) o

/-- A block that can draw takes both units of SET_ORIENT (42_controller_protocol.md R194). -/
theorem opSetOrient_ok (h : Drawing s) (deg : Word) :
    opSetOrient deg s = .ok
      ((s.carryAll [cmdUnit s.cfg .madctl, dataUnit (orientCodeOf s.cfg (orientOfDegrees deg))]).setCtl
        { s.ctl with
          orient := orientOfDegrees deg, cmd := some .madctl
          pbuf := [orientCodeOf s.cfg (orientOfDegrees deg)], hi := none }) := by
  rw [opSetOrient, gate_on h.phase, Run.andThen_ok]
  exact sendAll_ok h.busOpen h.stall h.rst (feed_madctl h.codes h.settle h.closable h.phase)

/-- A sequence of units over a closed bus faults on its first (40_bus_transport.md R124). -/
theorem sendAll_closed (hb : s.busOpen = false) (v : BusUnit) (us : List BusUnit) :
    sendAll (v :: us) s = .stop (s.raise (.busClosed v.dc v.byte)) := by
  rw [sendAll, runAll_cons, xfer_closed hb, Run.andThen_stop]

/-- With the bus closed SET_ORIENT faults on MADCTL. -/
theorem opSetOrient_closed (hp : s.ctl.phase = .on) (hb : s.busOpen = false) (deg : Word) :
    opSetOrient deg s = .stop (s.raise (.busClosed .cmd s.cfg.opcMadctl)) := by
  rw [opSetOrient, gate_on hp, Run.andThen_ok, sendAll_closed hb]
  rfl

/-! ### The frame -/

/-- The pc step is in the frame of the Engine (10_state.md R24). -/
theorem EngineKept.advancePc (h : EngineKept s t) : EngineKept s t.advancePc :=
  ⟨h.cfg, h.ops, h.host, h.reads, h.bench, h.busOpen, h.rst, h.sqrt⟩

/-- The transfers and the raises keep the Engine's frame. -/
theorem stable_engineKept (s : State) : Stable (EngineKept s) where
  xfer u _ h := h.trans (xfer_sent u _).toEngineKept
  raise f t h := h.trans (.raise t f)

/-- What SET_ORIENT leaves of the Controller: all but the orientation and the decoder. -/
structure OrientKept (c d : Controller) : Prop where
  phase : d.phase = c.phase
  settle : d.settle = c.settle
  colmod : d.colmod = c.colmod
  xs : d.xs = c.xs
  xe : d.xe = c.xe
  ys : d.ys = c.ys
  ye : d.ye = c.ye
  gram : d.gram = c.gram
  wpX : d.wpX = c.wpX
  wpY : d.wpY = c.wpY
  wpDone : d.wpDone = c.wpDone

theorem OrientKept.refl (c : Controller) : OrientKept c c := by constructor <;> rfl

/-- A MADCTL command unit keeps the frame. -/
theorem CommandKept.orientKept (h : CommandKept .madctl c d) : OrientKept c d := by
  obtain ⟨hwpX, hwpY, hdone⟩ := h.pointer (by simp)
  exact ⟨h.phase (by simp) (by simp) (by simp), h.settle (by simp), h.colmod, h.xs, h.xe, h.ys, h.ye, h.gram, hwpX,
    hwpY, hdone⟩

/-- A data unit for MADCTL keeps the frame. -/
theorem DataKept.orientKept (h : DataKept cfg c d) (hk : c.cmd = some .madctl) : OrientKept c d := by
  obtain ⟨hphase, hcolmod⟩ := h.format (by simp [hk])
  obtain ⟨hxs, hxe⟩ := h.columns (by simp [hk])
  obtain ⟨hys, hye⟩ := h.rows (by simp [hk])
  obtain ⟨hgram, hwpX, hwpY, hdone, -⟩ := h.stream (by simp [hk])
  exact ⟨hphase, h.settle, hcolmod, hxs, hxe, hys, hye, hgram, hwpX, hwpY, hdone⟩

theorem OrientKept.trans (h : OrientKept c d) (k : OrientKept d e) : OrientKept c e :=
  ⟨k.phase.trans h.phase, k.settle.trans h.settle, k.colmod.trans h.colmod, k.xs.trans h.xs, k.xe.trans h.xe,
    k.ys.trans h.ys, k.ye.trans h.ye, k.gram.trans h.gram, k.wpX.trans h.wpX, k.wpY.trans h.wpY,
    k.wpDone.trans h.wpDone⟩

/-- SET_ORIENT, whatever its outcome, keeps its frame on the Controller (42_controller_protocol.md R194). -/
theorem opSetOrient_orientKept (hc : s.cfg.opcsDistinct = true) (deg : Word) :
    OrientKept s.ctl (opSetOrient deg s).state.ctl := by
  unfold opSetOrient gate
  split
  · rw [Run.andThen_ok, sendAll, runAll_cons]
    have hmadctl := (xfer_command_kept hc (k := .madctl) (by simp)).orientKept
    cases hx : xfer (cmdUnit s.cfg .madctl) s with
    | stop u => rwa [hx] at hmadctl
    | ok u =>
      rw [hx] at hmadctl
      have hcmd : u.ctl.cmd = some .madctl := by rw [← CtlResult.ok.inj (xfer_command_ok hc hx)]
      rw [Run.andThen_ok, runAll_singleton]
      exact hmadctl.trans ((xfer_data_kept _).orientKept hcmd)
  · rw [raiseStop, Run.andThen_stop, Run.state_stop, State.raise_ctl]
    exact .refl s.ctl

/-- SET_ORIENT, whatever its outcome, keeps the Engine's frame. -/
theorem opSetOrient_engineKept (deg : Word) (s : State) : EngineKept s (opSetOrient deg s).state :=
  (stable_engineKept s).gate (.refl s) .setOrient fun _ ht => (stable_engineKept s).sendAll ht _

/-- The index of SET_ORIENT compares words (42_controller_protocol.md R195). -/
theorem orientOfDegrees_eq (deg : Word) : orientOfDegrees deg =
    if deg = 90 then .o90 else if deg = 180 then .o180 else if deg = 270 then .o270 else .o0 := by
  simp only [orientOfDegrees, ← BitVec.toNat_inj]
  rfl

/-- Settles O33: both units go through, or the gate or the closed bus stops them; the frame holds for the gate, for
MADCTL and for its parameter. -/
theorem setOrientResult : Obligations.SetOrientResult := by
  unfold Obligations.SetOrientResult
  refine ⟨fun _ _ => rfl, orientOfDegrees_eq, by decide, fun s deg h => ?_, fun s deg hp hf => exec_notOn rfl hp hf,
    fun s deg hp hb hf => ?_, fun s t deg hc ht => ?_⟩
  · exact congrArg complete (opSetOrient_ok h deg)
  · refine (congrArg complete (opSetOrient_closed hp hb deg)).trans ?_
    rw [complete_stop, State.raise_fault _ hf]
  · have hengine := opSetOrient_engineKept deg s
    obtain ⟨hphase, hsettle, hcolmod, hxs, hxe, hys, hye, hgram, hwpX, hwpY, hdone⟩ :=
      complete_ctl ht ▸ opSetOrient_orientKept hc deg
    refine ⟨?_, hphase, hsettle, hcolmod, hxs, hxe, hys, hye, hgram, hwpX, hwpY, hdone⟩
    rcases complete_cases ht with ⟨u, hu, rfl⟩ | hu <;> rw [hu] at hengine
    · exact hengine.advancePc
    · exact hengine

end Sys2Proof.Machine
end

section
/-! PROOFS. SET_WINDOW (42_controller_protocol.md R200, R201): its checks in order, over integers, and the units of a
window that passes them. -/
namespace Sys2Proof.Machine

variable {s : State} {x0 y0 x1 y1 : Int} {b0 b1 b2 b3 : Byte}

/-! ### Small words -/

/-- The high byte of a word below 256. -/
theorem hi8_word {x : Int} (h0 : 0 ≤ x) (h : x < 256) : hi8 (word x) = 0 := by
  apply BitVec.eq_of_toNat_eq
  rw [hi8_toNat, word, BitVec.toNat_ofInt]
  change _ = 0
  omega

/-- The low byte of a word. -/
theorem lo8_word (x : Int) : lo8 (word x) = BitVec.ofInt 8 x := by
  apply BitVec.eq_of_toNat_eq
  rw [lo8_toNat, word, BitVec.toNat_ofInt, BitVec.toNat_ofInt]
  omega

/-- The bytes of a word below 256, on the bus (20_memory.md R64). -/
theorem wordUnits_word {x : Int} (h0 : 0 ≤ x) (h : x < 256) :
    wordUnits (word x) = [⟨.data, 0⟩, ⟨.data, BitVec.ofInt 8 x⟩] := by
  rw [wordUnits, hi8_word h0 h, lo8_word]
  rfl

/-- A byte operand, as a byte again. -/
theorem ofInt_int8 (b : Byte) : BitVec.ofInt 8 (int8 b) = b := by
  rw [int8, Int.ofNat_eq_natCast, BitVec.ofInt_natCast, BitVec.ofNat_toNat, BitVec.setWidth_eq]

/-- A byte operand, as a word. -/
theorem word_int8 (b : Byte) : word (int8 b) = b.setWidth 16 := by
  rw [int8, Int.ofNat_eq_natCast, word_natCast, BitVec.ofNat_toNat]

/-! ### The outcomes -/

/-- A pc step before a sequence of transfers is one after it. -/
theorem State.advancePc_carryAll (s : State) (us : List BusUnit) :
    s.advancePc.carryAll us = (s.carryAll us).advancePc := by
  induction us generalizing s with
  | nil => rfl
  | cons u us ih => exact ih (s.carry u)

/-- A whole operation whose units all go through steps the pc and sends them. -/
theorem complete_carryAll (s : State) (us : List BusUnit) (c : Controller) :
    complete (.ok ((s.carryAll us).setCtl c)) = .next (({ s with pc := s.pc + 1 }.carryAll us).setCtl c) := by
  change _ = Host.Outcome.next ((s.advancePc.carryAll us).setCtl c)
  rw [State.advancePc_carryAll]
  rfl

/-- A window in the frame has coordinates below 256. -/
theorem WindowIn.lt {o : Orient} (hw : WindowIn o x0 y0 x1 y1) : x0 < 256 ∧ x1 < 256 ∧ y0 < 256 ∧ y1 < 256 := by
  obtain ⟨-, hx, hX, -, hy, hY⟩ := hw
  have := frameW_le o
  have := frameH_le o
  simp only [Int.ofNat_eq_natCast] at hX hY
  omega

/-- The units of a window in the frame, byte by byte (42_controller_protocol.md R200). -/
theorem windowUnits_inFrame {o : Orient} (cfg : Config) (hw : WindowIn o x0 y0 x1 y1) :
    windowUnits cfg x0 y0 x1 y1 =
      [⟨.cmd, cfg.opcCaset⟩, ⟨.data, 0⟩, ⟨.data, BitVec.ofInt 8 x0⟩, ⟨.data, 0⟩, ⟨.data, BitVec.ofInt 8 x1⟩,
       ⟨.cmd, cfg.opcRaset⟩, ⟨.data, 0⟩, ⟨.data, BitVec.ofInt 8 y0⟩, ⟨.data, 0⟩, ⟨.data, BitVec.ofInt 8 y1⟩] := by
  obtain ⟨hltX0, hltX1, hltY0, hltY1⟩ := hw.lt
  obtain ⟨hx0, hx, -, hy0, hy, -⟩ := hw
  rw [windowUnits, wordUnits_word hx0 hltX0, wordUnits_word (Int.le_trans hx0 hx) hltX1, wordUnits_word hy0 hltY0,
    wordUnits_word (Int.le_trans hy0 hy) hltY1]
  rfl

/-- The Controller after SET_WINDOW of a window in the frame, byte by byte. -/
theorem windowSet_inFrame {o : Orient} (c : Controller) (hw : WindowIn o x0 y0 x1 y1) :
    c.windowSet (word x0) (word y0) (word x1) (word y1) =
      { c with
        xs := some (word x0), xe := some (word x1), ys := some (word y0), ye := some (word y1), cmd := some .raset
        pbuf := [0, BitVec.ofInt 8 y0, 0, BitVec.ofInt 8 y1], hi := none } := by
  obtain ⟨-, -, hltY0, hltY1⟩ := hw.lt
  obtain ⟨-, -, -, hy0, hy, -⟩ := hw
  rw [Controller.windowSet, hi8_word hy0 hltY0, lo8_word, hi8_word (Int.le_trans hy0 hy) hltY1, lo8_word]

/-- SET_WINDOW checks the window's form first (42_controller_protocol.md R200). -/
theorem opSetWindow_malformed (hp : s.ctl.phase = .on) (hw : x1 < x0 ∨ y1 < y0) :
    opSetWindow x0 y0 x1 y1 s = .stop (s.raise (.malformedWindow x0 y0 x1 y1)) := by
  rw [opSetWindow, gate_on hp, Run.andThen_ok, if_pos hw, raiseStop]

/-- SET_WINDOW checks the frame next (42_controller_protocol.md R200). -/
theorem opSetWindow_outOfBounds (hp : s.ctl.phase = .on) (hx : x0 ≤ x1) (hy : y0 ≤ y1)
    (hout : x0 < 0 ∨ y0 < 0 ∨ Int.ofNat (frameW s.ctl.orient) ≤ x1 ∨ Int.ofNat (frameH s.ctl.orient) ≤ y1) :
    opSetWindow x0 y0 x1 y1 s = .stop (s.raise (.outOfBounds x0 y0 x1 y1)) := by
  rw [opSetWindow, gate_on hp, Run.andThen_ok, if_neg (by omega), if_pos hout, raiseStop]

/-- SET_WINDOW of a window in the frame faults on CASET with the bus closed. -/
theorem opSetWindow_closed (hp : s.ctl.phase = .on) (hb : s.busOpen = false)
    (hw : WindowIn s.ctl.orient x0 y0 x1 y1) :
    opSetWindow x0 y0 x1 y1 s = .stop (s.raise (.busClosed .cmd s.cfg.opcCaset)) := by
  obtain ⟨hx0, hx, hX, hy0, hy, hY⟩ := hw
  rw [opSetWindow, gate_on hp, Run.andThen_ok, if_neg (by omega), if_neg (by omega)]
  exact sendAll_closed hb _ _

/-- A stopped operation with its fault newly recorded is a next state (60_exceptions.md R300). -/
theorem complete_raised {r : Run} {f : FaultInfo} (hr : r = .stop (s.raise f)) (hf : s.fault = none) :
    complete r = .next { s with fault := some ⟨f, s.pc⟩ } := by
  rw [hr, complete_stop, State.raise_fault _ hf]

/-- A window of bytes in the frame, as integers. -/
theorem windowIn_int8 {o : Orient} (hx : b0.toNat ≤ b2.toNat) (hy : b1.toNat ≤ b3.toNat) (hX : b2.toNat < frameW o)
    (hY : b3.toNat < frameH o) : WindowIn o (int8 b0) (int8 b1) (int8 b2) (int8 b3) :=
  ⟨Int.natCast_nonneg _, Int.ofNat_le.2 hx, Int.ofNat_lt.2 hX, Int.natCast_nonneg _, Int.ofNat_le.2 hy,
    Int.ofNat_lt.2 hY⟩

/-- Settles O34: the gate, the two checks and the closed bus each stop it, and a window that passes is latched; the
instruction is the sub-operation on its bytes. -/
theorem setWindowResult : Obligations.SetWindowResult := by
  unfold Obligations.SetWindowResult
  refine ⟨fun _ _ _ _ _ => rfl, fun s x0 y0 x1 y1 => ⟨fun hp hf => ?_, fun hp hf hw => ?_, fun hp hf hx hy hout => ?_,
    fun hp hf hb hw => ?_, fun h hw => ?_⟩, fun s x0 y0 x1 y1 => ⟨fun hp hf => exec_notOn rfl hp hf,
    fun hp hf hw => ?_, fun hp hf hx hy hout => ?_, fun hp hf hx hy hX hY hb => ?_, fun h hx hy hX hY => ?_⟩⟩
  · rw [opSetWindow, gate_off hp, Run.andThen_stop, State.raise_fault _ hf]
    rfl
  · rw [opSetWindow_malformed hp hw, State.raise_fault _ hf]
  · rw [opSetWindow_outOfBounds hp hx hy hout, State.raise_fault _ hf]
  · rw [opSetWindow_closed hp hb hw, State.raise_fault _ hf]
  · rw [opSetWindow_ok h hw, windowUnits_inFrame _ hw, windowSet_inFrame _ hw]
    rfl
  · exact complete_raised (opSetWindow_malformed hp (hw.imp Int.ofNat_lt.2 Int.ofNat_lt.2)) hf
  · exact complete_raised (opSetWindow_outOfBounds hp (Int.ofNat_le.2 hx) (Int.ofNat_le.2 hy)
      (.inr (.inr (hout.imp Int.ofNat_le.2 Int.ofNat_le.2)))) hf
  · exact complete_raised (opSetWindow_closed hp hb (windowIn_int8 hx hy hX hY)) hf
  · have hw := windowIn_int8 hx hy hX hY
    refine (congrArg complete (opSetWindow_ok h hw)).trans ?_
    rw [windowUnits_inFrame _ hw, windowSet_inFrame _ hw]
    simp only [ofInt_int8, word_int8]
    exact complete_carryAll s _ _

end Sys2Proof.Machine
end

section
/-! PROOFS. WRITE_PIXELS (42_controller_protocol.md R204): its checks in order, and the pixels over the latched
window. -/
namespace Sys2Proof.Machine

variable {s : State} {c : Color} {n : Nat} {xs xe ys ye : Word}

/-! ### Words, areas and cells -/

theorem int16_nonneg (w : Word) : 0 ≤ int16 w := Int.natCast_nonneg _

/-- A 16-bit operand, as a word again. -/
theorem word_int16 (w : Word) : word (int16 w) = w := by
  rw [int16, Int.ofNat_eq_natCast, word_natCast, BitVec.ofNat_toNat, BitVec.setWidth_eq]

/-- The area of a well-formed window of words (20_memory.md R61). -/
theorem windowArea_eq (hx : xs.toNat ≤ xe.toNat) (hy : ys.toNat ≤ ye.toNat) :
    windowArea xs xe ys ye = ((xe.toNat - xs.toNat + 1) * (ye.toNat - ys.toNat + 1) : Nat) := by
  have hw : int16 xe - int16 xs + 1 = (xe.toNat - xs.toNat + 1 : Nat) := by
    simp only [int16, Int.ofNat_eq_natCast]
    omega
  have hh : int16 ye - int16 ys + 1 = (ye.toNat - ys.toNat + 1 : Nat) := by
    simp only [int16, Int.ofNat_eq_natCast]
    omega
  rw [windowArea, hw, hh, Int.natCast_mul]

/-- The cells of the first n positions of a window, by their place in the row-major order (20_memory.md R62). -/
theorem map_positionKey_firstPositions {x0 y0 : Int} (hx : 0 ≤ x0) (hy : 0 ≤ y0) (cfg : Config) (o : Orient) (x1 : Int)
    (n : Nat) :
    (firstPositions x0 y0 x1 n).map (positionKey cfg o) = (List.range n).map fun k =>
      cellKey cfg o (x0.toNat + k % (x1 - x0 + 1).toNat) (y0.toNat + k / (x1 - x0 + 1).toNat) := by
  rw [firstPositions, List.map_map]
  refine List.map_congr_left fun k _ => ?_
  simp only [Function.comp, positionKey, nthPosition, toNat_add_natCast hx, toNat_add_natCast hy]

/-! ### The parts and the whole -/

/-- Units that all went through, in a block ready to draw, and left a Controller that is ready again, drew what its
display memory shows. -/
theorem Drawing.streamed {us : List BusUnit} {d : Controller} {ps : List (Int × Int)} (h : Drawing s)
    (hphase : d.phase = s.ctl.phase) (hsettle : d.settle = s.ctl.settle) (hcolmod : d.colmod = s.ctl.colmod)
    (horient : d.orient = s.ctl.orient) (hcl : d.closable = true)
    (hpainted : Painted s ((s.carryAll us).setCtl d) ps c) : Drew 0 s ((s.carryAll us).setCtl d) us ps c where
  cfg := State.carryAll_cfg s us
  ops := State.carryAll_ops s us
  host := State.carryAll_host s us
  reads := State.carryAll_reads s us
  bench := State.carryAll_bench s us
  busOpen := State.carryAll_busOpen s us
  rst := State.carryAll_rst s us
  sqrt := State.carryAll_sqrt s us
  phase := hphase
  settle := hsettle
  colmod := hcolmod
  orient := horient
  pc := State.carryAll_pc s us
  fault := State.carryAll_fault s us
  trace := State.carryAll_trace s us
  busy hb := State.carryAll_busy hb us
  painted := hpainted
  ready :=
    { busOpen := (State.carryAll_busOpen s us).trans h.busOpen
      rst := (State.carryAll_rst s us).trans h.rst
      settle := hsettle.trans h.settle
      stall := (State.carryAll_stall s us).trans h.stall
      phase := hphase.trans h.phase
      closable := hcl
      codes := (congrArg Config.wf (State.carryAll_cfg s us)).trans h.codes }

/-- WRITE_PIXELS without a latched window (42_controller_protocol.md R204). -/
theorem opWritePixels_unset (hp : s.ctl.phase = .on)
    (hw : s.ctl.xs = none ∨ s.ctl.xe = none ∨ s.ctl.ys = none ∨ s.ctl.ye = none) (c : Color) (n : Int) :
    opWritePixels c n s = .stop (s.raise .windowUnset) := by
  rw [opWritePixels, gate_on hp, Run.andThen_ok]
  split
  · simp_all
  · rfl

section
variable (hxs : s.ctl.xs = some xs) (hxe : s.ctl.xe = some xe) (hys : s.ctl.ys = some ys) (hye : s.ctl.ye = some ye)
include hxs hxe hys hye

/-- WRITE_PIXELS over a latched window: the count is checked, then RAMWR goes out, then the pixels
(42_controller_protocol.md R204). -/
theorem opWritePixels_latched (hp : s.ctl.phase = .on) (c : Color) (n : Int) :
    opWritePixels c n s =
      if windowArea xs xe ys ye < n then .stop (s.raise (.windowOverrun (.count n)))
      else (xfer (cmdUnit s.cfg .ramwr) s).andThen (sendAll (pixelUnits c n.toNat)) := by
  have hpixels := funext fun t => repeatRun_pixels c n.toNat t
  simp only [opWritePixels, gate_on hp, Run.andThen_ok, hxs, hxe, hys, hye, hpixels, raiseStop]

/-- A latched window that is well-formed and in the frame, as numbers (20_memory.md R61). -/
theorem windowHolds_latched (hx : xs.toNat ≤ xe.toNat) (hy : ys.toNat ≤ ye.toNat)
    (hX : xe.toNat < frameW s.ctl.orient) (hY : ye.toNat < frameH s.ctl.orient) :
    WindowHolds s.ctl ⟨xs.toNat, ys.toNat, xe.toNat - xs.toNat + 1, ye.toNat - ys.toNat + 1⟩ where
  w := Nat.succ_pos _
  h := Nat.succ_pos _
  xs := by rw [hxs, BitVec.ofNat_toNat, BitVec.setWidth_eq]
  xe := by rw [hxe, ← Nat.add_assoc, Nat.add_sub_cancel' hx, Nat.add_sub_cancel, BitVec.ofNat_toNat, BitVec.setWidth_eq]
  ys := by rw [hys, BitVec.ofNat_toNat, BitVec.setWidth_eq]
  ye := by rw [hye, ← Nat.add_assoc, Nat.add_sub_cancel' hy, Nat.add_sub_cancel, BitVec.ofNat_toNat, BitVec.setWidth_eq]
  inX := by simp only; omega
  inY := by simp only; omega

/-- With the bus closed WRITE_PIXELS faults on RAMWR. -/
theorem opWritePixels_closed (hp : s.ctl.phase = .on) (hb : s.busOpen = false) {k : Int}
    (hk : k ≤ windowArea xs xe ys ye) (c : Color) :
    opWritePixels c k s = .stop (s.raise (.busClosed .cmd s.cfg.opcRamwr)) := by
  rw [opWritePixels_latched hxs hxe hys hye hp, if_neg (Int.not_lt.2 hk), xfer_closed hb, Run.andThen_stop]
  rfl

/-- Over a window that an orientation change has put outside the frame WRITE_PIXELS faults on RAMWR
(42_controller_protocol.md R204, 41_controller_commands.md R159). -/
theorem opWritePixels_outOfBounds (h : Drawing s) (hf : s.fault = none) (hx : xs.toNat ≤ xe.toNat)
    (hy : ys.toNat ≤ ye.toNat) (hout : frameW s.ctl.orient ≤ xe.toNat ∨ frameH s.ctl.orient ≤ ye.toNat)
    (hn : n ≤ (xe.toNat - xs.toNat + 1) * (ye.toNat - ys.toNat + 1)) (c : Color) :
    ∃ t, opWritePixels c n s = .stop t ∧ Refused (cmdUnit s.cfg .ramwr) s.ctl.closed
      (.outOfBounds (int16 xs) (int16 ys) (int16 xe) (int16 ye)) s t := by
  have hstart := startRamwr_latched (c := s.ctl.closed) hxs hxe hys hye
  rw [if_neg (by omega), if_pos (by exact hout)] at hstart
  have hreceive :=
    receive_command (k := .ramwr) (Config.wf_opcs h.codes) h.settle h.closable (by simp [admits, h.phase])
  obtain ⟨t, ht, hrefused⟩ := h.toLinkUp.xfer_refused hf (hreceive.trans hstart)
  refine ⟨t, ?_, hrefused⟩
  rw [opWritePixels_latched hxs hxe hys hye h.phase, windowArea_eq hx hy, if_neg (by omega), ht, Run.andThen_stop]

/-- The pixels of WRITE_PIXELS over a latched window in the frame (42_controller_protocol.md R202, R204). -/
theorem opWritePixels_drew (h : Drawing s) (hmap : MapsWf s.cfg) (hx : xs.toNat ≤ xe.toNat)
    (hy : ys.toNat ≤ ye.toNat) (hX : xe.toNat < frameW s.ctl.orient) (hY : ye.toNat < frameH s.ctl.orient)
    (hn : n ≤ (xe.toNat - xs.toNat + 1) * (ye.toNat - ys.toNat + 1)) (c : Color) :
    ∃ t, opWritePixels c n s = .ok t ∧
      Drew 0 s t (cmdUnit s.cfg .ramwr :: pixelUnits c n) (firstPositions (int16 xs) (int16 ys) (int16 xe) n) c ∧
      WindowIs t (int16 xs) (int16 ys) (int16 xe) (int16 ye) := by
  refine ⟨_, opWritePixels_ok h hmap (windowHolds_latched hxs hxe hys hye hx hy hX hY) hn c, ?_, ?_⟩
  · refine h.streamed rfl rfl rfl rfl rfl fun a => ?_
    have hwidth : (int16 xe - int16 xs + 1).toNat = xe.toNat - xs.toNat + 1 := by
      simp only [int16, Int.ofNat_eq_natCast]
      omega
    rw [map_positionKey_firstPositions (int16_nonneg xs) (int16_nonneg ys), hwidth]
    exact streamMemory_read ..
  · simp only [WindowIs, word_int16]
    exact ⟨hxs, hys, hxe, hye⟩

end

/-- Settles O35: the gate, the two checks, RAMWR over a closed bus and RAMWR over a window outside the frame each stop
it, and over a window in the frame the pixels go through. -/
theorem writePixelsResult : Obligations.WritePixelsResult := by
  unfold Obligations.WritePixelsResult
  refine ⟨fun _ _ _ => rfl, fun s c n => ⟨fun hp hf => exec_notOn rfl hp hf,
    fun hp hf hw => complete_raised (opWritePixels_unset hp hw c _) hf, fun xs xe ys ye hxs hxe hys hye =>
    ⟨fun hp hf hn => ?_, fun hp hf hb hn => ?_, fun h _ hf hx hy hout hn => ?_, fun h hm hx hy hX hY hn => ?_⟩⟩⟩
  · refine complete_raised ?_ hf
    rw [opWritePixels_latched hxs hxe hys hye hp, if_pos (by exact hn)]
    rfl
  · exact complete_raised (opWritePixels_closed hxs hxe hys hye hp hb hn c) hf
  · obtain ⟨t, ht, hrefused⟩ := opWritePixels_outOfBounds hxs hxe hys hye h hf hx hy hout hn c
    exact ⟨t, congrArg complete ht, hrefused.fault, by rw [hrefused.ctl]; rfl, hrefused.trace⟩
  · obtain ⟨t, ht, hdrew, hwindow⟩ := opWritePixels_drew hxs hxe hys hye h hm hx hy hX hY hn c
    exact ⟨t.advancePc, congrArg complete ht, hdrew.advance, hwindow⟩

end Sys2Proof.Machine
end

section
/-! PROOFS. The units of one window write, counted (42_controller_protocol.md section 4). -/
namespace Sys2Proof.Machine

variable (cfg : Config) (x0 y0 x1 y1 : Int) (c : Color) (n : Nat)

/-- One pixel more is two data units more, at the front. -/
theorem pixelUnits_succ : pixelUnits c (n + 1) = dataUnit (hi8 c) :: dataUnit (lo8 c) :: pixelUnits c n := rfl

/-- n pixels are 2n units. -/
theorem length_pixelUnits : (pixelUnits c n).length = 2 * n := by
  induction n with
  | zero => rfl
  | succ n ih => rw [pixelUnits_succ, List.length_cons, List.length_cons, ih]; rfl

/-- Every unit of a pixel is a data unit. -/
theorem dc_of_mem_pixelUnits {u : BusUnit} (h : u ∈ pixelUnits c n) : u.dc = .data := by
  induction n with
  | zero => cases h
  | succ n ih =>
    rw [pixelUnits_succ, List.mem_cons, List.mem_cons] at h
    rcases h with rfl | rfl | h
    · rfl
    · rfl
    · exact ih h

/-- The units of a pixel hold no command unit. -/
theorem countP_cmd_pixelUnits : (pixelUnits c n).countP (fun u => decide (u.dc = .cmd)) = 0 :=
  List.countP_eq_zero.2 fun u hu => by simp [dc_of_mem_pixelUnits c n hu]

/-- All units of the pixels are data units. -/
theorem countP_data_pixelUnits : (pixelUnits c n).countP (fun u => decide (u.dc = .data)) = 2 * n := by
  rw [← length_pixelUnits c n]
  exact List.countP_eq_length.2 fun u hu => decide_eq_true (dc_of_mem_pixelUnits c n hu)

/-- The k-th pixel is its high byte and then its low byte (20_memory.md R64). -/
theorem getElem?_pixelUnits {n k : Nat} (hk : k < n) :
    (pixelUnits c n)[2 * k]? = some (dataUnit (hi8 c)) ∧ (pixelUnits c n)[2 * k + 1]? = some (dataUnit (lo8 c)) := by
  induction n generalizing k with
  | zero => omega
  | succ n ih =>
    rw [pixelUnits_succ]
    cases k with
    | zero => exact ⟨rfl, rfl⟩
    | succ k => exact ih (Nat.lt_of_succ_lt_succ hk)

/-- The units of a window write up to RAMWR: the ten of SET_WINDOW, and RAMWR itself. -/
def windowWriteHead : List BusUnit := windowUnits cfg x0 y0 x1 y1 ++ [cmdUnit cfg .ramwr]

/-- A window write is SET_WINDOW and RAMWR, then its pixels (42_controller_protocol.md R205). -/
theorem windowWriteUnits_eq :
    windowWriteUnits cfg x0 y0 x1 y1 c n = windowWriteHead cfg x0 y0 x1 y1 ++ pixelUnits c n :=
  List.append_cons ..

/-- Settles O36: eleven units, three of them commands, come before the pixels. -/
theorem windowWriteUnitCounts : Obligations.WindowWriteUnitCounts := by
  unfold Obligations.WindowWriteUnitCounts
  intro cfg x0 y0 x1 y1 c n
  have hlen : (windowWriteHead cfg x0 y0 x1 y1).length = 11 := rfl
  have hcmd : (windowWriteHead cfg x0 y0 x1 y1).countP (fun u => decide (u.dc = .cmd)) = 3 := rfl
  have hdata : (windowWriteHead cfg x0 y0 x1 y1).countP (fun u => decide (u.dc = .data)) = 8 := rfl
  have hpixel (m : Nat) : (windowWriteHead cfg x0 y0 x1 y1 ++ pixelUnits c n)[11 + m]? = (pixelUnits c n)[m]? := by
    rw [List.getElem?_append_right (by omega), hlen, Nat.add_sub_cancel_left]
  rw [windowWriteUnits_eq]
  refine ⟨?_, ?_, ?_, rfl, fun k hk => ?_⟩
  · rw [List.length_append, hlen, length_pixelUnits]
  · rw [List.countP_append, hcmd, countP_cmd_pixelUnits]
  · rw [List.countP_append, hdata, countP_data_pixelUnits, Nat.add_comm]
  · obtain ⟨hhigh, hlow⟩ := getElem?_pixelUnits c hk
    exact ⟨(hpixel (2 * k)).trans hhigh, (show 12 + 2 * k = 11 + (2 * k + 1) by omega) ▸ (hpixel _).trans hlow⟩

end Sys2Proof.Machine
end

section
/-! PROOFS. Lists without repetition: mapped by a function that tells their elements apart, and filling a list that is
no longer than they are. -/
namespace Sys2Proof.Machine

variable {α β : Type}

/-- A function that tells the elements of a list apart maps it without repetition. -/
theorem nodup_map_of_inj {f : α → β} {l : List α} (h : l.Nodup) (hf : ∀ a ∈ l, ∀ b ∈ l, f a = f b → a = b) :
    (l.map f).Nodup := by
  rw [List.Nodup, List.pairwise_map]
  exact h.imp_of_mem fun ha hb hne heq => hne (hf _ ha _ hb heq)

/-- A list without repetition, inside a list that is no longer, holds all of it. -/
theorem mem_of_nodup_of_length_le [DecidableEq α] {l m : List α} (h : l.Nodup) (hsub : ∀ a ∈ l, a ∈ m)
    (hlength : m.length ≤ l.length) {b : α} (hb : b ∈ m) : b ∈ l := by
  induction l generalizing m with
  | nil => rw [List.length_nil, Nat.le_zero, List.length_eq_zero_iff] at hlength; exact hlength ▸ hb
  | cons a l ih =>
    rw [List.nodup_cons] at h
    obtain ⟨hnotin, hnodup⟩ := h
    have ha : a ∈ m := hsub a List.mem_cons_self
    by_cases hba : b = a
    · exact hba ▸ List.mem_cons_self
    · refine List.mem_cons_of_mem a (ih (m := m.erase a) hnodup (fun x hx => ?_) ?_ ?_)
      · have hxa : x ≠ a := fun heq => hnotin (heq ▸ hx)
        exact (List.mem_erase_of_ne hxa).2 (hsub x (List.mem_cons_of_mem a hx))
      · rw [List.length_erase_of_mem ha]
        rw [List.length_cons] at hlength
        omega
      · exact (List.mem_erase_of_ne hba).2 hb

end Sys2Proof.Machine
end

section
/-! PROOFS. The window write that fills its window: its three outcomes. Every plot, span and filled rectangle is one
(43_geometry_basic.md R221 to R224, R228). -/
namespace Sys2Proof.Machine

variable {s : State} {w : Window} {c : Color}

/-! ### Windows -/

theorem Window.faultInfo_malformed (h : w.x1 < w.x0 ∨ w.y1 < w.y0) :
    w.faultInfo = .malformedWindow w.x0 w.y0 w.x1 w.y1 := by
  rw [faultInfo, if_pos h]

theorem Window.faultInfo_outOfBounds (hx : w.x0 ≤ w.x1) (hy : w.y0 ≤ w.y1) :
    w.faultInfo = .outOfBounds w.x0 w.y0 w.x1 w.y1 := by
  rw [faultInfo, if_neg (by omega)]

theorem pointWindow_in {o : Orient} {p : Int × Int} : (pointWindow p).In o ↔ InFrame o p := by
  simp only [Window.In, WindowIn, pointWindow, InFrame]
  omega

theorem pointWindow_area (p : Int × Int) : (pointWindow p).area = 1 := by simp [Window.area, pointWindow]

theorem hlineWindow_area (p : Int × Int × Int) : (hlineWindow p).area = p.2.2.toNat := by
  have hrow : (p.2.1 - p.2.1 + 1).toNat = 1 := by omega
  simp only [Window.area, hlineWindow, hrow]
  omega

theorem vlineWindow_area (p : Int × Int × Int) : (vlineWindow p).area = p.2.2.toNat := by
  have hcolumn : (p.1 - p.1 + 1).toNat = 1 := by omega
  simp only [Window.area, vlineWindow, hcolumn]
  omega

theorem pointWindow_units (cfg : Config) (c : Color) (p : Int × Int) :
    (pointWindow p).units cfg c = plotUnits cfg c p := by
  rw [Window.units, pointWindow_area]
  rfl

theorem hlineWindow_units (cfg : Config) (c : Color) (p : Int × Int × Int) :
    (hlineWindow p).units cfg c = hlineUnits cfg c p := by
  rw [Window.units, hlineWindow_area]
  rfl

theorem vlineWindow_units (cfg : Config) (c : Color) (p : Int × Int × Int) :
    (vlineWindow p).units cfg c = vlineUnits cfg c p := by
  rw [Window.units, vlineWindow_area]
  rfl

theorem pointWindow_positions (p : Int × Int) : (pointWindow p).positions = [p] := by
  rw [Window.positions, pointWindow_area]
  simp [pointWindow, firstPositions, nthPosition, List.range_succ]

theorem hlineWindow_positions (p : Int × Int × Int) : (hlineWindow p).positions = hlinePositions p := by
  rw [Window.positions, hlineWindow_area]
  exact (hlinePositions_eq ..).symm

theorem vlineWindow_positions (p : Int × Int × Int) : (vlineWindow p).positions = vlinePositions p := by
  rw [Window.positions, vlineWindow_area]
  exact (vlinePositions_eq ..).symm

/-- The positions of a well-formed window are those between its corners (20_memory.md R61, R62). -/
theorem Window.mem_positions (hx : w.x0 ≤ w.x1) (hy : w.y0 ≤ w.y1) (x y : Int) :
    (x, y) ∈ w.positions ↔ w.x0 ≤ x ∧ x ≤ w.x1 ∧ w.y0 ≤ y ∧ y ≤ w.y1 := by
  obtain ⟨n, hn⟩ : ∃ n, (w.x1 - w.x0 + 1).toNat = n := ⟨_, rfl⟩
  simp only [positions, firstPositions, area, List.mem_map, List.mem_range, nthPosition, Prod.mk.injEq, hn]
  have hpos : 0 < n := by omega
  constructor
  · rintro ⟨k, hk, rfl, rfl⟩
    have hcolumn := Nat.mod_lt k hpos
    have hrow := Nat.div_lt_of_lt_mul hk
    generalize k % n = i at hcolumn ⊢
    generalize k / n = j at hrow ⊢
    omega
  · rintro ⟨hx0, hx1, hy0, hy1⟩
    obtain ⟨i, rfl⟩ : ∃ i : Nat, x = w.x0 + i := ⟨(x - w.x0).toNat, by omega⟩
    obtain ⟨j, rfl⟩ : ∃ j : Nat, y = w.y0 + j := ⟨(y - w.y0).toNat, by omega⟩
    have hi : i < n := by omega
    refine ⟨n * j + i, ?_, ?_, ?_⟩
    · calc n * j + i < n * (j + 1) := by rw [Nat.mul_succ]; omega
        _ ≤ n * (w.y1 - w.y0 + 1).toNat := Nat.mul_le_mul_left n (by omega)
    · rw [Nat.mul_add_mod, Nat.mod_eq_of_lt hi]
    · rw [Nat.mul_add_div hpos, Nat.div_eq_of_lt hi, Nat.add_zero]

/-! ### The window write that fills its window -/

/-- The window write that fills the window w (42_controller_protocol.md R205). -/
def fillWindow (c : Color) (w : Window) (s : State) : Run := windowWrite w.x0 w.y0 w.x1 w.y1 c w.area s

/-- A window that is not well-formed and in bounds faults, whatever the count of pixels
(42_controller_protocol.md R200, R201). -/
theorem windowWrite_refused (hp : s.ctl.phase = .on) (hw : ¬ w.In s.ctl.orient) (c : Color) (n : Int) :
    windowWrite w.x0 w.y0 w.x1 w.y1 c n s = .stop (s.raise w.faultInfo) := by
  by_cases hform : w.x1 < w.x0 ∨ w.y1 < w.y0
  · rw [windowWrite, opSetWindow_malformed hp hform, Run.andThen_stop, Window.faultInfo_malformed hform]
  · simp only [Window.In, WindowIn] at hw
    rw [windowWrite, opSetWindow_outOfBounds hp (by omega) (by omega) (by omega), Run.andThen_stop,
      Window.faultInfo_outOfBounds (by omega) (by omega)]

theorem fillWindow_refused (hp : s.ctl.phase = .on) (hw : ¬ w.In s.ctl.orient) (c : Color) :
    fillWindow c w s = .stop (s.raise w.faultInfo) :=
  windowWrite_refused hp hw c _

theorem fillWindow_closed (hp : s.ctl.phase = .on) (hb : s.busOpen = false) (hw : w.In s.ctl.orient) (c : Color) :
    fillWindow c w s = .stop (s.raise (.busClosed .cmd s.cfg.opcCaset)) :=
  windowWrite_closed hp hb hw c _

theorem fillWindow_drew (h : Drawing s) (hm : MapsWf s.cfg) (hw : w.In s.ctl.orient) (c : Color) :
    ∃ t, fillWindow c w s = .ok t ∧ Drew 0 s t (w.units s.cfg c) w.positions c ∧
      WindowIs t w.x0 w.y0 w.x1 w.y1 :=
  windowWrite_drew h hm hw (Nat.le_refl _) c

/-- The count of pixels matters only for a well-formed window: it fills the window when it is the area of one. -/
theorem windowWrite_eq_fillWindow (hp : s.ctl.phase = .on) {n : Int}
    (hn : w.x0 ≤ w.x1 → w.y0 ≤ w.y1 → n = w.area) :
    windowWrite w.x0 w.y0 w.x1 w.y1 c n s = fillWindow c w s := by
  by_cases hw : w.In s.ctl.orient
  · obtain ⟨-, hx, -, -, hy, -⟩ := hw
    rw [hn hx hy, fillWindow]
  · rw [windowWrite_refused hp hw, fillWindow_refused hp hw]

/-! ### The operations that are one -/

theorem opPixel_fills (hp : s.ctl.phase = .on) (p : Int × Int) (c : Color) :
    opPixel p.1 p.2 c s = fillWindow c (pointWindow p) s := by
  rw [opPixel, gate_on hp, Run.andThen_ok]
  exact windowWrite_eq_fillWindow (w := pointWindow p) hp fun _ _ => by rw [pointWindow_area]; rfl

theorem opHline_fills (hp : s.ctl.phase = .on) (p : Int × Int × Int) (c : Color) :
    opHline p.1 p.2.1 p.2.2 c s = fillWindow c (hlineWindow p) s := by
  rw [opHline, gate_on hp, Run.andThen_ok]
  refine windowWrite_eq_fillWindow (w := hlineWindow p) hp fun hx _ => ?_
  simp only [hlineWindow] at hx
  rw [hlineWindow_area, Int.toNat_of_nonneg (by omega)]

theorem opVline_fills (hp : s.ctl.phase = .on) (p : Int × Int × Int) (c : Color) :
    opVline p.1 p.2.1 p.2.2 c s = fillWindow c (vlineWindow p) s := by
  rw [opVline, gate_on hp, Run.andThen_ok]
  refine windowWrite_eq_fillWindow (w := vlineWindow p) hp fun _ hy => ?_
  simp only [vlineWindow] at hy
  rw [vlineWindow_area, Int.toNat_of_nonneg (by omega)]

theorem opFillRect_fills (hp : s.ctl.phase = .on) (w : Window) (c : Color) :
    opFillRect w.x0 w.y0 w.x1 w.y1 c s = fillWindow c w s := by
  rw [opFillRect, gate_on hp, Run.andThen_ok]
  refine windowWrite_eq_fillWindow hp fun hx hy => ?_
  rw [Window.area, Int.natCast_mul, Int.toNat_of_nonneg (by omega), Int.toNat_of_nonneg (by omega)]

/-! ### The operations that are one, as instructions -/

/-- An operation that is one window write, of a malformed window. -/
theorem complete_malformed {r : Run} (hr : r = fillWindow c w s) (hp : s.ctl.phase = .on) (hf : s.fault = none)
    (hform : w.x1 < w.x0 ∨ w.y1 < w.y0) :
    complete r = .next { s with fault := some ⟨.malformedWindow w.x0 w.y0 w.x1 w.y1, s.pc⟩ } := by
  have hw : ¬ w.In s.ctl.orient := by simp only [Window.In, WindowIn]; omega
  rw [← Window.faultInfo_malformed hform]
  exact complete_raised (hr.trans (fillWindow_refused hp hw c)) hf

/-- An operation that is one window write, of a well-formed window that leaves the frame. -/
theorem complete_outOfBounds {r : Run} (hr : r = fillWindow c w s) (hp : s.ctl.phase = .on) (hf : s.fault = none)
    (hx : w.x0 ≤ w.x1) (hy : w.y0 ≤ w.y1) (hw : ¬ w.In s.ctl.orient) :
    complete r = .next { s with fault := some ⟨.outOfBounds w.x0 w.y0 w.x1 w.y1, s.pc⟩ } := by
  rw [← Window.faultInfo_outOfBounds hx hy]
  exact complete_raised (hr.trans (fillWindow_refused hp hw c)) hf

/-- An operation that is one window write in the frame, with the bus closed. -/
theorem complete_closed {r : Run} (hr : r = fillWindow c w s) (hp : s.ctl.phase = .on) (hf : s.fault = none)
    (hb : s.busOpen = false) (hw : w.In s.ctl.orient) :
    complete r = .next { s with fault := some ⟨.busClosed .cmd s.cfg.opcCaset, s.pc⟩ } :=
  complete_raised (hr.trans (fillWindow_closed hp hb hw c)) hf

/-- An operation that is one window write in the frame, in a block that can draw. -/
theorem complete_filled {r : Run} (hr : r = fillWindow c w s) (h : Drawing s) (hm : MapsWf s.cfg)
    (hw : w.In s.ctl.orient) :
    ∃ t, complete r = .next t ∧ Drew 1 s t (w.units s.cfg c) w.positions c ∧ WindowIs t w.x0 w.y0 w.x1 w.y1 := by
  obtain ⟨t, ht, hdrew, hwindow⟩ := fillWindow_drew h hm hw c
  exact ⟨t.advancePc, by rw [hr, ht, complete_ok], hdrew.advance, hwindow⟩

end Sys2Proof.Machine
end

section
/-! PROOFS. PIXEL, HLINE, VLINE and FILL_RECT (43_geometry_basic.md R222 to R224, R228): each is one window write that
fills its window. -/
namespace Sys2Proof.Machine

/-- Settles O38: a pixel is the window write of one cell. -/
theorem pixelResult : Obligations.PixelResult := by
  unfold Obligations.PixelResult
  refine ⟨fun _ _ _ _ => rfl, fun s x y c => ?_⟩
  have hfills (hp : s.ctl.phase = .on) := opPixel_fills hp (int8 x, int8 y) c
  have hin : (pointWindow (int8 x, int8 y)).In s.ctl.orient ↔
      x.toNat < frameW s.ctl.orient ∧ y.toNat < frameH s.ctl.orient := by
    simp only [pointWindow_in, InFrame, int8, Int.ofNat_eq_natCast]
    omega
  refine ⟨exec_notOn rfl, fun hp hf hout => ?_, fun hp hf hb hx hy => ?_, fun h hm hx hy => ?_⟩
  · exact complete_outOfBounds (hfills hp) hp hf (Int.le_refl _) (Int.le_refl _) (mt hin.1 (by omega))
  · exact complete_closed (hfills hp) hp hf hb (hin.2 ⟨hx, hy⟩)
  · have hw : WindowIn s.ctl.orient (int8 x) (int8 y) (int8 x) (int8 y) := hin.2 ⟨hx, hy⟩
    obtain ⟨t, ht, hdrew, hwindow⟩ := complete_filled (hfills h.phase) h hm hw
    rw [pointWindow_units, pointWindow_positions, plotUnits, windowWriteUnits, windowUnits_inFrame _ hw, ofInt_int8,
      ofInt_int8] at hdrew
    exact ⟨t, ht, hdrew, hwindow⟩

/-- Settles O39: a horizontal span is the window write of one row. -/
theorem hlineResult : Obligations.HlineResult := by
  unfold Obligations.HlineResult
  refine ⟨fun _ _ _ _ _ => rfl, fun s x y len c hp hf hlen => ?_, fun cfg x y len c => ?_, fun s x y len c => ?_⟩
  · have hW := frameW_le s.ctl.orient
    have hout : ¬ (hlineWindow (x, y, len)).In s.ctl.orient := by
      simp only [Window.In, WindowIn, hlineWindow, Int.ofNat_eq_natCast]
      omega
    refine (opHline_fills hp (x, y, len) c).trans ?_
    rw [fillWindow_refused hp hout, State.raise_fault _ hf,
      Window.faultInfo_outOfBounds (by simp only [hlineWindow]; omega) (Int.le_refl _)]
    rfl
  · obtain ⟨-, hcmd, -⟩ :=
      windowWriteUnitCounts cfg (int8 x) (int8 y) (int8 x + int8 len - 1) (int8 y) c (int8 len).toNat
    exact hcmd
  have hfills (hp : s.ctl.phase = .on) := opHline_fills hp (int8 x, int8 y, int8 len) c
  have hin : (hlineWindow (int8 x, int8 y, int8 len)).In s.ctl.orient ↔
      0 < len.toNat ∧ x.toNat + len.toNat ≤ frameW s.ctl.orient ∧ y.toNat < frameH s.ctl.orient := by
    simp only [Window.In, WindowIn, hlineWindow, int8, Int.ofNat_eq_natCast]
    omega
  refine ⟨exec_notOn rfl, fun hp hf hlen => ?_, fun hp hf hlen hout => ?_, fun hp hf hb hlen hx hy => ?_,
    fun h hm hlen hx hy => ?_⟩
  · subst hlen
    exact complete_malformed (hfills hp) hp hf (.inl (Int.sub_lt_self _ Int.one_pos))
  · have hrun : (hlineWindow (int8 x, int8 y, int8 len)).x0 ≤ (hlineWindow (int8 x, int8 y, int8 len)).x1 := by
      simp only [hlineWindow, int8, Int.ofNat_eq_natCast]
      omega
    exact complete_outOfBounds (hfills hp) hp hf hrun (Int.le_refl _) (mt hin.1 (by omega))
  · exact complete_closed (hfills hp) hp hf hb (hin.2 ⟨hlen, hx, hy⟩)
  · obtain ⟨t, ht, hdrew, hwindow⟩ := complete_filled (hfills h.phase) h hm (hin.2 ⟨hlen, hx, hy⟩)
    rw [hlineWindow_units, hlineWindow_positions] at hdrew
    exact ⟨t, ht, hdrew, hwindow⟩

/-- Settles O40: a vertical span is the window write of one column. -/
theorem vlineResult : Obligations.VlineResult := by
  unfold Obligations.VlineResult
  refine ⟨fun _ _ _ _ _ => rfl, fun s x y len c => ?_⟩
  have hfills (hp : s.ctl.phase = .on) := opVline_fills hp (int8 x, int8 y, int8 len) c
  have hin : (vlineWindow (int8 x, int8 y, int8 len)).In s.ctl.orient ↔
      0 < len.toNat ∧ x.toNat < frameW s.ctl.orient ∧ y.toNat + len.toNat ≤ frameH s.ctl.orient := by
    simp only [Window.In, WindowIn, vlineWindow, int8, Int.ofNat_eq_natCast]
    omega
  refine ⟨exec_notOn rfl, fun hp hf hlen => ?_, fun hp hf hlen hout => ?_, fun hp hf hb hlen hx hy => ?_,
    fun h hm hlen hx hy => ?_⟩
  · subst hlen
    exact complete_malformed (hfills hp) hp hf (.inr (Int.sub_lt_self _ Int.one_pos))
  · have hrun : (vlineWindow (int8 x, int8 y, int8 len)).y0 ≤ (vlineWindow (int8 x, int8 y, int8 len)).y1 := by
      simp only [vlineWindow, int8, Int.ofNat_eq_natCast]
      omega
    exact complete_outOfBounds (hfills hp) hp hf (Int.le_refl _) hrun (mt hin.1 (by omega))
  · exact complete_closed (hfills hp) hp hf hb (hin.2 ⟨hlen, hx, hy⟩)
  · obtain ⟨t, ht, hdrew, hwindow⟩ := complete_filled (hfills h.phase) h hm (hin.2 ⟨hlen, hx, hy⟩)
    rw [vlineWindow_units, vlineWindow_positions] at hdrew
    exact ⟨t, ht, hdrew, hwindow⟩

/-- The window of two corners that are byte operands (43_geometry_basic.md R228). -/
def cornerWindow (x0 y0 x1 y1 : Byte) : Window := ⟨int8 x0, int8 y0, int8 x1, int8 y1⟩

/-- The area of a window of sorted corners. -/
theorem cornerWindow_area {x0 y0 x1 y1 : Byte} (hx : x0.toNat ≤ x1.toNat) (hy : y0.toNat ≤ y1.toNat) :
    (cornerWindow x0 y0 x1 y1).area = (x1.toNat - x0.toNat + 1) * (y1.toNat - y0.toNat + 1) := by
  have hwidth : (int8 x1 - int8 x0 + 1).toNat = x1.toNat - x0.toNat + 1 := by
    simp only [int8, Int.ofNat_eq_natCast]
    omega
  have hheight : (int8 y1 - int8 y0 + 1).toNat = y1.toNat - y0.toNat + 1 := by
    simp only [int8, Int.ofNat_eq_natCast]
    omega
  simp only [Window.area, cornerWindow, hwidth, hheight]

/-- Settles O44: a filled rectangle is the window write between its corners. -/
theorem fillRectResult : Obligations.FillRectResult := by
  unfold Obligations.FillRectResult
  refine ⟨fun _ _ _ _ _ _ => rfl, fun s x0 y0 x1 y1 c => ?_⟩
  have hfills (hp : s.ctl.phase = .on) := opFillRect_fills hp (cornerWindow x0 y0 x1 y1) c
  have hin : (cornerWindow x0 y0 x1 y1).In s.ctl.orient ↔ x0.toNat ≤ x1.toNat ∧ y0.toNat ≤ y1.toNat ∧
      x1.toNat < frameW s.ctl.orient ∧ y1.toNat < frameH s.ctl.orient := by
    simp only [Window.In, WindowIn, cornerWindow, int8, Int.ofNat_eq_natCast]
    omega
  refine ⟨exec_notOn rfl, fun hp hf hform => ?_, fun hp hf hx hy hout => ?_, fun hp hf hb hx hy hX hY => ?_,
    fun h hm hx hy hX hY => ?_⟩
  · exact complete_malformed (hfills hp) hp hf (hform.imp Int.ofNat_lt.2 Int.ofNat_lt.2)
  · exact complete_outOfBounds (hfills hp) hp hf (Int.ofNat_le.2 hx) (Int.ofNat_le.2 hy) (mt hin.1 (by omega))
  · exact complete_closed (hfills hp) hp hf hb (hin.2 ⟨hx, hy, hX, hY⟩)
  · obtain ⟨t, ht, hdrew, hwindow⟩ := complete_filled (hfills h.phase) h hm (hin.2 ⟨hx, hy, hX, hY⟩)
    have hcells := Window.mem_positions (w := cornerWindow x0 y0 x1 y1) (Int.ofNat_le.2 hx) (Int.ofNat_le.2 hy)
    rw [Window.units, Window.positions, cornerWindow_area hx hy] at hdrew
    rw [Window.positions, cornerWindow_area hx hy] at hcells
    exact ⟨t, ht, hdrew, hwindow, hcells⟩

end Sys2Proof.Machine
end

section
/-! PROOFS. CLEAR (43_geometry_basic.md R229): the window write of the whole frame, which names every cell of the array,
since each legal `ORIENT_MAP` is a bijection (20_memory.md R67). -/
namespace Sys2Proof.Machine

variable {cfg : Config} {o : Orient}

/-- A legal `ORIENT_MAP` sends no two positions of the frame to one cell (20_memory.md R67). -/
theorem orientMap_injective (h : MapsWf cfg) {x y x' y' : Nat} (hx : x < frameW o) (hy : y < frameH o)
    (hx' : x' < frameW o) (hy' : y' < frameH o) (heq : orientMap cfg o x y = orientMap cfg o x' y') :
    x = x' ∧ y = y' := by
  obtain ⟨h90, h180, h270⟩ := h
  cases o with
  | o0 => exact Prod.mk.injEq .. ▸ heq
  | o90 => exact h90.2 x y x' y' hx hy hx' hy' heq
  | o180 => exact h180.2 x y x' y' hx hy hx' hy' heq
  | o270 => exact h270.2 x y x' y' hx hy hx' hy' heq

/-- A position of the frame names a cell of the array. -/
theorem cellKey_lt (h : MapsWf cfg) {x y : Nat} (hx : x < frameW o) (hy : y < frameH o) :
    cellKey cfg o x y < Memory.cells := by
  obtain ⟨hpx, hpy⟩ := orientMap_inArray h hx hy
  exact Memory.key_lt hpx hpy

/-- Two positions of the frame name two cells. -/
theorem cellKey_injective (h : MapsWf cfg) {x y x' y' : Nat} (hx : x < frameW o) (hy : y < frameH o)
    (hx' : x' < frameW o) (hy' : y' < frameH o) (heq : cellKey cfg o x y = cellKey cfg o x' y') :
    x = x' ∧ y = y' := by
  obtain ⟨hpx, -⟩ := orientMap_inArray h hx hy
  obtain ⟨hpx', -⟩ := orientMap_inArray h hx' hy'
  obtain ⟨hkx, hky⟩ := Memory.key_inj hpx hpx' heq
  exact orientMap_injective h hx hy hx' hy' (Prod.ext hkx hky)

/-- The window of the whole frame at an orientation (43_geometry_basic.md R229). -/
def frameWindow (o : Orient) : Window := ⟨0, 0, Int.ofNat (frameW o) - 1, Int.ofNat (frameH o) - 1⟩

theorem frameWindow_in (o : Orient) : (frameWindow o).In o := by
  cases o <;> simp [Window.In, WindowIn, frameWindow, frameW, frameH, Config.panelW, Config.panelH]

theorem frameWindow_area (o : Orient) : (frameWindow o).area = 20480 := by cases o <;> rfl

/-- The positions of the frame name every cell of the array: they name only cells of it, none of them twice, and there
are as many as cells (00_scope.md R9). -/
theorem key_mem_frameWindow (h : MapsWf cfg) (o : Orient) {a : Nat} (ha : a < Memory.cells) :
    a ∈ (frameWindow o).positions.map (positionKey cfg o) := by
  have hwidth : (Int.ofNat (frameW o) - 1 - 0 + 1).toNat = frameW o := by simp only [Int.ofNat_eq_natCast]; omega
  have hframe (k : Nat) (hk : k ∈ List.range 20480) : k % frameW o < frameW o ∧ k / frameW o < frameH o := by
    have hk' : k < 20480 := List.mem_range.1 hk
    cases o <;> simp only [frameW, frameH, Config.panelW, Config.panelH] <;> omega
  rw [Window.positions, frameWindow_area]
  simp only [frameWindow]
  rw [map_positionKey_firstPositions (Int.le_refl 0) (Int.le_refl 0)]
  simp only [hwidth, Int.toNat_zero, Nat.zero_add]
  refine mem_of_nodup_of_length_le (m := List.range Memory.cells) (nodup_map_of_inj List.nodup_range ?_) ?_ ?_
    (List.mem_range.2 ha)
  · intro j hj k hk heq
    obtain ⟨hjx, hjy⟩ := hframe j hj
    obtain ⟨hkx, hky⟩ := hframe k hk
    obtain ⟨hx, hy⟩ := cellKey_injective h hjx hjy hkx hky heq
    rw [← Nat.div_add_mod j (frameW o), hx, hy, Nat.div_add_mod]
  · intro b hb
    obtain ⟨k, hk, rfl⟩ := List.mem_map.1 hb
    obtain ⟨hx, hy⟩ := hframe k hk
    exact List.mem_range.2 (cellKey_lt h hx hy)
  · rw [List.length_map, List.length_range, List.length_range]
    exact Nat.le_refl _

/-- In phase On CLEAR is the window write of the frame in BLACK (43_geometry_basic.md R229). -/
theorem opClear_fills {s : State} (hp : s.ctl.phase = .on) :
    opClear s = fillWindow Config.black (frameWindow s.ctl.orient) s := by
  rw [opClear, gate_on hp, Run.andThen_ok]
  exact opFillRect_fills hp (frameWindow s.ctl.orient) _

/-- Settles O45: CLEAR is the window write of the whole frame, whose positions name every cell. -/
theorem clearResult : Obligations.ClearResult := by
  unfold Obligations.ClearResult
  refine ⟨fun _ => rfl, fun s => ⟨exec_notOn rfl, fun hp hf hb => ?_, fun h hm => ?_⟩⟩
  · exact complete_closed (opClear_fills hp) hp hf hb (frameWindow_in _)
  · obtain ⟨t, ht, hdrew, hwindow⟩ := complete_filled (opClear_fills h.phase) h hm (frameWindow_in _)
    have hcells (px py : Nat) (hpx : px < 128) (hpy : py < 160) : t.ctl.gram.cell px py = some Config.black := by
      rw [Memory.cell, hdrew.painted, if_pos (key_mem_frameWindow hm _ (Memory.key_lt hpx hpy))]
    rw [Window.units, Window.positions, frameWindow_area] at hdrew
    obtain ⟨hlength, -⟩ := windowWriteUnitCounts s.cfg 0 0 ((frameW s.ctl.orient : Int) - 1)
      ((frameH s.ctl.orient : Int) - 1) 0x0000 20480
    exact ⟨t, _, ht, hdrew, rfl, hlength, hwindow, hcells⟩

end Sys2Proof.Machine
end

section
/-! PROOFS. The line point sequence (43_geometry_basic.md R225, R230): the loop takes one step per point along the
dominant axis, and its error term is the remainder of a division that gives the other coordinate. -/
namespace Sys2Proof.Machine

/-! ### The closed form -/

section
variable {a b k : Nat}

/-- How far a line has risen on its minor axis, of length b, k steps along its dominant axis, of length a: k · b / a,
rounded to the nearest. -/
def lineRise (a b k : Nat) : Nat := (k * b + (a - 1 - a / 2)) / a

/-- The error term of the loop of R225 there. -/
def lineError (a b k : Nat) : Int := ((a / 2 : Nat) : Int) - k * b + a * lineRise a b k

theorem lineRise_zero (a b : Nat) : lineRise a b 0 = 0 := by
  rw [lineRise, Nat.zero_mul, Nat.zero_add, Nat.div_eq_zero_iff]
  omega

theorem lineError_zero (a b : Nat) : lineError a b 0 = (a / 2 : Nat) := by simp [lineError, lineRise_zero]

/-- At its end the line has risen all the way. -/
theorem lineRise_last (hb : b ≤ a) : lineRise a b a = b := by
  rcases Nat.eq_zero_or_pos a with rfl | ha
  · rw [lineRise_zero, Nat.le_zero.1 hb]
  · rw [lineRise, Nat.mul_add_div ha, Nat.div_eq_of_lt (by omega), Nat.add_zero]

/-- A line does not rise past its end. -/
theorem lineRise_le (hb : b ≤ a) (hk : k ≤ a) : lineRise a b k ≤ b := by
  refine Nat.le_trans (Nat.div_le_div_right ?_) (Nat.le_of_eq (lineRise_last hb))
  exact Nat.add_le_add_right (Nat.mul_le_mul_right b hk) _

/-- The error term stays between 0 and a, and the line rises by one exactly when it is below b. -/
theorem lineRise_succ (ha : 0 < a) (hb : b ≤ a) (k : Nat) :
    0 ≤ lineError a b k ∧ lineError a b k < a ∧
      lineRise a b (k + 1) = lineRise a b k + if lineError a b k < b then 1 else 0 := by
  obtain ⟨q, t, ht, hqt⟩ : ∃ q t, t < a ∧ k * b + (a - 1 - a / 2) = a * q + t :=
    ⟨_, _, Nat.mod_lt _ ha, (Nat.div_add_mod _ a).symm⟩
  have hrise : lineRise a b k = q := by rw [lineRise, hqt, Nat.mul_add_div ha, Nat.div_eq_of_lt ht, Nat.add_zero]
  have hnext : lineRise a b (k + 1) = q + (t + b) / a := by
    rw [lineRise, Nat.succ_mul, Nat.add_right_comm, hqt, Nat.add_assoc, Nat.mul_add_div ha]
  have herror : lineError a b k = a - 1 - t := by
    rw [lineError, hrise]
    omega
  refine ⟨by omega, by omega, ?_⟩
  rw [hrise, hnext, herror, Nat.add_left_cancel_iff]
  split
  · exact Nat.div_eq_of_lt_le (by omega) (by omega)
  · exact Nat.div_eq_of_lt (by omega)

/-- One step on, the error term loses b, and gains a for each row the line rises (43_geometry_basic.md R225). -/
theorem lineError_succ {e : Nat} (h : lineRise a b (k + 1) = lineRise a b k + e) :
    lineError a b (k + 1) = lineError a b k - b + a * e := by
  simp only [lineError, h, Int.natCast_add, Int.mul_add, Int.add_mul, Int.natCast_one, Int.one_mul]
  omega

end

/-! ### The loop -/

section
variable {x0 y0 x1 y1 sx sy : Int} {a b : Nat}

/-- The point of a line k steps along its dominant axis, here x. -/
def linePoint (x0 y0 sx sy : Int) (a b k : Nat) : Int × Int := (x0 + sx * k, y0 + sy * lineRise a b k)

/-- The points of a line whose dominant axis is x. -/
def xMajorPoints (x0 y0 sx sy : Int) (a b : Nat) : List (Int × Int) :=
  (List.range' 0 (a + 1)).map (linePoint x0 y0 sx sy a b)

/-- The loop of R225 along the dominant axis x, from the point k steps along it with m steps to go: it ends by itself
at the end point. -/
theorem lineLoop_xMajor (hb : b ≤ a) (hsx : sx ≠ 0) (extra : Nat) {k m : Nat} (hk : k + m = a) :
    lineLoop a b sx sy (x0 + sx * a) (y0 + sy * b) (m + 1 + extra) (lineError a b k) (x0 + sx * k)
        (y0 + sy * lineRise a b k) =
      (List.range' k (m + 1)).map (linePoint x0 y0 sx sy a b) := by
  induction m generalizing k with
  | zero =>
    obtain rfl : k = a := hk
    rw [lineRise_last hb, Nat.add_right_comm, lineLoop, if_pos ⟨rfl, rfl⟩]
    simp [linePoint, lineRise_last hb]
  | succ m ih =>
    obtain ⟨herror, -, hrise⟩ := lineRise_succ (by omega) hb k
    have hne : ¬ (x0 + sx * k = x0 + sx * a ∧ y0 + sy * lineRise a b k = y0 + sy * b) := by
      rintro ⟨h, -⟩
      have : (k : Int) = a := Int.eq_of_mul_eq_mul_left hsx (Int.add_left_cancel h)
      omega
    have hx : x0 + sx * k + sx = x0 + sx * (k + 1 : Nat) := by
      rw [Int.natCast_succ, Int.mul_add, Int.mul_one, Int.add_assoc]
    have hstep : decide (-(a : Int) < lineError a b k) = true := decide_eq_true (by omega)
    rw [Nat.add_right_comm, lineLoop, if_neg hne, List.range'_succ, List.map_cons, ← ih (k := k + 1) (by omega)]
    simp only [hstep, if_true, hx]
    by_cases hlt : lineError a b k < b
    · rw [if_pos hlt] at hrise
      have hy : y0 + sy * lineRise a b k + sy = y0 + sy * lineRise a b (k + 1) := by
        rw [hrise, Int.natCast_succ, Int.mul_add, Int.mul_one, Int.add_assoc]
      have he : lineError a b k - b + a = lineError a b (k + 1) := by
        rw [lineError_succ hrise, Int.natCast_one, Int.mul_one]
      simp only [hlt, decide_true, if_true, hy, he]
      rfl
    · rw [if_neg hlt] at hrise
      have he : lineError a b k - b + 0 = lineError a b (k + 1) := by
        rw [lineError_succ hrise, Int.natCast_zero, Int.mul_zero]
      simp only [hlt, decide_false, Bool.false_eq_true, if_false, he, hrise, Nat.add_zero]
      rfl

/-- The loop of R225 from its start, when the dominant axis is x. -/
theorem lineLoop_start (hb : b ≤ a) (hsx : sx ≠ 0) (hx : x0 + sx * a = x1) (hy : y0 + sy * b = y1) (extra : Nat) :
    lineLoop a b sx sy x1 y1 (a + 1 + extra) (a / 2 : Nat) x0 y0 = xMajorPoints x0 y0 sx sy a b := by
  have h := lineLoop_xMajor (x0 := x0) (y0 := y0) (sy := sy) hb hsx extra (Nat.zero_add a)
  rw [hx, hy, lineError_zero, lineRise_zero] at h
  simpa [xMajorPoints] using h

/-- Exchanging the axes and negating the error term mirrors the loop of R225. -/
theorem lineLoop_swap (dx dy sx sy x1 y1 : Int) (n : Nat) (err x y : Int) :
    lineLoop dx dy sx sy x1 y1 n err x y = (lineLoop dy dx sy sx y1 x1 n (-err) y x).map Prod.swap := by
  induction n generalizing err x y with
  | zero => rfl
  | succ n ih =>
    simp only [lineLoop, List.map_cons, Prod.swap_prod_mk]
    congr 1
    by_cases hend : x = x1 ∧ y = y1
    · rw [if_pos hend, if_pos hend.symm, List.map_nil]
    · rw [if_neg hend, if_neg (mt And.symm hend), ih]
      have hX : decide (-err < dx) = decide (-dx < err) := decide_eq_decide.2 (by omega)
      have hY : decide (-dy < -err) = decide (err < dy) := decide_eq_decide.2 (by omega)
      rw [hX, hY]
      congr 2
      split <;> split <;> omega

/-- The direction of a line on one axis, as R225 chooses it. -/
def lineSign (x0 x1 : Int) : Int := if x0 < x1 then 1 else -1

theorem lineSign_cases (x0 x1 : Int) : lineSign x0 x1 = 1 ∨ lineSign x0 x1 = -1 := by
  unfold lineSign
  split
  · exact .inl rfl
  · exact .inr rfl

theorem lineSign_ne_zero (x0 x1 : Int) : lineSign x0 x1 ≠ 0 := by
  rcases lineSign_cases x0 x1 with h | h <;> rw [h] <;> decide

/-- A line goes from its start to its end on each axis. -/
theorem lineSign_end (x0 x1 : Int) : x0 + lineSign x0 x1 * ((x1 - x0).natAbs : Nat) = x1 := by
  unfold lineSign
  split <;> omega

/-- The points of a line in closed form: along the longer axis, which is y when they are equal (R225). -/
def closedLinePoints (x0 y0 x1 y1 : Int) : List (Int × Int) :=
  if (y1 - y0).natAbs < (x1 - x0).natAbs then
    xMajorPoints x0 y0 (lineSign x0 x1) (lineSign y0 y1) (x1 - x0).natAbs (y1 - y0).natAbs
  else (xMajorPoints y0 x0 (lineSign y0 y1) (lineSign x0 x1) (y1 - y0).natAbs (x1 - x0).natAbs).map Prod.swap

/-- The loop of R225 gives the points of the closed form, whatever its bound beyond the length (log entry 16). -/
theorem lineLoop_closed (x0 y0 x1 y1 : Int) (extra : Nat) :
    lineLoop (x1 - x0).natAbs (y1 - y0).natAbs (lineSign x0 x1) (lineSign y0 y1) x1 y1
      (max (x1 - x0).natAbs (y1 - y0).natAbs + 1 + extra)
      (Int.tdiv (if (y1 - y0).natAbs < (x1 - x0).natAbs then ((x1 - x0).natAbs : Int) else -((y1 - y0).natAbs : Int)) 2)
      x0 y0 = closedLinePoints x0 y0 x1 y1 := by
  have hx := lineSign_end x0 x1
  have hy := lineSign_end y0 y1
  have hsx := lineSign_ne_zero x0 x1
  have hsy := lineSign_ne_zero y0 y1
  rw [closedLinePoints]
  generalize (x1 - x0).natAbs = dx at hx ⊢
  generalize (y1 - y0).natAbs = dy at hy ⊢
  by_cases h : dy < dx
  · rw [if_pos h, if_pos h, Nat.max_eq_left (Nat.le_of_lt h)]
    exact lineLoop_start (Nat.le_of_lt h) hsx hx hy extra
  · rw [if_neg h, if_neg h, Nat.max_eq_right (Nat.le_of_not_lt h), lineLoop_swap, Int.neg_tdiv, Int.neg_neg]
    exact congrArg _ (lineLoop_start (Nat.le_of_not_lt h) hsy hy hx extra)

/-- The line point sequence in closed form. -/
theorem linePoints_closed (x0 y0 x1 y1 : Int) : linePoints x0 y0 x1 y1 = closedLinePoints x0 y0 x1 y1 := by
  rw [← lineLoop_closed x0 y0 x1 y1 0]
  simp only [linePoints, Int.ofNat_lt]
  rfl

end

/-! ### The properties -/

/-- What 43_geometry_basic.md section 3 derives for the points of a line from (x0, y0) to (x1, y1); and they lie in the
box between the endpoints. -/
structure IsLine (x0 y0 x1 y1 : Int) (l : List (Int × Int)) : Prop where
  head : l.head? = some (x0, y0)
  last : l.getLast? = some (x1, y1)
  length : l.length = max (x1 - x0).natAbs (y1 - y0).natAbs + 1
  nodup : l.Nodup
  neighbours : ∀ (k : Nat) (p q : Int × Int), l[k]? = some p → l[k + 1]? = some q →
    (q.1 - p.1).natAbs ≤ 1 ∧ (q.2 - p.2).natAbs ≤ 1 ∧
    ((y1 - y0).natAbs ≤ (x1 - x0).natAbs → (q.1 - p.1).natAbs = 1) ∧
    ((x1 - x0).natAbs ≤ (y1 - y0).natAbs → (q.2 - p.2).natAbs = 1)
  box : ∀ p ∈ l, min x0 x1 ≤ p.1 ∧ p.1 ≤ max x0 x1 ∧ min y0 y1 ≤ p.2 ∧ p.2 ≤ max y0 y1

/-- The properties are the same on both axes. -/
theorem IsLine.swap {x0 y0 x1 y1 : Int} {l : List (Int × Int)} (h : IsLine y0 x0 y1 x1 l) :
    IsLine x0 y0 x1 y1 (l.map Prod.swap) where
  head := by simp [h.head]
  last := by simp [h.last]
  length := by rw [List.length_map, h.length, Nat.max_comm]
  nodup := nodup_map_of_inj h.nodup fun p _ q _ heq => by rw [← Prod.swap_swap p, heq, Prod.swap_swap]
  neighbours k p q hp hq := by
    rw [List.getElem?_map, Option.map_eq_some_iff] at hp hq
    obtain ⟨p', hp, rfl⟩ := hp
    obtain ⟨q', hq, rfl⟩ := hq
    obtain ⟨hx, hy, hmajor, hminor⟩ := h.neighbours k p' q' hp hq
    exact ⟨hy, hx, hminor, hmajor⟩
  box p hp := by
    obtain ⟨r, hr, rfl⟩ := List.mem_map.1 hp
    obtain ⟨hx0, hx1, hy0, hy1⟩ := h.box r hr
    exact ⟨hy0, hy1, hx0, hx1⟩

section
variable {x0 y0 x1 y1 sx sy : Int} {a b : Nat}

theorem linePoint_injective (hsx : sx ≠ 0) {j k : Nat}
    (h : linePoint x0 y0 sx sy a b j = linePoint x0 y0 sx sy a b k) : j = k := by
  obtain ⟨hx, -⟩ := Prod.mk.inj h
  exact Int.ofNat_inj.1 (Int.eq_of_mul_eq_mul_left hsx (Int.add_left_cancel hx))

/-- Neighbours of a line whose dominant axis is x are one step apart on it and at most one on the other; on a diagonal
they are one step apart on both. -/
theorem linePoint_succ (ha : 0 < a) (hb : b ≤ a) (k : Nat) :
    ∃ e : Nat, linePoint x0 y0 sx sy a b (k + 1) =
      ((linePoint x0 y0 sx sy a b k).1 + sx, (linePoint x0 y0 sx sy a b k).2 + sy * e) ∧
      e ≤ 1 ∧ (a ≤ b → e = 1) := by
  obtain ⟨-, hlt, hrise⟩ := lineRise_succ ha hb k
  refine ⟨if lineError a b k < b then 1 else 0, ?_, ?_, fun hba => if_pos (by omega)⟩
  · rw [linePoint, linePoint, hrise, Int.natCast_succ, Int.natCast_add, Int.mul_add, Int.mul_add, Int.mul_one,
      Int.add_assoc, Int.add_assoc]
  · split
    · exact Nat.le_refl 1
    · exact Nat.zero_le 1

theorem getElem?_xMajorPoints {k : Nat} {p : Int × Int} :
    (xMajorPoints x0 y0 sx sy a b)[k]? = some p ↔ k ≤ a ∧ linePoint x0 y0 sx sy a b k = p := by
  rw [xMajorPoints, List.getElem?_map, Option.map_eq_some_iff]
  constructor
  · rintro ⟨j, hj, rfl⟩
    obtain ⟨hlt, -⟩ := List.getElem?_eq_some_iff.1 hj
    rw [List.length_range'] at hlt
    rw [List.getElem?_range' hlt, Nat.zero_add, Nat.one_mul, Option.some.injEq] at hj
    exact ⟨Nat.le_of_lt_succ hlt, by rw [hj]⟩
  · rintro ⟨hk, hp⟩
    exact ⟨k, by rw [List.getElem?_range' (Nat.lt_succ_of_le hk), Nat.zero_add, Nat.one_mul], hp⟩

theorem xMajorPoints_isLine (hb : b ≤ a) (hsx : sx = 1 ∨ sx = -1) (hsy : sy = 1 ∨ sy = -1)
    (hx : x0 + sx * a = x1) (hy : y0 + sy * b = y1) : IsLine x0 y0 x1 y1 (xMajorPoints x0 y0 sx sy a b) := by
  have hdx : (x1 - x0).natAbs = a := by rcases hsx with rfl | rfl <;> omega
  have hdy : (y1 - y0).natAbs = b := by rcases hsy with rfl | rfl <;> omega
  exact
    { head := by simp [xMajorPoints, linePoint, lineRise_zero, List.range'_succ]
      last := by simp [xMajorPoints, linePoint, lineRise_last hb, List.getLast?_range', hx, hy]
      length := by rw [xMajorPoints, List.length_map, List.length_range', hdx, hdy, Nat.max_eq_left hb]
      nodup := nodup_map_of_inj List.nodup_range' fun j _ k _ h =>
        linePoint_injective (by rcases hsx with rfl | rfl <;> decide) h
      neighbours := by
        intro k p q hp hq
        obtain ⟨-, rfl⟩ := getElem?_xMajorPoints.1 hp
        obtain ⟨hk, rfl⟩ := getElem?_xMajorPoints.1 hq
        obtain ⟨e, he, hrise, hdiagonal⟩ := linePoint_succ (x0 := x0) (y0 := y0) (sx := sx) (sy := sy)
          (show 0 < a by omega) hb k
        simp only [he, hdx, hdy]
        rcases hsx with rfl | rfl <;> rcases hsy with rfl | rfl <;> omega
      box := by
        intro p hp
        obtain ⟨k, hk, rfl⟩ := List.mem_map.1 hp
        have hka : k ≤ a := by have := List.mem_range'_1.1 hk; omega
        have hrise := lineRise_le hb hka
        simp only [linePoint]
        rcases hsx with rfl | rfl <;> rcases hsy with rfl | rfl <;> omega }

end

/-- The line point sequence has the derived properties. -/
theorem linePoints_isLine (x0 y0 x1 y1 : Int) : IsLine x0 y0 x1 y1 (linePoints x0 y0 x1 y1) := by
  have hx := lineSign_end x0 x1
  have hy := lineSign_end y0 y1
  rw [linePoints_closed, closedLinePoints]
  split
  · exact xMajorPoints_isLine (by omega) (lineSign_cases ..) (lineSign_cases ..) hx hy
  · exact (xMajorPoints_isLine (by omega) (lineSign_cases ..) (lineSign_cases ..) hy hx).swap

/-- Settles O41: the sequence has a closed form, in which each property can be read. -/
theorem linePointsProperties : Obligations.LinePointsProperties := by
  unfold Obligations.LinePointsProperties
  intro x0 y0 x1 y1
  obtain ⟨hhead, hlast, hlength, hnodup, hneighbours, -⟩ := linePoints_isLine x0 y0 x1 y1
  exact ⟨hhead, hlast, hlength, hnodup,
    fun extra => (lineLoop_closed x0 y0 x1 y1 extra).trans (linePoints_closed x0 y0 x1 y1).symm, hneighbours⟩

end Sys2Proof.Machine
end

section
/-! PROOFS. The operations built from plots and spans are, in phase On, their window writes in order; and such a list
stops at its first window outside the frame, with the earlier ones filled (43_geometry_basic.md R220, 60_exceptions.md
R300). -/
namespace Sys2Proof.Machine

variable {s : State} {c : Color}

/-! ### Filling windows in order -/

/-- Filling windows keeps the frame of drawing, however it ends. -/
theorem fillAll_kept (hc : s.cfg.opcsDistinct = true) (c : Color) (ws : List Window) :
    DrawKept s (runAll (fillWindow c) ws s).state := by
  refine runAll_induct (P := DrawKept s) (fun w _ t h => h.trans ?_) s (.refl s)
  obtain ⟨hkept, -⟩ := windowWrite_kept (s := t) (by rw [h.cfg]; exact hc) w.x0 w.y0 w.x1 w.y1 c w.area
  exact hkept

/-- Windows in the frame are filled in order, in a block that can draw. -/
theorem fillAll_drew (h : Drawing s) (hm : MapsWf s.cfg) {ws : List Window} (hws : ∀ w ∈ ws, w.In s.ctl.orient)
    (c : Color) : ∃ t, runAll (fillWindow c) ws s = .ok t ∧
      Drew 0 s t (ws.flatMap (Window.units s.cfg c)) (ws.flatMap Window.positions) c := by
  refine runAll_drew (units := fun cfg => Window.units cfg c) (ok := fun o w => w.In o) ?_ ws s h hm hws
  intro w t ht htm hw
  obtain ⟨u, hu, hdrew, -⟩ := fillWindow_drew ht htm hw c
  exact ⟨u, hu, hdrew⟩

/-- Filling windows stops at the first one outside the frame: the ones before it are sent and painted, its fault is
raised, and nothing follows. -/
theorem fillAll_stops (h : Drawing s) (hm : MapsWf s.cfg) (hf : s.fault = none) {pre post : List Window} {w : Window}
    (hpre : ∀ v ∈ pre, v.In s.ctl.orient) (hw : ¬ w.In s.ctl.orient) (c : Color) :
    ∃ t, runAll (fillWindow c) (pre ++ w :: post) s = .stop t ∧ t.fault = some ⟨w.faultInfo, s.pc⟩ ∧ t.pc = s.pc ∧
      t.trace = s.trace ++ pre.flatMap (Window.units s.cfg c) ∧ Painted s t (pre.flatMap Window.positions) c ∧
      DrawKept s t := by
  obtain ⟨t, ht, hdrew⟩ := fillAll_drew h hm hpre c
  have hrefused := fillWindow_refused hdrew.ready.phase (by rw [hdrew.orient]; exact hw) c
  refine ⟨t.raise w.faultInfo, ?_, ?_, ?_, ?_, ?_, hdrew.toDrawKept.trans (.raise t _)⟩
  · rw [runAll_append, ht, Run.andThen_ok, runAll_cons, hrefused, Run.andThen_stop]
  · rw [State.raise_fault _ (hdrew.fault.trans hf), hdrew.pc]
    rfl
  · rw [State.raise_pc, hdrew.pc, Nat.add_zero]
  · rw [State.raise_trace, hdrew.trace]
  · simpa only [Painted, State.raise_ctl] using hdrew.painted

/-! ### The operations -/

/-- In phase On, with distinct command bytes, the part f fills the windows ws in order, however it ends. -/
structure Fills (c : Color) (f : State → Run) (ws : List Window) : Prop where
  run : ∀ s, s.ctl.phase = .on → s.cfg.opcsDistinct = true → f s = runAll (fillWindow c) ws s

namespace Fills

variable {f g : State → Run} {ws vs : List Window}

theorem of_on {w : Window} (h : ∀ s, s.ctl.phase = .on → f s = fillWindow c w s) : Fills c f [w] :=
  ⟨fun s hp _ => (h s hp).trans (runAll_singleton _ w s).symm⟩

/-- The gate lets a block in phase On through (42_controller_protocol.md R207). -/
theorem gate (k : Op) (h : Fills c f ws) : Fills c (fun s => (Machine.gate k s).andThen f) ws := by
  refine ⟨fun s hp hc => ?_⟩
  rw [gate_on hp, Run.andThen_ok, h.run s hp hc]

/-- Filling windows leaves the phase and the command bytes, so the next part fills its own. -/
theorem andThen (hf : Fills c f ws) (hg : Fills c g vs) : Fills c (fun s => (f s).andThen g) (ws ++ vs) := by
  refine ⟨fun s hp hc => ?_⟩
  have hkept := fillAll_kept hc c ws
  rw [hf.run s hp hc, runAll_append]
  cases hr : runAll (fillWindow c) ws s with
  | stop t => rfl
  | ok t =>
    rw [hr] at hkept
    exact hg.run t (hkept.phase.trans hp) ((congrArg Config.opcsDistinct hkept.cfg).trans hc)

theorem all {α : Type} {f : α → State → Run} {window : α → Window} (h : ∀ a, Fills c (f a) [window a]) (l : List α) :
    Fills c (runAll f l) (l.map window) := by
  induction l with
  | nil => exact ⟨fun s _ _ => rfl⟩
  | cons a l ih => exact (h a).andThen ih

theorem plotAll (c : Color) (l : List (Int × Int)) : Fills c (plotAll c l) (l.map pointWindow) :=
  all (fun p => of_on fun _ hp => opPixel_fills hp p c) l

theorem opHline (c : Color) (p : Int × Int × Int) : Fills c (opHline p.1 p.2.1 p.2.2 c) [hlineWindow p] :=
  of_on fun _ hp => opHline_fills hp p c

theorem opVline (c : Color) (p : Int × Int × Int) : Fills c (opVline p.1 p.2.1 p.2.2 c) [vlineWindow p] :=
  of_on fun _ hp => opVline_fills hp p c

theorem opLine (x0 y0 x1 y1 : Int) (c : Color) :
    Fills c (opLine x0 y0 x1 y1 c) ((linePoints x0 y0 x1 y1).map pointWindow) :=
  (plotAll c _).gate .line

theorem opRect (x0 y0 x1 y1 : Int) (c : Color) :
    Fills c (opRect x0 y0 x1 y1 c) ((linePoints x0 y0 x1 y0 ++ linePoints x0 y1 x1 y1 ++ linePoints x0 y0 x0 y1
      ++ linePoints x1 y0 x1 y1).map pointWindow) := by
  simp only [List.map_append, List.append_assoc]
  exact ((opLine x0 y0 x1 y0 c).andThen ((opLine x0 y1 x1 y1 c).andThen ((opLine x0 y0 x0 y1 c).andThen
    (opLine x1 y0 x1 y1 c)))).gate .rect

theorem opCircleQuad (cx cy : Int) (r : Nat) (m : Byte) (c : Color) :
    Fills c (opCircleQuad cx cy r m c) ((circleQuadPoints cx cy r m).map pointWindow) :=
  (plotAll c _).gate .circleQuad

theorem opRoundRect (x0 y0 x1 y1 : Int) (r : Nat) (c : Color) :
    Fills c (opRoundRect x0 y0 x1 y1 r c) ((roundRectRows x0 y0 x1 y1 r).map hlineWindow
      ++ (roundRectColumns x0 y0 x1 y1 r).map vlineWindow ++ (roundRectCorners x0 y0 x1 y1 r).map pointWindow) := by
  simp only [roundRectRows, roundRectColumns, roundRectCorners, List.map_append, List.map_cons, List.map_nil,
    List.append_assoc, List.cons_append, List.nil_append]
  exact ((opHline c (_, _, _)).andThen ((opHline c (_, _, _)).andThen ((opVline c (_, _, _)).andThen
    ((opVline c (_, _, _)).andThen ((opCircleQuad ..).andThen ((opCircleQuad ..).andThen ((opCircleQuad ..).andThen
    (opCircleQuad ..)))))))).gate .roundRect

end Fills

/-- An operation that plots is one run, which fills the window of each of its points. -/
theorem exec_plots {i : Instr} {ps : List (Int × Int)} (h : plottedPoints i = some (ps, c)) :
    ∃ f, (∀ s, exec i s = complete (f s)) ∧ Fills c f (ps.map pointWindow) := by
  cases i <;> simp only [plottedPoints, reduceCtorEq, Option.some.injEq, Prod.mk.injEq] at h
  case line => obtain ⟨rfl, rfl⟩ := h; exact ⟨_, fun _ => rfl, .opLine ..⟩
  case rect => obtain ⟨rfl, rfl⟩ := h; exact ⟨_, fun _ => rfl, .opRect ..⟩
  case circleQuad => obtain ⟨rfl, rfl⟩ := h; exact ⟨_, fun _ => rfl, .opCircleQuad ..⟩
  case circle => obtain ⟨rfl, rfl⟩ := h; exact ⟨_, fun _ => rfl, (Fills.opCircleQuad ..).gate .circle⟩
  case ellipse =>
    split at h
    · cases h
    · rename_i hne
      cases h
      refine ⟨_, fun _ => rfl, Fills.gate .ellipse ⟨fun s hp hc => ?_⟩⟩
      rw [if_neg hne]
      exact (Fills.plotAll c _).run s hp hc

/-- An operation that draws spans is one run, which fills its windows. -/
theorem exec_spans {i : Instr} {ws : List Window} (h : spanWindows i = some (ws, c)) :
    ∃ f, (∀ s, exec i s = complete (f s)) ∧ Fills c f ws := by
  cases i <;> simp only [spanWindows, reduceCtorEq, Option.some.injEq, Prod.mk.injEq] at h <;> obtain ⟨rfl, rfl⟩ := h
  case roundRect => exact ⟨_, fun _ => rfl, .opRoundRect ..⟩
  case filledCircle => exact ⟨_, fun _ => rfl, (Fills.all (Fills.opVline _) _).gate .filledCircle⟩
  case filledEllipse => exact ⟨_, fun _ => rfl, (Fills.all (Fills.opHline _) _).gate .filledEllipse⟩

/-- The units of the points' windows are those of the plots. -/
theorem flatMap_units_pointWindow (cfg : Config) (c : Color) (ps : List (Int × Int)) :
    (ps.map pointWindow).flatMap (Window.units cfg c) = ps.flatMap (plotUnits cfg c) := by
  simp only [List.flatMap_map, pointWindow_units]

/-- The positions of the points' windows are the points. -/
theorem flatMap_positions_pointWindow (ps : List (Int × Int)) :
    (ps.map pointWindow).flatMap Window.positions = ps := by
  simp only [List.flatMap_map, pointWindow_positions, List.flatMap_singleton']

/-- Settles O46: each operation fills its windows in order, and filling stops at the first one outside the frame. -/
theorem plottingStopsAtFirstPointOutside : Obligations.PlottingStopsAtFirstPointOutside := by
  unfold Obligations.PlottingStopsAtFirstPointOutside
  refine ⟨fun i s pre post p c h hm hf hi hpre hp => ?_, fun i s pre post w c h hm hf hi hpre hw => ?_⟩
  · obtain ⟨f, hexec, hfills⟩ := exec_plots hi
    have hin : ∀ v ∈ pre.map pointWindow, v.In s.ctl.orient := by
      intro v hv
      obtain ⟨q, hq, rfl⟩ := List.mem_map.1 hv
      exact pointWindow_in.2 (hpre q hq)
    obtain ⟨t, ht, hfault, hpc, htrace, hpainted, hkept⟩ :=
      fillAll_stops (post := post.map pointWindow) h hm hf hin (mt pointWindow_in.1 hp) c
    rw [flatMap_units_pointWindow] at htrace
    rw [flatMap_positions_pointWindow] at hpainted
    rw [Window.faultInfo_outOfBounds (Int.le_refl _) (Int.le_refl _)] at hfault
    refine ⟨t, ?_, hfault, hpc, htrace, hpainted, hkept⟩
    rw [hexec, hfills.run s h.phase (Config.wf_opcs h.codes), List.map_append, List.map_cons, ht, complete_stop]
  · obtain ⟨f, hexec, hfills⟩ := exec_spans hi
    obtain ⟨t, ht, hstopped⟩ := fillAll_stops (post := post) h hm hf hpre hw c
    refine ⟨t, ?_, hstopped⟩
    rw [hexec, hfills.run s h.phase (Config.wf_opcs h.codes), ht, complete_stop]

end Sys2Proof.Machine
end

section
/-! PROOFS. LINE and RECT (43_geometry_basic.md R226, R227): a line stays in the box between its endpoints, and fills
it when the line is along an axis. -/
namespace Sys2Proof.Machine

variable {s : State} {x0 y0 x1 y1 : Int} {p : Int × Int}

/-- A line between two points of the frame stays in the frame. -/
theorem inFrame_of_mem_linePoints {o : Orient} (h0 : InFrame o (x0, y0)) (h1 : InFrame o (x1, y1))
    (hp : p ∈ linePoints x0 y0 x1 y1) : InFrame o p := by
  have hbox := (linePoints_isLine x0 y0 x1 y1).box p hp
  simp only [InFrame] at *
  omega

/-- A line along an axis fills the box between its endpoints: it has as many points as the box, none of them twice. -/
theorem mem_linePoints_axis (haxis : x0 = x1 ∨ y0 = y1) :
    p ∈ linePoints x0 y0 x1 y1 ↔
      min x0 x1 ≤ p.1 ∧ p.1 ≤ max x0 x1 ∧ min y0 y1 ≤ p.2 ∧ p.2 ≤ max y0 y1 := by
  obtain ⟨-, -, hlength, hnodup, -, hbox⟩ := linePoints_isLine x0 y0 x1 y1
  refine ⟨hbox p, fun hp => ?_⟩
  obtain ⟨hx0, hx1, hy0, hy1⟩ := hp
  have hcells := Window.mem_positions (w := ⟨min x0 x1, min y0 y1, max x0 x1, max y0 y1⟩) (Int.le_trans hx0 hx1)
    (Int.le_trans hy0 hy1)
  refine mem_of_nodup_of_length_le hnodup (fun q hq => (hcells q.1 q.2).2 (hbox q hq)) ?_
    ((hcells p.1 p.2).2 ⟨hx0, hx1, hy0, hy1⟩)
  rw [hlength, Window.positions, firstPositions, List.length_map, List.length_range, Window.area]
  simp only
  rcases haxis with rfl | rfl
  · rw [show (max x0 x0 - min x0 x0 + 1).toNat = 1 by omega]
    omega
  · rw [show (max y0 y0 - min y0 y0 + 1).toNat = 1 by omega]
    omega

/-- A position of byte operands in the frame. -/
theorem inFrame_int8 {o : Orient} {x y : Byte} (hx : x.toNat < frameW o) (hy : y.toNat < frameH o) :
    InFrame o (int8 x, int8 y) :=
  ⟨Int.natCast_nonneg _, Int.ofNat_lt.2 hx, Int.natCast_nonneg _, Int.ofNat_lt.2 hy⟩

/-- In phase On LINE plots its points (43_geometry_basic.md R226). -/
theorem opLine_plots (hp : s.ctl.phase = .on) (x0 y0 x1 y1 : Int) (c : Color) :
    opLine x0 y0 x1 y1 c s = plotAll c (linePoints x0 y0 x1 y1) s := by
  rw [opLine, gate_on hp, Run.andThen_ok]

/-- With the bus closed LINE faults at its first point (40_bus_transport.md R124). -/
theorem opLine_closed (hp : s.ctl.phase = .on) (hb : s.busOpen = false) (hin : InFrame s.ctl.orient (x0, y0))
    (x1 y1 : Int) (c : Color) : opLine x0 y0 x1 y1 c s = .stop (s.raise (.busClosed .cmd s.cfg.opcCaset)) := by
  obtain ⟨l, hl⟩ := List.head?_eq_some_iff.1 (linePoints_isLine x0 y0 x1 y1).head
  rw [opLine_plots hp, hl, plotAll_closed hp hb hin]

/-- A LINE between two points of the frame completes, with its end point as the window (43_geometry_basic.md R226). -/
theorem opLine_drew (h : Drawing s) (hm : MapsWf s.cfg) (h0 : InFrame s.ctl.orient (x0, y0))
    (h1 : InFrame s.ctl.orient (x1, y1)) (c : Color) :
    ∃ t, opLine x0 y0 x1 y1 c s = .ok t ∧
      Drew 0 s t ((linePoints x0 y0 x1 y1).flatMap (plotUnits s.cfg c)) (linePoints x0 y0 x1 y1) c ∧
      WindowIs t x1 y1 x1 y1 := by
  have hin : ∀ q ∈ linePoints x0 y0 x1 y1, InFrame s.ctl.orient q := fun q => inFrame_of_mem_linePoints h0 h1
  obtain ⟨t, ht, hdrew⟩ := plotAll_drew c _ h hm hin
  obtain ⟨l, hl⟩ := List.getLast?_eq_some_iff.1 (linePoints_isLine x0 y0 x1 y1).last
  exact ⟨t, (opLine_plots h.phase ..).trans ht, hdrew, plotAll_window c l (x1, y1) h hm (hl ▸ hin) (hl ▸ ht)⟩

/-- Settles O42: the points of a line stay in the frame with its endpoints, and its last point is its end. -/
theorem lineResult : Obligations.LineResult := by
  unfold Obligations.LineResult
  refine ⟨fun s x0 y0 x1 y1 c hp hf hb hx hy => ?_, fun s x0 y0 x1 y1 c h hm hx0 hx1 hy0 hy1 => ⟨?_, ?_⟩⟩
  · exact complete_raised (opLine_closed hp hb (inFrame_int8 hx hy) (int8 x1) (int8 y1) c) hf
  · rw [length_flatMap_plotUnits, (linePoints_isLine ..).length, Nat.mul_comm]
  · obtain ⟨t, ht, hdrew, hwindow⟩ := opLine_drew h hm (inFrame_int8 hx0 hy0) (inFrame_int8 hx1 hy1) c
    exact ⟨t.advancePc, congrArg complete ht, hdrew.advance, hwindow⟩

/-- With the bus closed RECT faults at its first point (40_bus_transport.md R124). -/
theorem opRect_closed (hp : s.ctl.phase = .on) (hb : s.busOpen = false) (hin : InFrame s.ctl.orient (x0, y0))
    (x1 y1 : Int) (c : Color) : opRect x0 y0 x1 y1 c s = .stop (s.raise (.busClosed .cmd s.cfg.opcCaset)) := by
  rw [opRect, gate_on hp, Run.andThen_ok, opLine_closed hp hb hin, Run.andThen_stop]

/-- The points of RECT, in drawing order: top, bottom, left, right (43_geometry_basic.md R227). -/
def rectPoints (x0 y0 x1 y1 : Int) : List (Int × Int) :=
  linePoints x0 y0 x1 y0 ++ linePoints x0 y1 x1 y1 ++ linePoints x0 y0 x0 y1 ++ linePoints x1 y0 x1 y1

/-- The points of RECT are those of the outline between its corners (43_geometry_basic.md R227). -/
theorem mem_rectPoints (x y : Int) :
    (x, y) ∈ rectPoints x0 y0 x1 y1 ↔ min x0 x1 ≤ x ∧ x ≤ max x0 x1 ∧ min y0 y1 ≤ y ∧ y ≤ max y0 y1 ∧
      (x = x0 ∨ x = x1 ∨ y = y0 ∨ y = y1) := by
  simp only [rectPoints, List.mem_append]
  rw [mem_linePoints_axis (.inr rfl), mem_linePoints_axis (.inr rfl), mem_linePoints_axis (.inl rfl),
    mem_linePoints_axis (.inl rfl)]
  omega

theorem length_rectPoints (x0 y0 x1 y1 : Int) :
    (rectPoints x0 y0 x1 y1).length = 2 * ((x1 - x0).natAbs + 1) + 2 * ((y1 - y0).natAbs + 1) := by
  simp only [rectPoints, List.length_append, (linePoints_isLine ..).length]
  omega

/-- A RECT with its corners in the frame completes (43_geometry_basic.md R227). -/
theorem opRect_drew (h : Drawing s) (hm : MapsWf s.cfg) (h0 : InFrame s.ctl.orient (x0, y0))
    (h1 : InFrame s.ctl.orient (x1, y1)) (c : Color) :
    ∃ t, opRect x0 y0 x1 y1 c s = .ok t ∧
      Drew 0 s t ((rectPoints x0 y0 x1 y1).flatMap (plotUnits s.cfg c)) (rectPoints x0 y0 x1 y1) c := by
  have hin : ∀ w ∈ (rectPoints x0 y0 x1 y1).map pointWindow, w.In s.ctl.orient := by
    intro w hw
    obtain ⟨⟨x, y⟩, hq, rfl⟩ := List.mem_map.1 hw
    rw [mem_rectPoints] at hq
    simp only [pointWindow_in, InFrame] at *
    omega
  obtain ⟨t, ht, hdrew⟩ := fillAll_drew h hm hin c
  rw [flatMap_units_pointWindow, flatMap_positions_pointWindow] at hdrew
  exact ⟨t, ((Fills.opRect x0 y0 x1 y1 c).run s h.phase (Config.wf_opcs h.codes)).trans ht, hdrew⟩

/-- Settles O43: the edges are lines along an axis, so they are the outline between the corners. -/
theorem rectResult : Obligations.RectResult := by
  unfold Obligations.RectResult
  refine ⟨fun s x0 y0 x1 y1 c hp hf hb hx hy => ?_, fun s x0 y0 x1 y1 c h hm hx0 hx1 hy0 hy1 => ?_⟩
  · exact complete_raised (opRect_closed hp hb (inFrame_int8 hx hy) (int8 x1) (int8 y1) c) hf
  · obtain ⟨u, hu, hdrew⟩ := opRect_drew h hm (inFrame_int8 hx0 hy0) (inFrame_int8 hx1 hy1) c
    obtain ⟨t, ht, hdrew⟩ := complete_drew hu hdrew
    refine ⟨t, _, _, ht, hdrew, rfl, rfl, ?_, fun x y => ?_⟩
    · rw [length_flatMap_plotUnits, length_rectPoints, Nat.mul_comm]
      rfl
    · rw [mem_rectPoints]
      simp only [int8, Int.ofNat_eq_natCast]
      omega

end Sys2Proof.Machine
end

section
/-! PROOFS. The cells of circles and discs around the centre (44_geometry_curves.md R250 to R255 and section 3): a
circle has the offsets of its octant pairs with every sign, and a disc has a column of cells for each offset. -/
namespace Sys2Proof.Machine

variable {r : Nat} {cx cy dx dy : Int}

/-- The four quadrants give the offsets (x, y) and (y, x) with every choice of signs (44_geometry_curves.md R250,
R252). -/
theorem mem_quadrantPoints_all (x y : Nat) :
    (cx + dx, cy + dy) ∈ [0, 1, 2, 3].flatMap (quadrantPoints cx cy x y) ↔
      dx.natAbs = x ∧ dy.natAbs = y ∨ dx.natAbs = y ∧ dy.natAbs = x := by
  simp only [quadrantPoints, quadrant, List.flatMap_cons, List.flatMap_nil, List.mem_append, List.mem_cons,
    List.not_mem_nil, or_false, Prod.mk.injEq]
  omega

/-- The cells of a circle, by their offsets from its centre (44_geometry_curves.md R252, R253). -/
theorem mem_circlePoints :
    (cx + dx, cy + dy) ∈ circleQuadPoints cx cy r 0x0F ↔ ∃ x ≤ circleBound r,
      dx.natAbs = x ∧ dy.natAbs = circleHeight r x ∨ dx.natAbs = circleHeight r x ∧ dy.natAbs = x := by
  rw [circleQuadPoints, filter_maskBit_all, List.mem_flatMap]
  simp only [mem_quadrantPoints_all, List.mem_range, Nat.lt_succ_iff]

/-- Settles O49: the offsets of a circle come with every sign, and each with its diagonal mirror. -/
theorem circleSymmetry : Obligations.CircleSymmetry := by
  unfold Obligations.CircleSymmetry
  intro cx cy r x y h
  rw [mem_circlePoints] at h
  obtain ⟨k, hk, h⟩ := h
  refine ⟨mem_circlePoints.2 ⟨k, hk, ?_⟩, mem_circlePoints.2 ⟨k, hk, ?_⟩, mem_circlePoints.2 ⟨k, hk, ?_⟩⟩
  · rwa [Int.natAbs_neg]
  · rwa [Int.natAbs_neg]
  · exact h.symm.imp And.symm And.symm

/-! ### The disc -/

/-- The cells of a vertical span (43_geometry_basic.md R224). -/
theorem mem_vlinePositions {x y len X Y : Int} : (X, Y) ∈ vlinePositions (x, y, len) ↔ X = x ∧ y ≤ Y ∧ Y < y + len := by
  simp only [vlinePositions, List.mem_map, List.mem_range, Prod.mk.injEq]
  constructor
  · rintro ⟨k, hk, rfl, rfl⟩
    omega
  · rintro ⟨rfl, hy, hY⟩
    exact ⟨(Y - y).toNat, by omega⟩

/-- The cells of a disc, by their offsets from its centre (44_geometry_curves.md R255). -/
theorem mem_discPositions :
    (cx + dx, cy + dy) ∈ (filledCircleSpans cx cy r).flatMap vlinePositions ↔
      dx.natAbs ≤ r ∧ dy.natAbs ≤ circleHeight r dx.natAbs := by
  simp only [filledCircleSpans, List.flatMap_assoc, List.flatMap_cons, List.flatMap_nil, List.append_nil,
    List.mem_flatMap, List.mem_range, List.mem_append, mem_vlinePositions]
  constructor
  · rintro ⟨x, hx, h⟩
    obtain rfl : x = dx.natAbs := by omega
    omega
  · rintro ⟨hx, hy⟩
    exact ⟨dx.natAbs, by omega⟩

/-- A point (h, x) of the circle, the diagonal mirror of (x, h), is under the height at h: its square fits, and the
height is the largest whose square does. -/
theorem le_circleHeight_circleHeight {x : Nat} (hr : r ≤ 255) (hx : x ≤ r) :
    x ≤ circleHeight r (circleHeight r x) := by
  obtain ⟨hle, -⟩ := circleHeight_bounds hr x
  obtain ⟨-, hlt⟩ := circleHeight_bounds hr (circleHeight r x)
  have hsq : x * x ≤ r * r := Nat.mul_le_mul hx hx
  have hroot : x * x < (circleHeight r (circleHeight r x) + 1) * (circleHeight r (circleHeight r x) + 1) := by omega
  exact Nat.le_of_lt_succ (Nat.mul_self_lt_mul_self_iff.1 hroot)

/-- Settles O52: a point (x, h) of the circle is the end of a column of the disc, and its mirror (h, x) lies under the
height at h. -/
theorem discCoversCircle : Obligations.DiscCoversCircle := by
  unfold Obligations.DiscCoversCircle
  rintro cx cy r hr ⟨X, Y⟩ hp
  obtain ⟨dx, rfl⟩ : ∃ dx, X = cx + dx := ⟨X - cx, by omega⟩
  obtain ⟨dy, rfl⟩ : ∃ dy, Y = cy + dy := ⟨Y - cy, by omega⟩
  obtain ⟨x, hx, h⟩ := mem_circlePoints.1 hp
  have hxr : x ≤ r := Nat.le_trans hx (circleBound_le r)
  rw [mem_discPositions]
  rcases h with ⟨h1, h2⟩ | ⟨h1, h2⟩ <;> rw [h1, h2]
  · exact ⟨hxr, Nat.le_refl _⟩
  · exact ⟨circleHeight_le (by omega) x, le_circleHeight_circleHeight (by omega) hxr⟩

end Sys2Proof.Machine
end

section
/-! PROOFS. The loops of the ellipse and of the square root end within the model's bounds (44_geometry_curves.md R256,
45_isqrt.md R290, 60_exceptions.md section 2). -/
namespace Sys2Proof.Machine

section
variable {ta tb : Int} {n : Nat}

/-- Region 1 ends within n iterations when n steps of `sx` take it past `sy`, which never rises: a larger bound gives
the same points. -/
theorem ellipseRegion1_ended (hta : 0 ≤ ta) (extra : Nat) {x y xc yc e sx sy : Int} (hend : sy < sx + n * tb) :
    ellipseRegion1 ta tb (n + extra) x y xc yc e sx sy = ellipseRegion1 ta tb n x y xc yc e sx sy := by
  induction n generalizing x y xc yc e sx sy with
  | zero =>
    have hpast : ¬ sx ≤ sy := by omega
    cases extra with
    | zero => rfl
    | succ k => simp only [ellipseRegion1, if_neg hpast]
  | succ n ih =>
    have hnext : sy < sx + tb + n * tb := by
      rw [Int.natCast_succ, Int.add_mul] at hend
      omega
    rw [Nat.succ_add]
    simp only [ellipseRegion1]
    rw [ih (show sy - ta < sx + tb + n * tb by omega), ih hnext]

/-- Region 2 is region 1 with the axes exchanged (44_geometry_curves.md R256). -/
theorem ellipseRegion2_eq_swap (ta tb : Int) (n : Nat) (x y xc yc e sx sy : Int) :
    ellipseRegion2 ta tb n x y xc yc e sx sy = (ellipseRegion1 tb ta n y x yc xc e sy sx).map Prod.swap := by
  induction n generalizing x y xc yc e sx sy with
  | zero => rfl
  | succ n ih =>
    simp only [ellipseRegion1, ellipseRegion2, ih]
    by_cases hin : sy ≤ sx
    · rw [if_pos hin, if_pos hin, List.map_cons]
      by_cases hstep : 0 < 2 * (e + yc) + xc
      · rw [if_pos hstep, if_pos hstep, Prod.swap]
      · rw [if_neg hstep, if_neg hstep, Prod.swap]
    · rw [if_neg hin, if_neg hin, List.map_nil]

end

/-- The step of `sy` is not negative. -/
theorem ellipseStep_nonneg (a : Nat) : (0 : Int) ≤ 2 * a * a :=
  Int.mul_nonneg (Int.mul_nonneg (by decide) (Int.natCast_nonneg a)) (Int.natCast_nonneg a)

/-- Region 1 of a flat ellipse is its centre, whatever the bound: the first iteration takes `sy` below `sx`
(60_exceptions.md section 2). -/
theorem ellipseRegion1_flat {a : Nat} (ha : a ≠ 0) (n : Nat) :
    ellipseRegion1 (2 * a * a) 0 (n + 1) 0 0 0 (a * a) 0 0 0 = [(0, 0)] := by
  have hpos : (0 : Int) < a * a := Int.mul_pos (by omega) (by omega)
  have hpast : (0 : Int) - 2 * a * a < 0 := by rw [Int.mul_assoc]; omega
  have hended := ellipseRegion1_ended (n := 0) (ta := 2 * a * a) (tb := 0) (ellipseStep_nonneg a) n (x := 1) (y := -1)
    (xc := 0) (yc := a * a + 2 * a * a) (e := a * a) (sx := 0) (sy := 0 - 2 * a * a) (by simpa using hpast)
  simpa [ellipseRegion1, hpos] using hended

/-- Region 1 of an ellipse ends within a² + 2 iterations: with 0 < b, `sx` has passed 2a²b, where `sy` starts, after
a² + 1 (60_exceptions.md section 2). -/
theorem ellipseRegion1_bound {a b : Nat} (h : a ≠ 0 ∨ b ≠ 0) (extra : Nat) :
    ellipseRegion1 (2 * a * a) (2 * b * b) (a * a + 2 + extra) 0 b (b * b) (a * a * (1 - 2 * b)) 0 0 (2 * a * a * b) =
      ellipseRegion1 (2 * a * a) (2 * b * b) (a * a + 2) 0 b (b * b) (a * a * (1 - 2 * b)) 0 0 (2 * a * a * b) := by
  rcases Nat.eq_zero_or_pos b with rfl | hb
  · have ha : a ≠ 0 := h.resolve_right (· rfl)
    rw [show a * a + 2 + extra = a * a + 1 + extra + 1 by omega]
    simpa using (ellipseRegion1_flat ha _).trans (ellipseRegion1_flat ha _).symm
  · have hb1 : (1 : Int) ≤ b := by omega
    have hbb : (0 : Int) < b * b := Int.mul_pos hb1 hb1
    have hsy : (2 * a * a * b : Int) * 1 ≤ 2 * a * a * b * b :=
      Int.mul_le_mul_of_nonneg_left hb1 (Int.mul_nonneg (ellipseStep_nonneg a) (Int.natCast_nonneg b))
    have hsx : ((a * a + 2 : Nat) : Int) * (2 * b * b) = 2 * a * a * b * b + 4 * (b * b) := by grind
    exact ellipseRegion1_ended (ellipseStep_nonneg a) extra (by omega)

section
variable {bit : Byte} {n : Nat}

/-- The mask below 2ⁿ is zero after n halvings: a larger bound gives the same root. -/
theorem isqrtLoop_ended (v extra : Nat) (r : Byte) (hbit : bit.toNat < 2 ^ n) :
    isqrtLoop v (n + extra) r bit = isqrtLoop v n r bit := by
  induction n generalizing r bit with
  | zero =>
    have hzero : bit = 0 := BitVec.eq_of_toNat_eq (Nat.lt_one_iff.1 hbit)
    cases extra with
    | zero => rfl
    | succ k => simp only [isqrtLoop, if_pos hzero]
  | succ n ih =>
    have hshift : (bit >>> 1).toNat < 2 ^ n := by
      rw [BitVec.toNat_ushiftRight, Nat.shiftRight_eq_div_pow]
      omega
    rw [Nat.succ_add]
    simp only [isqrtLoop, ih _ hshift]

end

/-- Settles O56: both regions and the root end within their bounds; region 2 is region 1 of the exchanged axes. -/
theorem loopBoundsCutNothing : Obligations.LoopBoundsCutNothing := by
  unfold Obligations.LoopBoundsCutNothing
  refine ⟨fun a b extra h => ellipseRegion1_bound h extra, fun a b extra h => ?_,
    fun v extra => isqrtLoop_ended v extra 0 (n := 8) (by decide)⟩
  rw [ellipseRegion2_eq_swap, ellipseRegion2_eq_swap, ellipseRegion1_bound h.symm]

end Sys2Proof.Machine
end

section
/-! PROOFS. The span bound of the filled ellipse is the largest x of its row (44_geometry_curves.md R258). -/
namespace Sys2Proof.Machine

variable {a b x y xPrev : Nat}

/-- The offset (x, y) meets the test of the filled ellipse (44_geometry_curves.md R258). -/
def InEllipse (a b x y : Nat) : Prop := b * b * (x * x) + a * a * (y * y) ≤ a * a * (b * b)

theorem InEllipse.mono {x' y' : Nat} (h : InEllipse a b x y) (hx : x' ≤ x) (hy : y' ≤ y) : InEllipse a b x' y' :=
  Nat.le_trans (Nat.add_le_add (Nat.mul_le_mul_left _ (Nat.mul_le_mul hx hx))
    (Nat.mul_le_mul_left _ (Nat.mul_le_mul hy hy))) h

/-- The offset 0 meets the test on every row of the ellipse. -/
theorem inEllipse_zero (hy : y ≤ b) : InEllipse a b 0 y := by
  simpa [InEllipse] using Nat.mul_le_mul_left (a * a) (Nat.mul_le_mul hy hy)

/-- No offset of an ellipse is above its semi-axis. -/
theorem InEllipse.le (h : InEllipse a b x y) (hb : 0 < b) : x ≤ a := by
  have hsq : b * b * (x * x) ≤ b * b * (a * a) := by
    rw [Nat.mul_comm (b * b) (a * a)]
    exact Nat.le_trans (Nat.le_add_right ..) h
  exact Nat.mul_self_le_mul_self_iff.1 (Nat.le_of_mul_le_mul_left hsq (Nat.mul_pos hb hb))

/-- The search goes down from a candidate that fails, and stops at one that meets the test. -/
theorem ellipseSpan_succ (a b y x : Nat) :
    ¬ InEllipse a b (x + 1) y ∧ ellipseSpan a b y (x + 1) = ellipseSpan a b y x ∨
      InEllipse a b (x + 1) y ∧ ellipseSpan a b y (x + 1) = x + 1 := by
  rw [ellipseSpan]
  split
  · exact .inl ⟨Nat.not_le.2 ‹_›, rfl⟩
  · exact .inr ⟨Nat.not_lt.1 ‹_›, rfl⟩

theorem ellipseSpan_le (a b y xPrev : Nat) : ellipseSpan a b y xPrev ≤ xPrev := by
  induction xPrev with
  | zero => exact Nat.le_refl 0
  | succ x ih => rcases ellipseSpan_succ a b y x with ⟨-, h⟩ | ⟨-, h⟩ <;> omega

theorem inEllipse_ellipseSpan (hy : y ≤ b) (xPrev : Nat) : InEllipse a b (ellipseSpan a b y xPrev) y := by
  induction xPrev with
  | zero => exact inEllipse_zero hy
  | succ x ih =>
    rcases ellipseSpan_succ a b y x with ⟨-, h⟩ | ⟨hin, h⟩ <;> rw [h]
    · exact ih
    · exact hin

theorem le_ellipseSpan (hx : x ≤ xPrev) (hin : InEllipse a b x y) : x ≤ ellipseSpan a b y xPrev := by
  induction xPrev with
  | zero => exact hx
  | succ k ih =>
    rcases ellipseSpan_succ a b y k with ⟨hout, h⟩ | ⟨-, h⟩ <;> rw [h]
    · have hne : x ≠ k + 1 := by rintro rfl; exact hout hin
      exact ih (by omega)
    · exact hx

/-- When the search starts above the row, it finds the largest offset of the row. -/
theorem inEllipse_iff_le_ellipseSpan (hy : y ≤ b) (hprev : ∀ x, InEllipse a b x y → x ≤ xPrev) :
    InEllipse a b x y ↔ x ≤ ellipseSpan a b y xPrev :=
  ⟨fun h => le_ellipseSpan (hprev x h) h, fun h => (inEllipse_ellipseSpan hy xPrev).mono h (Nat.le_refl y)⟩

/-- Settles O54: the search stops at the largest x that meets the test, and a row is no wider than the row before. -/
theorem spanIsLargest : Obligations.SpanIsLargest := by
  unfold Obligations.SpanIsLargest
  refine ⟨fun a b y xPrev _ hy => ⟨ellipseSpan_le .., inEllipse_ellipseSpan hy xPrev, fun x => le_ellipseSpan⟩,
    fun a b x hb h => InEllipse.le (y := 0) h hb, fun a b y xPrev _ hprev x h => ?_⟩
  have hbefore : InEllipse a b x y := InEllipse.mono h (Nat.le_refl x) (Nat.le_succ y)
  exact le_ellipseSpan (hprev x hbefore) h

end Sys2Proof.Machine
end

section
/-! PROOFS. An operation made of plots or of spans, as an instruction: it completes when its windows are in the frame,
and with the bus closed it faults at the first one. -/
namespace Sys2Proof.Machine

variable {s : State} {c : Color}

/-- An operation that plots in the frame completes (43_geometry_basic.md R221). -/
theorem exec_plots_drew {i : Instr} {ps : List (Int × Int)} (hi : plottedPoints i = some (ps, c)) (h : Drawing s)
    (hm : MapsWf s.cfg) (hin : ∀ p ∈ ps, InFrame s.ctl.orient p) :
    ∃ t, exec i s = .next t ∧ Drew 1 s t (ps.flatMap (plotUnits s.cfg c)) ps c := by
  obtain ⟨f, hexec, hfills⟩ := exec_plots hi
  have hws : ∀ w ∈ ps.map pointWindow, w.In s.ctl.orient := by
    simpa only [List.forall_mem_map, pointWindow_in] using hin
  obtain ⟨u, hu, hdrew⟩ := fillAll_drew h hm hws c
  rw [flatMap_units_pointWindow, flatMap_positions_pointWindow] at hdrew
  rw [hexec]
  exact complete_drew ((hfills.run s h.phase (Config.wf_opcs h.codes)).trans hu) hdrew

/-- An operation that draws spans in the frame completes (43_geometry_basic.md R223, R224). -/
theorem exec_spans_drew {i : Instr} {ws : List Window} (hi : spanWindows i = some (ws, c)) (h : Drawing s)
    (hm : MapsWf s.cfg) (hin : ∀ w ∈ ws, w.In s.ctl.orient) :
    ∃ t, exec i s = .next t ∧ Drew 1 s t (ws.flatMap (Window.units s.cfg c)) (ws.flatMap Window.positions) c := by
  obtain ⟨f, hexec, hfills⟩ := exec_spans hi
  obtain ⟨u, hu, hdrew⟩ := fillAll_drew h hm hin c
  rw [hexec]
  exact complete_drew ((hfills.run s h.phase (Config.wf_opcs h.codes)).trans hu) hdrew

/-! ### With the bus closed -/

/-- Horizontal spans fault on the first unit of the first one in the frame, with the bus closed
(40_bus_transport.md R124). -/
theorem hlineAll_closed {p : Int × Int × Int} (hp : s.ctl.phase = .on) (hb : s.busOpen = false)
    (hw : (hlineWindow p).In s.ctl.orient) (c : Color) (l : List (Int × Int × Int)) :
    hlineAll c (p :: l) s = .stop (s.raise (.busClosed .cmd s.cfg.opcCaset)) := by
  rw [hlineAll, runAll_cons, opHline_fills hp, fillWindow_closed hp hb hw, Run.andThen_stop]

/-- Vertical spans fault on the first unit of the first one in the frame, with the bus closed
(40_bus_transport.md R124). -/
theorem vlineAll_closed {p : Int × Int × Int} (hp : s.ctl.phase = .on) (hb : s.busOpen = false)
    (hw : (vlineWindow p).In s.ctl.orient) (c : Color) (l : List (Int × Int × Int)) :
    vlineAll c (p :: l) s = .stop (s.raise (.busClosed .cmd s.cfg.opcCaset)) := by
  rw [vlineAll, runAll_cons, opVline_fills hp, fillWindow_closed hp hb hw, Run.andThen_stop]

/-! ### The units and positions of spans -/

theorem flatMap_units_hlineWindow (cfg : Config) (c : Color) (l : List (Int × Int × Int)) :
    (l.map hlineWindow).flatMap (Window.units cfg c) = l.flatMap (hlineUnits cfg c) := by
  simp only [List.flatMap_map, hlineWindow_units]

theorem flatMap_positions_hlineWindow (l : List (Int × Int × Int)) :
    (l.map hlineWindow).flatMap Window.positions = l.flatMap hlinePositions := by
  simp only [List.flatMap_map, hlineWindow_positions]

theorem flatMap_units_vlineWindow (cfg : Config) (c : Color) (l : List (Int × Int × Int)) :
    (l.map vlineWindow).flatMap (Window.units cfg c) = l.flatMap (vlineUnits cfg c) := by
  simp only [List.flatMap_map, vlineWindow_units]

theorem flatMap_positions_vlineWindow (l : List (Int × Int × Int)) :
    (l.map vlineWindow).flatMap Window.positions = l.flatMap vlinePositions := by
  simp only [List.flatMap_map, vlineWindow_positions]

end Sys2Proof.Machine
end

section
/-! PROOFS. CIRCLE_QUAD, FILLED_CIRCLE and ROUND_RECT (44_geometry_curves.md R250 to R255). -/
namespace Sys2Proof.Machine

/-! ### CIRCLE_QUAD -/

/-- The mask bits of a quadrant mask, without the bound that `maskBit` puts on them (44_geometry_curves.md R250). -/
theorem filter_maskBit (m : Byte) : (List.range 4).filter (maskBit m) = [0, 1, 2, 3].filter fun q => m.getLsbD q :=
  List.filter_congr (by simp [List.range_succ, maskBit])

/-- What a list gives element by element for those that pass a test. -/
theorem flatMap_filter_eq {α β : Type} (p : α → Bool) (f : α → List β) (l : List α) :
    (l.filter p).flatMap f = l.flatMap fun a => if p a then f a else [] := by
  induction l with
  | nil => rfl
  | cons a l ih => rw [List.filter_cons]; split <;> simp [*]

/-- The points of CIRCLE_QUAD, step by step and mask bit by mask bit (44_geometry_curves.md R252). -/
theorem circleQuadPoints_eq (cx cy : Int) (r : Nat) (m : Byte) :
    circleQuadPoints cx cy r m = (List.range (circleBound r + 1)).flatMap fun (x : Nat) =>
      [0, 1, 2, 3].flatMap fun q => if m.getLsbD q then quadrantPoints cx cy x (circleHeight r x) q else [] := by
  simp only [circleQuadPoints, filter_maskBit, flatMap_filter_eq]

/-- Settles O47: the operation is the plots of its points. -/
theorem circleQuadResult : Obligations.CircleQuadResult := by
  unfold Obligations.CircleQuadResult
  refine ⟨fun _ => rfl, ⟨rfl, rfl, rfl, rfl⟩, fun _ _ _ _ _ _ => exec_notOn rfl,
    fun s cx cy r m c p post hp hf hb hpoints hin => ?_, fun s cx cy r m c h hm hin => ?_⟩
  · refine complete_raised (r := opCircleQuad (int8 cx) (int8 cy) r.toNat m c s) ?_ hf
    rw [opCircleQuad, gate_on hp, Run.andThen_ok]
    exact (congrArg (plotAll c · s) hpoints).trans (plotAll_closed hp hb hin c post)
  · obtain ⟨t, ht, hdrew⟩ := exec_plots_drew (i := .circleQuad cx cy r m c) rfl h hm hin
    have hlength := length_circleQuadPoints (int8 cx) (int8 cy) r.toNat m
    refine ⟨t, _, _, ht, hdrew, rfl, circleQuadPoints_eq .., ?_, ?_⟩
    · rw [length_flatMap_plotUnits, hlength, filter_maskBit, Nat.mul_assoc 26, ← Nat.mul_assoc]
      omega
    · rintro rfl
      rw [List.eq_nil_of_length_eq_zero hlength]
      rfl

/-! ### FILLED_CIRCLE -/

/-- The spans of a disc in the frame are windows of the frame (44_geometry_curves.md R255). -/
theorem filledCircleSpans_in {o : Orient} {cx cy : Int} {r : Nat} (hr : r ≤ 255) (hx0 : r ≤ cx) (hy0 : r ≤ cy)
    (hx : cx + r < frameW o) (hy : cy + r < frameH o) :
    ∀ w ∈ (filledCircleSpans cx cy r).map vlineWindow, w.In o := by
  simp only [filledCircleSpans, List.forall_mem_map, List.forall_mem_flatMap, List.mem_range, List.forall_mem_cons]
  intro x hx
  have hheight := circleHeight_le hr x
  simp only [Window.In, WindowIn, vlineWindow, Int.ofNat_eq_natCast]
  refine ⟨by omega, by omega, by simp⟩

/-- The first span of a disc is the column through its centre (44_geometry_curves.md R255). -/
theorem filledCircleSpans_first (cx cy : Int) {r : Nat} (hr : r ≤ 255) :
    ∃ l, filledCircleSpans cx cy r = (cx, cy - r, 2 * (r : Int) + 1) :: l := by
  rw [filledCircleSpans, List.range_succ_eq_map]
  simp [circleHeight_zero hr]

/-- Settles O51: the operation is its vertical spans, whose cells are the disc. -/
theorem filledCircleResult : Obligations.FilledCircleResult := by
  unfold Obligations.FilledCircleResult
  refine ⟨fun _ _ _ _ _ => exec_notOn rfl, fun s cx cy r c hp hf hb hx hy0 hy => ?_,
    fun s cx cy r c h hm hx0 hy0 hx hy => ?_⟩ <;> have hr : r.toNat ≤ 255 := Nat.le_of_lt_succ r.isLt
  · obtain ⟨l, hl⟩ := filledCircleSpans_first (int8 cx) (int8 cy) hr
    have hw : (vlineWindow (int8 cx, int8 cy - r.toNat, 2 * r.toNat + 1)).In s.ctl.orient := by
      simp only [Window.In, WindowIn, vlineWindow, int8, Int.ofNat_eq_natCast]
      omega
    refine complete_raised (r := opFilledCircle (int8 cx) (int8 cy) r.toNat c s) ?_ hf
    rw [opFilledCircle, gate_on hp, Run.andThen_ok, hl, vlineAll_closed hp hb hw]
  · obtain ⟨t, ht, hdrew⟩ := exec_spans_drew (i := .filledCircle cx cy r c) rfl h hm
      (filledCircleSpans_in hr (Int.ofNat_le.2 hx0) (Int.ofNat_le.2 hy0) (Int.ofNat_lt.2 hx) (Int.ofNat_lt.2 hy))
    rw [flatMap_units_vlineWindow, flatMap_positions_vlineWindow] at hdrew
    refine ⟨t, _, _, _, ht, hdrew, rfl, rfl, rfl, ?_, fun dx dy => mem_discPositions⟩
    rw [filledCircleSpans, length_flatMap_const (n := 2) fun _ => rfl, List.length_range, Nat.mul_comm]

/-! ### ROUND_RECT -/

section
variable {s : State} {x0 y0 x1 y1 : Int} {r : Nat}

/-- The inset horizontal edges, as windows (44_geometry_curves.md R254). -/
theorem roundRectRows_windows (x0 y0 x1 y1 : Int) (r : Nat) :
    (roundRectRows x0 y0 x1 y1 r).map hlineWindow = [⟨x0 + r, y0, x1 - r, y0⟩, ⟨x0 + r, y1, x1 - r, y1⟩] := by
  have hend : x0 + r + (x1 - x0 + 1 - 2 * r) - 1 = x1 - r := by omega
  simp only [roundRectRows, List.map_cons, List.map_nil, hlineWindow, hend]

/-- The inset vertical edges, as windows (44_geometry_curves.md R254). -/
theorem roundRectColumns_windows (x0 y0 x1 y1 : Int) (r : Nat) :
    (roundRectColumns x0 y0 x1 y1 r).map vlineWindow = [⟨x0, y0 + r, x0, y1 - r⟩, ⟨x1, y0 + r, x1, y1 - r⟩] := by
  have hend : y0 + r + (y1 - y0 + 1 - 2 * r) - 1 = y1 - r := by omega
  simp only [roundRectColumns, List.map_cons, List.map_nil, vlineWindow, hend]

/-- The corners lie in the rectangle, when it is wider and higher than they are. -/
theorem roundRectCorners_inFrame {o : Orient} (hr : r ≤ 255) (hx0 : 0 ≤ x0) (hy0 : 0 ≤ y0) (hx1 : x1 < frameW o)
    (hy1 : y1 < frameH o) (hx : x0 + 2 * r ≤ x1) (hy : y0 + 2 * r ≤ y1) :
    ∀ p ∈ roundRectCorners x0 y0 x1 y1 r, InFrame o p := by
  intro p hp
  simp only [roundRectCorners, List.mem_append, or_assoc] at hp
  rcases hp with hp | hp | hp | hp <;> refine (within_of_mem_circleQuadPoints hr hp).inFrame ?_ ?_ ?_ ?_ <;> omega

/-- Edges and corners in the frame are windows of the frame, when each inset edge has a cell
(44_geometry_curves.md R254). -/
theorem roundRectWindows_in {o : Orient} (hr : r ≤ 255) (hx0 : 0 ≤ x0) (hy0 : 0 ≤ y0) (hx1 : x1 < frameW o)
    (hy1 : y1 < frameH o) (hx : 0 < x1 - x0 + 1 - 2 * r) (hy : 0 < y1 - y0 + 1 - 2 * r) :
    ∀ w ∈ (roundRectRows x0 y0 x1 y1 r).map hlineWindow ++ (roundRectColumns x0 y0 x1 y1 r).map vlineWindow ++
      (roundRectCorners x0 y0 x1 y1 r).map pointWindow, w.In o := by
  have hcorners := roundRectCorners_inFrame (r := r) hr hx0 hy0 hx1 hy1 (by omega) (by omega)
  simp only [roundRectRows_windows, roundRectColumns_windows, List.forall_mem_append, List.forall_mem_cons,
    List.forall_mem_map, Window.In, WindowIn, Int.ofNat_eq_natCast]
  exact ⟨⟨⟨by omega, by omega, by simp⟩, by omega, by omega, by simp⟩, fun p hp => pointWindow_in.2 (hcorners p hp)⟩

/-- The corners have one mask bit each (44_geometry_curves.md R254). -/
theorem length_roundRectCorners (x0 y0 x1 y1 : Int) (r : Nat) :
    (roundRectCorners x0 y0 x1 y1 r).length = 8 * (circleBound r + 1) := by
  have hbit : ∀ m ∈ [0x08, 0x02, 0x04, 0x01], ((List.range 4).filter (maskBit m)).length = 1 := by decide
  simp only [List.forall_mem_cons] at hbit
  obtain ⟨h8, h2, h4, h1, -⟩ := hbit
  simp only [roundRectCorners, List.length_append, length_circleQuadPoints, h8, h2, h4, h1]
  omega

theorem length_hlineUnits (cfg : Config) (c : Color) (p : Int × Int × Int) :
    (hlineUnits cfg c p).length = 11 + 2 * p.2.2.toNat :=
  (windowWriteUnitCounts ..).1

theorem length_vlineUnits (cfg : Config) (c : Color) (p : Int × Int × Int) :
    (vlineUnits cfg c p).length = 11 + 2 * p.2.2.toNat :=
  (windowWriteUnitCounts ..).1

/-- The units of a whole ROUND_RECT: eleven per edge and two per cell of it, and 13 per corner point
(42_controller_protocol.md R206, 44_geometry_curves.md R254). -/
theorem length_roundRectUnits (cfg : Config) (c : Color) (hx : 0 < x1 - x0 + 1 - 2 * r)
    (hy : 0 < y1 - y0 + 1 - 2 * r) :
    (((roundRectRows x0 y0 x1 y1 r).flatMap (hlineUnits cfg c) ++
        (roundRectColumns x0 y0 x1 y1 r).flatMap (vlineUnits cfg c) ++
        (roundRectCorners x0 y0 x1 y1 r).flatMap (plotUnits cfg c)).length : Int) =
      44 + 4 * (x1 - x0 + 1 - 2 * r) + 4 * (y1 - y0 + 1 - 2 * r) + 104 * (circleBound r + 1) := by
  simp only [List.length_append, length_flatMap_plotUnits, length_roundRectCorners, roundRectRows, roundRectColumns,
    List.flatMap_cons, List.flatMap_nil, List.length_nil, length_hlineUnits, length_vlineUnits]
  omega

/-- ROUND_RECT stops where its top edge does (44_geometry_curves.md R254). -/
theorem opRoundRect_stopped {c : Color} {t : State} (hp : s.ctl.phase = .on)
    (hstop : fillWindow c ⟨x0 + r, y0, x1 - r, y0⟩ s = .stop t) : opRoundRect x0 y0 x1 y1 r c s = .stop t := by
  have hend : x0 + r + (x1 - x0 + 1 - 2 * r) - 1 = x1 - r := by omega
  have htop := opHline_fills hp (x0 + r, y0, x1 - x0 + 1 - 2 * r) c
  simp only [hlineWindow, hend] at htop
  simp only [opRoundRect, gate_on hp, Run.andThen_ok, htop, hstop, Run.andThen_stop]

end

/-- The windows of ROUND_RECT, up to its left edge and after it (44_geometry_curves.md R254). -/
theorem spanWindows_roundRect (x0 y0 x1 y1 r : Byte) (c : Color) :
    spanWindows (.roundRect x0 y0 x1 y1 r c) =
      some ((roundRectRows (int8 x0) (int8 y0) (int8 x1) (int8 y1) r.toNat).map hlineWindow ++
        ⟨int8 x0, int8 y0 + r.toNat, int8 x0, int8 y1 - r.toNat⟩ ::
        (⟨int8 x1, int8 y0 + r.toNat, int8 x1, int8 y1 - r.toNat⟩ ::
          (roundRectCorners (int8 x0) (int8 y0) (int8 x1) (int8 y1) r.toNat).map pointWindow), c) := by
  rw [spanWindows, roundRectColumns_windows, List.append_assoc]
  rfl

/-- Settles O50: the operation fills the windows of its edges and corners in order, and stops at an inset edge with no
cell. -/
theorem roundRectResult : Obligations.RoundRectResult := by
  unfold Obligations.RoundRectResult
  intro s x0 y0 x1 y1 r c
  have hr : r.toNat ≤ 255 := Nat.le_of_lt_succ r.isLt
  refine ⟨exec_notOn rfl, fun hp hf hb hx1 hy0 hx => ?_, fun hp hf hx => ?_, fun h hm hf hx1 hy0 hy1 hx hy => ?_,
    fun h hm hx1 hy1 hx hy => ?_⟩
  · have hw : Window.In s.ctl.orient ⟨int8 x0 + r.toNat, int8 y0, int8 x1 - r.toNat, int8 y0⟩ := by
      simp only [Window.In, WindowIn, int8, Int.ofNat_eq_natCast]
      omega
    exact complete_raised (opRoundRect_stopped (y1 := int8 y1) hp (fillWindow_closed hp hb hw c)) hf
  · have hform : int8 x1 - r.toNat < int8 x0 + r.toNat := by
      simp only [int8, Int.ofNat_eq_natCast]
      omega
    have hstop := fillWindow_refused (w := ⟨int8 x0 + r.toNat, int8 y0, int8 x1 - r.toNat, int8 y0⟩) hp
      (fun hw => absurd hw.2.1 (Int.not_le.2 hform)) c
    rw [Window.faultInfo_malformed (.inl hform)] at hstop
    exact complete_raised (opRoundRect_stopped (y1 := int8 y1) hp hstop) hf
  · have hform : int8 y1 - r.toNat < int8 y0 + r.toNat := by
      simp only [int8, Int.ofNat_eq_natCast]
      omega
    have hrows : ∀ w ∈ (roundRectRows (int8 x0) (int8 y0) (int8 x1) (int8 y1) r.toNat).map hlineWindow,
        w.In s.ctl.orient := by
      simp only [roundRectRows_windows, List.forall_mem_cons, Window.In, WindowIn, int8, Int.ofNat_eq_natCast]
      exact ⟨by omega, by omega, by simp⟩
    obtain ⟨t, ht, hfault, hpc, htrace, hpainted, hkept⟩ := plottingStopsAtFirstPointOutside.2 _ s _ _ _ c h hm hf
      (spanWindows_roundRect ..) hrows (fun hw => absurd hw.2.2.2.2.1 (Int.not_le.2 hform))
    rw [Window.faultInfo_malformed (.inr hform)] at hfault
    rw [flatMap_units_hlineWindow] at htrace
    rw [flatMap_positions_hlineWindow] at hpainted
    exact ⟨t, ht, hpc, hfault, htrace, hpainted, hkept⟩
  · have hin := roundRectWindows_in (o := s.ctl.orient) (x0 := int8 x0) (y0 := int8 y0) (x1 := int8 x1) (y1 := int8 y1)
      hr (Int.natCast_nonneg _) (Int.natCast_nonneg _) (Int.ofNat_lt.2 hx1) (Int.ofNat_lt.2 hy1) hx hy
    obtain ⟨t, ht, hdrew⟩ := exec_spans_drew (i := .roundRect x0 y0 x1 y1 r c) rfl h hm hin
    simp only [List.flatMap_append, flatMap_units_hlineWindow, flatMap_units_vlineWindow, flatMap_units_pointWindow,
      flatMap_positions_hlineWindow, flatMap_positions_vlineWindow, flatMap_positions_pointWindow] at hdrew
    exact ⟨t, _, _, ht, hdrew, rfl, rfl, length_roundRectUnits s.cfg c hx hy⟩

end Sys2Proof.Machine
end

section
/-! PROOFS. ELLIPSE and FILLED_ELLIPSE (44_geometry_curves.md R256 to R259). -/
namespace Sys2Proof.Machine

/-! ### ELLIPSE -/

/-- The first boundary point of an ellipse is the one b rows below the centre (44_geometry_curves.md R256). -/
theorem ellipsePoints_first (a b : Nat) : ∃ l, ellipsePoints a b = (0, (b : Int)) :: l := by
  have hstart : (0 : Int) ≤ 2 * a * a * b := Int.mul_nonneg (ellipseStep_nonneg a) (Int.natCast_nonneg b)
  simp only [ellipsePoints, ellipseRegion1, if_pos hstart, List.cons_append]
  exact ⟨_, rfl⟩

/-- The points of a whole ELLIPSE are those of `ellipsePoints` with their mirrors (44_geometry_curves.md R257). -/
theorem plottedPoints_ellipse {w h : Byte} (hne : ¬ (semiAxis w = 0 ∧ semiAxis h = 0)) (cx cy : Byte) (c : Color) :
    plottedPoints (.ellipse cx cy w h c) =
      some ((ellipsePoints (semiAxis w) (semiAxis h)).flatMap (mirrorPoints (int8 cx) (int8 cy)), c) :=
  if_neg hne

/-- Settles O53: the operation is the plots of the mirrored boundary points. -/
theorem ellipseResult : Obligations.EllipseResult := by
  unfold Obligations.EllipseResult
  intro s cx cy w h c
  refine ⟨exec_notOn rfl, fun hp hf hb haxis hx hy => ?_, fun hp hf hw hh => ?_, fun hd hm haxis hin => ?_⟩
  · have hne : ¬ (semiAxis w = 0 ∧ semiAxis h = 0) := by simp only [semiAxis]; omega
    obtain ⟨l, hl⟩ := ellipsePoints_first (semiAxis w) (semiAxis h)
    have hin : InFrame s.ctl.orient (int8 cx + 0, int8 cy + semiAxis h) := by
      simp only [InFrame, semiAxis, int8, Int.ofNat_eq_natCast]
      omega
    refine complete_raised (r := opEllipse (int8 cx) (int8 cy) w h c s) ?_ hf
    rw [opEllipse, gate_on hp, Run.andThen_ok, if_neg hne, hl, List.flatMap_cons, mirrorPoints, List.cons_append,
      plotAll_closed hp hb hin]
  · have hzero : semiAxis w = 0 ∧ semiAxis h = 0 := by simp only [semiAxis]; omega
    refine complete_raised (r := opEllipse (int8 cx) (int8 cy) w h c s) ?_ hf
    rw [opEllipse, gate_on hp, Run.andThen_ok, if_pos hzero, raiseStop]
  · have hne : ¬ (semiAxis w = 0 ∧ semiAxis h = 0) := by simp only [semiAxis]; omega
    obtain ⟨t, ht, hdrew⟩ := exec_plots_drew (plottedPoints_ellipse hne cx cy c) hd hm (List.forall_mem_flatMap.2 hin)
    refine ⟨t, _, _, ht, hdrew, rfl, rfl, ?_⟩
    rw [length_flatMap_plotUnits, length_flatMap_const (n := 4) fun _ => rfl, Nat.mul_assoc, Nat.mul_comm]
    rfl

/-! ### FILLED_ELLIPSE -/

section
variable {cx cy : Int} {a b n y x : Nat}

/-- The rows of a filled ellipse come in pairs. -/
theorem length_filledEllipseRows (cx cy : Int) (a b n y x : Nat) :
    (filledEllipseRows cx cy a b n y x).length = 2 * n := by
  induction n generalizing y x with
  | zero => rfl
  | succ n ih => simp only [filledEllipseRows, List.length_cons, ih]; omega

/-- The k-th pair of rows below row y is the largest span of row y + 1 + k, above and below the centreline
(44_geometry_curves.md R258, R259). Each search starts at the largest offset of the row before. -/
theorem filledEllipseRows_pair (hn : y + n ≤ b) (hprev : ∀ x', InEllipse a b x' y → x' ≤ x) {k : Nat} (hk : k < n) :
    ∃ m : Nat, (∀ x', InEllipse a b x' (y + 1 + k) ↔ x' ≤ m) ∧
      (filledEllipseRows cx cy a b n (y + 1) x)[2 * k]? = some (cx - m, cy - (y + 1 + k : Nat), 2 * (m : Int) + 1) ∧
      (filledEllipseRows cx cy a b n (y + 1) x)[2 * k + 1]? =
        some (cx - m, cy + (y + 1 + k : Nat), 2 * (m : Int) + 1) := by
  induction n generalizing y x k with
  | zero => omega
  | succ n ih =>
    have hrow : ∀ x', InEllipse a b x' (y + 1) ↔ x' ≤ ellipseSpan a b (y + 1) x := fun x' =>
      inEllipse_iff_le_ellipseSpan (by omega) fun x'' h => hprev x'' (h.mono (Nat.le_refl _) (Nat.le_succ y))
    cases k with
    | zero => exact ⟨_, hrow, rfl, rfl⟩
    | succ k =>
      obtain ⟨m, hm, hup, hdown⟩ := ih (by omega) (fun x' => (hrow x').1) (Nat.lt_of_succ_lt_succ hk)
      rw [Nat.succ_add_eq_add_succ (y + 1)] at hm hup hdown
      exact ⟨m, hm, hup, hdown⟩

/-- A span that lies around the centreline, within the semi-axes, is a window of the frame. -/
theorem hlineWindow_centred_in {o : Orient} {row : Int} (hx0 : a ≤ cx) (hy0 : b ≤ cy) (hX : cx + a < frameW o)
    (hY : cy + b < frameH o) (hx : x ≤ a) (hup : cy - b ≤ row) (hdown : row ≤ cy + b) :
    (hlineWindow (cx - x, row, 2 * (x : Int) + 1)).In o := by
  simp only [Window.In, WindowIn, hlineWindow, Int.ofNat_eq_natCast]
  omega

/-- The rows of a filled ellipse in the frame are windows of the frame: they never grow (44_geometry_curves.md R258,
R259). -/
theorem filledEllipseRows_in {o : Orient} (hx0 : a ≤ cx) (hy0 : b ≤ cy) (hX : cx + a < frameW o)
    (hY : cy + b < frameH o) (hn : y + n ≤ b + 1) (hx : x ≤ a) :
    ∀ p ∈ filledEllipseRows cx cy a b n y x, (hlineWindow p).In o := by
  induction n generalizing y x with
  | zero => exact List.forall_mem_nil _
  | succ n ih =>
    have hspan : ellipseSpan a b y x ≤ a := Nat.le_trans (ellipseSpan_le a b y x) hx
    simp only [filledEllipseRows, List.forall_mem_cons]
    exact ⟨hlineWindow_centred_in hx0 hy0 hX hY hspan (by omega) (by omega),
      hlineWindow_centred_in hx0 hy0 hX hY hspan (by omega) (by omega), ih (by omega) hspan⟩

/-- The spans of a filled ellipse in the frame are windows of the frame (44_geometry_curves.md R259). -/
theorem filledEllipseSpans_in {o : Orient} (hx0 : a ≤ cx) (hy0 : b ≤ cy) (hX : cx + a < frameW o)
    (hY : cy + b < frameH o) : ∀ w ∈ (filledEllipseSpans cx cy a b).map hlineWindow, w.In o := by
  rw [List.forall_mem_map, filledEllipseSpans, List.forall_mem_cons]
  exact ⟨hlineWindow_centred_in hx0 hy0 hX hY (Nat.le_refl a) (by omega) (by omega),
    filledEllipseRows_in hx0 hy0 hX hY (by omega) (Nat.le_refl a)⟩

/-- The spans of row y + 1, above and below the centreline, are its largest (44_geometry_curves.md R258, R259). -/
theorem filledEllipseSpans_row (cx cy : Int) (hy : y < b) :
    ∃ m : Nat, (∀ x', InEllipse a b x' (y + 1) ↔ x' ≤ m) ∧
      (filledEllipseSpans cx cy a b)[2 * y + 1]? = some (cx - m, cy - (y + 1 : Nat), 2 * (m : Int) + 1) ∧
      (filledEllipseSpans cx cy a b)[2 * y + 2]? = some (cx - m, cy + (y + 1 : Nat), 2 * (m : Int) + 1) := by
  have hbase : ∀ x', InEllipse a b x' 0 → x' ≤ a := fun _ h => h.le (Nat.zero_lt_of_lt hy)
  have hrow := filledEllipseRows_pair (cx := cx) (cy := cy) (Nat.le_of_eq (Nat.zero_add b)) hbase hy
  rwa [Nat.zero_add, Nat.add_comm 1 y] at hrow

end

/-- Settles O55: the spans are the centreline and, for each row, the largest offset on both sides. -/
theorem filledEllipseResult : Obligations.FilledEllipseResult := by
  unfold Obligations.FilledEllipseResult
  refine ⟨fun _ _ _ _ _ _ => exec_notOn rfl, fun s cx cy w h c hp hf hb hx0 hx hy => ?_,
    fun s cx cy w h c hd hm hx0 hy0 hx hy => ?_⟩
  · have hw : (hlineWindow (int8 cx - semiAxis w, int8 cy, 2 * (semiAxis w : Int) + 1)).In s.ctl.orient := by
      simp only [Window.In, WindowIn, hlineWindow, semiAxis, int8, Int.ofNat_eq_natCast]
      omega
    refine complete_raised (r := opFilledEllipse (int8 cx) (int8 cy) w h c s) ?_ hf
    rw [opFilledEllipse, gate_on hp, Run.andThen_ok, filledEllipseSpans, hlineAll_closed hp hb hw]
  · obtain ⟨t, ht, hdrew⟩ := exec_spans_drew (i := .filledEllipse cx cy w h c) rfl hd hm
      (filledEllipseSpans_in (Int.ofNat_le.2 hx0) (Int.ofNat_le.2 hy0) (Int.ofNat_lt.2 hx) (Int.ofNat_lt.2 hy))
    rw [flatMap_units_hlineWindow, flatMap_positions_hlineWindow] at hdrew
    refine ⟨t, _, _, _, ht, hdrew, rfl, rfl, ?_, rfl, fun y => filledEllipseSpans_row (int8 cx) (int8 cy)⟩
    rw [filledEllipseSpans, List.length_cons, length_filledEllipseRows]
    rfl

end Sys2Proof.Machine
end

section
/-! PROOFS. The obligations about the function `isqrt` and the operation ISQRT (45_isqrt.md R290 to R292). -/
namespace Sys2Proof.Machine

/-- A byte is the root of its square (45_isqrt.md R292). -/
theorem toNat_isqrt_mul_self {r : Nat} (hr : r ≤ 255) : (isqrt (r * r)).toNat = r :=
  circleHeight_zero hr

/-- From 255² on no candidate is ever too large, since it is a byte: the loop finds the same root for every such v. -/
theorem isqrtLoop_of_ceiling_le {v : Nat} (hv : 255 * 255 ≤ v) (n : Nat) (r bit : Byte) :
    isqrtLoop v n r bit = isqrtLoop (255 * 255) n r bit := by
  induction n generalizing r bit with
  | zero => rfl
  | succ n ih =>
    have hsq : (r ||| bit).toNat * (r ||| bit).toNat ≤ 255 * 255 :=
      Nat.mul_self_le_mul_self (Nat.le_of_lt_succ (r ||| bit).isLt)
    simp only [isqrtLoop, ih, if_neg (Nat.not_lt.2 hsq), if_neg (Nat.not_lt.2 (Nat.le_trans hsq hv))]

/-- Settles O58: the loop's bounds, the round trip, and above the ceiling the root of 255². -/
theorem isqrtProperties : Obligations.IsqrtProperties := by
  unfold Obligations.IsqrtProperties
  refine ⟨fun v hv => isqrt_bounds (Nat.lt_succ_of_le hv), fun r => toNat_isqrt_mul_self, fun v hv => ?_⟩
  calc (isqrt v).toNat
    _ = (isqrt (255 * 255)).toNat :=
      congrArg BitVec.toNat (isqrtLoop_of_ceiling_le (Nat.le_trans (by decide) hv) 8 0 Config.isqrtTop)
    _ = 255 := toNat_isqrt_mul_self (Nat.le_refl 255)

/-- Settles O57: ISQRT is one write of `E.sqrt` and the pc step, and the read of the unset register is the Host's. -/
theorem isqrtInstruction : Obligations.IsqrtInstruction := by
  unfold Obligations.IsqrtInstruction
  refine ⟨fun _ _ => rfl, ?_, fun s rest hh hf hsqrt hb hhost => ?_, fun _ _ => rfl⟩
  · and_intros <;> rfl
  · obtain ⟨-, hunset, -⟩ := hostReads s rest hh hb
    exact ⟨_, s.pc, hunset hhost hsqrt hf, rfl⟩

end Sys2Proof.Machine
end

section
/-! PROOFS. The obligation about the state at power-on (70_reset_and_hazards.md R344). -/
namespace Sys2Proof.Machine

/-- At power-on no display cell has been written, so each reads as ⊥ (10_state.md R38). -/
theorem State.reset_gram_read (a : Nat) : State.reset.ctl.gram.read a = none := Memory.read_nil a

/-- Settles O12: each register has its value in `State.reset` or `Controller.powerOn`, and the display memory lists no
cell. -/
theorem powerOnState : Obligations.PowerOnState := by
  unfold Obligations.PowerOnState
  exact ⟨rfl, rfl, rfl, rfl, rfl, rfl, rfl, rfl,
    rfl, rfl, rfl, rfl, rfl, rfl, rfl, rfl, rfl, rfl, rfl, rfl, rfl, rfl, State.reset_gram_read, rfl⟩

end Sys2Proof.Machine
end

section
/-! PROOFS. INIT's failure modes, its frame in every outcome, and INIT run twice (42_controller_protocol.md section 1,
R191). -/
namespace Sys2Proof.Machine

variable {s t : State} {cfg : Config} {u : BusUnit} {us : List BusUnit} {c : Controller}

/-! ### Units that the Controller accepts raise no fault -/

/-- A transfer that the Controller accepts leaves the fault record, whether or not the Bus completes it
(40_bus_transport.md R124, R128). -/
theorem xfer_fault_of_receive_ok (hb : s.busOpen = true) (hr : receive s.cfg s.rst u s.ctl = .ok c) :
    (xfer u s).state.fault = s.fault := by
  rcases xfer_cases u s with ⟨hb', -⟩ | ⟨-, d, f, hr', -⟩ | ⟨-, d, -, ⟨-, hx⟩ | ⟨-, hx⟩ | ⟨n, -, hx⟩⟩
  · cases hb.symm.trans hb'
  · cases hr.symm.trans hr'
  all_goals rw [hx]; rfl

/-- A sequence of units that the Controller accepts leaves the fault record, whether or not the Bus stalls in it. -/
theorem sendAll_fault_of_feed_ok (hb : s.busOpen = true) (hrst : s.rst = .inactive)
    (hf : feed s.cfg us s.ctl = .ok c) : (sendAll us s).state.fault = s.fault := by
  induction us generalizing s with
  | nil => rfl
  | cons u us ih =>
    cases hr : receive s.cfg .inactive u s.ctl with
    | raised d f => simp only [feed, hr, reduceCtorEq] at hf
    | ok d =>
      have hfault := xfer_fault_of_receive_ok hb (hrst ▸ hr)
      have hsent := xfer_sent u s
      rw [sendAll, runAll_cons]
      cases hx : xfer u s with
      | stop v => rwa [hx] at hfault
      | ok v =>
        rw [hx] at hfault hsent
        have hv : d = v.ctl := CtlResult.ok.inj (hr.symm.trans (hrst ▸ (xfer_eq_ok hx).2))
        rw [feed_cons_ok hr, hv, ← hsent.cfg] at hf
        exact (ih (hsent.busOpen.trans hb) (hsent.rst.trans hrst) hf).trans hfault

/-- The Controller after SLPOUT from its reset state (41_controller_commands.md R151). -/
def sleptOut : Controller := { Controller.powerOn with phase := .sleepOut, settle := some .slpout }

/-- After the reset steps the Controller accepts SLPOUT (42_controller_protocol.md R191). -/
theorem receive_slpout_opReset (hc : s.cfg.opcsDistinct = true) :
    receive (opReset s).cfg (opReset s).rst (cmdUnit (opReset s).cfg .slpout) (opReset s).ctl = .ok sleptOut := by
  rw [opReset_eq]
  exact receive_command (k := .slpout) hc rfl rfl rfl

/-- With the bus open INIT leaves the fault record: after the reset steps the Controller accepts each of its units
(42_controller_protocol.md section 1). -/
theorem opInit_fault_of_open (hb : s.busOpen = true) (hc : s.cfg.opcsDistinct = true) :
    (opInit s).state.fault = s.fault := by
  have hslpout := receive_slpout_opReset (s := s) hc
  have hopen : (opReset s).busOpen = true := by rw [opReset_eq]; exact hb
  have hfault := xfer_fault_of_receive_ok hopen hslpout
  have hsent := xfer_sent (cmdUnit (opReset s).cfg .slpout) (opReset s)
  have hreset : (opReset s).fault = s.fault := by rw [opReset_eq]
  simp only [opInit]
  cases hx : xfer (cmdUnit (opReset s).cfg .slpout) (opReset s) with
  | stop t =>
    rw [hx] at hfault
    exact hfault.trans hreset
  | ok t =>
    rw [hx] at hfault hsent
    have hcfg : t.cfg = s.cfg := hsent.cfg.trans (by rw [opReset_eq])
    have hrst : t.rst = .inactive := hsent.rst.trans (by rw [opReset_eq])
    have hctl : t.ctl = sleptOut := CtlResult.ok.inj ((xfer_eq_ok hx).2.symm.trans hslpout)
    have hwait : (wait .slpout t).ctl = { sleptOut with settle := none } := by rw [← hctl]; rfl
    have hfeed := feed_colmodDispon (c := (wait .slpout t).ctl) (hcfg ▸ hc) rfl (by rw [hwait]; rfl)
      (by rw [hwait]; rfl)
    calc (sendAll _ (wait .slpout t)).state.fault
      _ = (wait .slpout t).fault := sendAll_fault_of_feed_ok (hsent.busOpen.trans hopen) hrst hfeed
      _ = (opReset s).fault := hfault
      _ = s.fault := hreset

/-! ### The frame -/

/-- What the reset steps leave of the display memory, the orientation and the window, with no command open that could
write them: what every unit of INIT keeps. -/
structure ResetKept (c : Controller) : Prop where
  cmd : c.cmd = none ∨ c.cmd = some .colmod
  gram : c.gram = []
  orient : c.orient = .o0
  xs : c.xs = none
  xe : c.xe = none
  ys : c.ys = none
  ye : c.ye = none

theorem resetKept_opReset (s : State) : ResetKept (opReset s).ctl := by
  rw [opReset_eq]
  exact ⟨.inl rfl, rfl, rfl, rfl, rfl, rfl, rfl⟩

/-- Of the commands of INIT only COLMOD is open after its unit, and a refused unit opens none. -/
theorem receive_initCommand_cmd (hc : cfg.opcsDistinct = true) {k : Command}
    (hk : k = .slpout ∨ k = .colmod ∨ k = .dispon) (rst : Level) (h : c.cmd = none ∨ c.cmd = some .colmod) :
    (receive cfg rst (cmdUnit cfg k) c).ctl.cmd = none ∨
      (receive cfg rst (cmdUnit cfg k) c).ctl.cmd = some .colmod := by
  rcases receive_command_cases hc k rst c with ⟨f, hr⟩ | ⟨f, hr⟩ | ⟨-, -, -, hr⟩ <;> rw [hr]
  · exact h
  · exact .inl rfl
  · obtain rfl | rfl | rfl := hk
    · exact .inl rfl
    · exact .inr rfl
    · exact .inl rfl

/-- A command of INIT, accepted or not, keeps what the reset left. -/
theorem ResetKept.receive_command (h : ResetKept c) (hc : cfg.opcsDistinct = true) {k : Command}
    (hk : k = .slpout ∨ k = .colmod ∨ k = .dispon) (rst : Level) :
    ResetKept (receive cfg rst (cmdUnit cfg k) c).ctl := by
  have hkept := receive_command_kept hc (k := k) (by obtain rfl | rfl | rfl := hk <;> simp) rst c
  exact ⟨receive_initCommand_cmd hc hk rst h.cmd, hkept.gram.trans h.gram, hkept.orient.trans h.orient,
    hkept.xs.trans h.xs, hkept.xe.trans h.xe, hkept.ys.trans h.ys, hkept.ye.trans h.ye⟩

/-- A data unit, accepted or not, keeps what the reset left: no command is open that could write it. -/
theorem ResetKept.receive_data (h : ResetKept c) (rst : Level) (b : Byte) :
    ResetKept (receive cfg rst (dataUnit b) c).ctl := by
  have hkept := receive_data_kept cfg rst b c
  have hother {k : Command} (hk : k ≠ .colmod) : c.cmd ≠ some k := by
    rcases h.cmd with hcmd | hcmd <;> simp [hcmd, hk.symm]
  obtain ⟨hxs, hxe⟩ := hkept.columns (hother (by simp))
  obtain ⟨hys, hye⟩ := hkept.rows (hother (by simp))
  obtain ⟨hgram, -⟩ := hkept.stream (hother (by simp))
  exact ⟨hkept.cmd ▸ h.cmd, hgram.trans h.gram, (hkept.orient (hother (by simp))).trans h.orient, hxs.trans h.xs,
    hxe.trans h.xe, hys.trans h.ys, hye.trans h.ye⟩

/-- The units of INIT (42_controller_protocol.md R191). -/
def initUnits (cfg : Config) : List BusUnit :=
  [cmdUnit cfg .slpout, cmdUnit cfg .colmod, dataUnit cfg.colmod16, cmdUnit cfg .dispon]

/-- A unit of INIT, accepted or not, keeps what the reset left. -/
theorem ResetKept.receive (h : ResetKept c) (hc : cfg.opcsDistinct = true) (hu : u ∈ initUnits cfg) (rst : Level) :
    ResetKept (receive cfg rst u c).ctl := by
  simp only [initUnits, List.mem_cons, List.not_mem_nil, or_false] at hu
  obtain rfl | rfl | rfl | rfl := hu
  · exact h.receive_command hc (.inl rfl) rst
  · exact h.receive_command hc (.inr (.inl rfl)) rst
  · exact h.receive_data rst _
  · exact h.receive_command hc (.inr (.inr rfl)) rst

/-- A state INIT reaches from `s`: the Engine's frame after the reset steps, and what the reset left of the
Controller. -/
structure InitFrame (s t : State) : Prop extends EngineKept (opReset s) t where
  ctl : ResetKept t.ctl

theorem InitFrame.cfg_eq (h : InitFrame s t) : t.cfg = s.cfg := h.cfg.trans (by rw [opReset_eq])

theorem InitFrame.xfer (h : InitFrame s t) (hc : s.cfg.opcsDistinct = true) (hu : u ∈ initUnits s.cfg) :
    InitFrame s (xfer u t).state := by
  have hs := xfer_sent u t
  refine ⟨h.toEngineKept.trans hs.toEngineKept, ?_⟩
  rcases hs.ctl with hsame | htaken
  · exact hsame ▸ h.ctl
  · rw [← h.cfg_eq] at hc hu
    exact htaken ▸ h.ctl.receive hc hu t.rst

/-- INIT, whatever its outcome, keeps its frame (42_controller_protocol.md R191). -/
theorem initFrame_opInit (hc : s.cfg.opcsDistinct = true) : InitFrame s (opInit s).state := by
  have hreset : InitFrame s (opReset s) := ⟨.refl _, resetKept_opReset s⟩
  refine andThen_induct (P := InitFrame s) (hreset.xfer hc ?_) fun t ht => ?_
  · simp [initUnits, opReset_eq]
  · have hwait : InitFrame s (wait .slpout t) :=
      ⟨⟨ht.cfg, ht.ops, ht.host, ht.reads, ht.bench, ht.busOpen, ht.rst, ht.sqrt⟩, ⟨ht.ctl.cmd, ht.ctl.gram,
        ht.ctl.orient, ht.ctl.xs, ht.ctl.xe, ht.ctl.ys, ht.ctl.ye⟩⟩
    refine runAll_induct (fun u hu v hv => hv.xfer hc ?_) _ hwait
    rw [hwait.cfg_eq] at hu
    exact List.mem_cons_of_mem _ hu

/-! ### The obligations -/

/-- The pc step at the end of an engine operation leaves the fault record (10_state.md R24). -/
theorem complete_fault {r : Run} (h : complete r = .next t) : t.fault = r.state.fault := by
  rcases complete_cases h with ⟨u, rfl, rfl⟩ | rfl <;> rfl

/-- Settles O16: with the bus closed INIT stops after the reset steps, with it open it raises nothing; its units keep
what the reset left. -/
theorem initFailureModes : Obligations.InitFailureModes := by
  unfold Obligations.InitFailureModes
  intro s t hc ht
  refine ⟨fun hf hraised => ?_, ?_, ?_⟩
  · cases hb : s.busOpen with
    | true =>
      exact absurd ((complete_fault ht).trans ((opInit_fault_of_open hb hc).trans hf)) hraised
    | false =>
      obtain ⟨-, -, hclosed⟩ := initInstruction
      rw [hclosed s hb hf, Host.Outcome.next.injEq] at ht
      subst ht
      exact ⟨rfl, rfl, rfl, rfl, rfl, rfl⟩
  · have hengine : EngineKept (opReset s) t := by
      have hframe := (initFrame_opInit hc).toEngineKept
      rcases complete_cases ht with ⟨u, hu, rfl⟩ | hu <;> rw [hu] at hframe
      · exact hframe.advancePc
      · exact hframe
    rw [opReset_eq] at hengine
    exact ⟨hengine.cfg, hengine.ops, hengine.host, hengine.reads, hengine.busOpen, hengine.sqrt, hengine.rst⟩
  · have hctl : ResetKept t.ctl := complete_ctl ht ▸ (initFrame_opInit hc).ctl
    exact ⟨hctl.gram, hctl.orient, hctl.xs, hctl.xe, hctl.ys, hctl.ye⟩

/-- Settles O17: the state INIT leaves meets INIT's premises, and the reset steps forget the Controller it starts
from. -/
theorem initTwiceIsInitOnce : Obligations.InitTwiceIsInitOnce := by
  unfold Obligations.InitTwiceIsInitOnce
  intro s hb hst hc
  obtain ⟨-, hinit, -⟩ := initInstruction
  refine ⟨_, _, hinit s hb hst hc, hinit _ hb hst hc, rfl, ?_, rfl, rfl, rfl, rfl, rfl, rfl, rfl,
    Memory.read_nil, rfl⟩
  simp

end Sys2Proof.Machine
end
